-- ==== Sys2Proof/Word.lean ====
section
/-! DEFINITION. The value types of the core: bytes, 32-bit register words, 4-byte schedule words and
16-byte blocks, with their plainest arithmetic (00_scope.md R7; 41_key_schedule.md R121; 42_block_core.md R140). -/

namespace Sys2Proof

/-- An 8-bit unsigned value, bit 0 the least significant (R7). -/
abbrev Byte := BitVec 8

/-- A 32-bit control-register or command word (R7). -/
abbrev Word := BitVec 32

/-- A sequence of four bytes, first byte first: a key-schedule word `[a0, a1, a2, a3]` (R121), and at the
same time one column of the 4×4 State (R140) or of a round key (R126). -/
structure Column where
  a0 : Byte
  a1 : Byte
  a2 : Byte
  a3 : Byte
deriving DecidableEq, Repr, Inhabited

/-- The 4×4 matrix of bytes `s[r][c]`, held column by column (R7, R140): the State of one block, and a
round key (R126). -/
structure Block where
  c0 : Column
  c1 : Column
  c2 : Column
  c3 : Column
deriving DecidableEq, Repr, Inhabited

/-- Byte `r` of a column. -/
def Column.get (w : Column) (r : Fin 4) : Byte :=
  match r.val with
  | 0 => w.a0
  | 1 => w.a1
  | 2 => w.a2
  | _ => w.a3

/-- The column whose byte `r` is `f r`. -/
def Column.ofFn (f : Fin 4 → Byte) : Column := ⟨f 0, f 1, f 2, f 3⟩

/-- The XOR of two words is byte-wise (R121). -/
def Column.xor (v w : Column) : Column := ⟨v.a0 ^^^ w.a0, v.a1 ^^^ w.a1, v.a2 ^^^ w.a2, v.a3 ^^^ w.a3⟩

/-- The four bytes of a column, first byte first. -/
def Column.toList (w : Column) : List Byte := [w.a0, w.a1, w.a2, w.a3]

/-- Column `c` of the matrix. -/
def Block.column (s : Block) (c : Fin 4) : Column :=
  match c.val with
  | 0 => s.c0
  | 1 => s.c1
  | 2 => s.c2
  | _ => s.c3

/-- `s[r][c]`: row `r`, column `c` (R7). -/
def Block.get (s : Block) (r c : Fin 4) : Byte := (s.column c).get r

/-- The matrix with `s[r][c] = f r c`. -/
def Block.ofFn (f : Fin 4 → Fin 4 → Byte) : Block :=
  ⟨.ofFn fun r => f r 0, .ofFn fun r => f r 1, .ofFn fun r => f r 2, .ofFn fun r => f r 3⟩

/-- The byte-wise XOR of two blocks (R7). -/
def Block.xor (s t : Block) : Block := ⟨s.c0.xor t.c0, s.c1.xor t.c1, s.c2.xor t.c2, s.c3.xor t.c3⟩

end Sys2Proof
end

