-- ==== Sys2Proof/Config.lean ====
section
/-! DEFINITION. What an implementation fixes (the parameters of 00_scope.md R5) and the values the spec leaves
open: functions with NO BODY, of which no proof can see a value. -/

namespace Sys2Proof

/-- `CTR_ENDIAN`: which end of the IV is most significant in the counter (R48, R181). -/
inductive Endian where
  | big
  | little
deriving DecidableEq, Repr

/-- Which `KDF` and `MAC` the machine has (R210, R211). -/
inductive Suite where
  /-- The deployment's own functions: OPEN, so free (log 2). -/
  | deployed
  /-- The EXAMPLE instantiation of R220: SHA-256 and HMAC-SHA256 (log 3, PRESUMED). -/
  | exampleR220
deriving DecidableEq, Repr

/-- The parameters a model of the core takes (R5), fixed for one machine: no step changes them. They are held in
State as plain data, so that a statement about every state is a statement about every deployment (log 1,
DESIGN CHOICE). -/
structure Params where
  /-- `DIN_MAX`, the capacity of the input buffer. -/
  dinMax : Nat
  /-- `PW_MAX`, the capacity of the password buffer. -/
  pwMax : Nat
  /-- `TAG_LEN`, the width of the integrity tag. -/
  tagLen : Nat
  /-- `ENV_KEY_LEN`, the length of the AES key the envelope derives. -/
  envKeyLen : Nat
  /-- `HMAC_KEY_LEN`, the length of the HMAC key the envelope derives. -/
  hmacKeyLen : Nat
  /-- `CTR_ENDIAN`. -/
  ctrEndian : Endian
  /-- `CORE_BASE`, the platform address of the window. -/
  coreBase : Nat
  /-- Which `KDF` and `MAC`. -/
  suite : Suite
deriving DecidableEq, Repr

/-- `DOUT_MAX = DIN_MAX + 80` (R5). -/
def Params.doutMax (p : Params) : Nat := p.dinMax + 80

/-- `PREFIX_LEN = 32 + TAG_LEN` (R5, R213; 90_conflicts.md C1). -/
def Params.prefixLen (p : Params) : Nat := 32 + p.tagLen

/-- The parameters State.reset has: the sizes 95_test_vectors.md takes for its programs, a 16-byte tag, big-endian
counters, the window at address 0, and the open functions (log 1, DESIGN CHOICE). -/
def Params.default : Params :=
  { dinMax := 256, pwMax := 64, tagLen := 16, envKeyLen := 16, hmacKeyLen := 32, ctrEndian := .big,
    coreBase := 0, suite := .deployed }

/-- Byte `k` of the AES key `kA` that the deployment's `KDF` derives from an input string and an iteration count,
for the two output lengths (R210: OPEN; log 2). -/
opaque Config.kdfAesByte (envKeyLen hmacKeyLen : Nat) (input : List Byte) (workload k : Nat) : Byte

/-- Byte `k` of the HMAC key `kM` of the same derivation (R210: OPEN; log 2). -/
opaque Config.kdfMacByte (envKeyLen hmacKeyLen : Nat) (input : List Byte) (workload k : Nat) : Byte

/-- Byte `k` of the deployment's `MAC` of a string under a key, for a tag width (R211: OPEN; log 2). -/
opaque Config.macByte (tagLen : Nat) (key message : List Byte) (k : Nat) : Byte

/-- Byte `k` of the `d`-th free value: random bytes (R212; log 4), what a host reads from a byte nothing has written
(R28, R46; log 5), round-key entries the spec leaves unspecified (R20; log 7). -/
opaque Config.freeByte (d k : Nat) : Byte

end Sys2Proof
end

