-- ==== Sys2Proof/Syntax.lean ====
section
/-! DEFINITION. The commands of the core, one constructor per row of spec/opcode_table.json, and the fields of
the command word (30_encoding.md R70, R72). No command word carries an operand (R73). -/

namespace Sys2Proof

/-- The 17 commands (R72). -/
inductive Instr where
  /-- `KEYEXP`: expand a key into the cipher instance (R127). -/
  | keyexp
  /-- `ENC_BLK`: encrypt one block (R152). -/
  | encBlk
  /-- `DEC_BLK`: decrypt one block (R153). -/
  | decBlk
  /-- `ENC_CBC` (R183). -/
  | encCbc
  /-- `DEC_CBC` (R184). -/
  | decCbc
  /-- `ENC_PCBC` (R185). -/
  | encPcbc
  /-- `DEC_PCBC` (R186). -/
  | decPcbc
  /-- `ENC_CFB` (R187). -/
  | encCfb
  /-- `DEC_CFB` (R188). -/
  | decCfb
  /-- `ENC_OFB` (R189). -/
  | encOfb
  /-- `DEC_OFB` (R190). -/
  | decOfb
  /-- `ENC_CTR` (R191). -/
  | encCtr
  /-- `DEC_CTR` (R192). -/
  | decCtr
  /-- `PAD` (R174). -/
  | pad
  /-- `UNPAD` (R175). -/
  | unpad
  /-- `ENV_ENC` (R214). -/
  | envEnc
  /-- `ENV_DEC` (R215). -/
  | envDec
deriving DecidableEq, Repr

/-- The fields of the 32-bit command word (R70). -/
structure CommandFields where
  /-- `RSVD`, bits 31:8. -/
  rsvd : BitVec 24
  /-- `GROUP`, bits 7:4. -/
  group : BitVec 4
  /-- `DIR`, bit 3. -/
  dir : BitVec 1
  /-- `SEL`, bits 2:0. -/
  sel : BitVec 3
deriving DecidableEq, Repr

/-- The fields of each command (R72). -/
def Instr.fields : Instr → CommandFields
  | .keyexp  => ⟨0, 0, 0, 1⟩
  | .encBlk  => ⟨0, 1, 0, 0⟩
  | .decBlk  => ⟨0, 1, 1, 0⟩
  | .encCbc  => ⟨0, 1, 0, 1⟩
  | .decCbc  => ⟨0, 1, 1, 1⟩
  | .encPcbc => ⟨0, 1, 0, 2⟩
  | .decPcbc => ⟨0, 1, 1, 2⟩
  | .encCfb  => ⟨0, 1, 0, 3⟩
  | .decCfb  => ⟨0, 1, 1, 3⟩
  | .encOfb  => ⟨0, 1, 0, 4⟩
  | .decOfb  => ⟨0, 1, 1, 4⟩
  | .encCtr  => ⟨0, 1, 0, 5⟩
  | .decCtr  => ⟨0, 1, 1, 5⟩
  | .pad     => ⟨0, 2, 0, 0⟩
  | .unpad   => ⟨0, 2, 1, 0⟩
  | .envEnc  => ⟨0, 3, 0, 0⟩
  | .envDec  => ⟨0, 3, 1, 0⟩

end Sys2Proof
end

