-- ==== Sys2Proof/WellFormed.lean ====
section
/-! DEFINITION. What is well formed: the fields of a command word (30_encoding.md R70, R74), an instruction, and
the parameters of a machine (00_scope.md R5). -/

namespace Sys2Proof

/-- `RSVD` must be 0 (R70, R74). -/
def CommandFields.rsvdZero (f : CommandFields) : Bool := f.rsvd == 0

/-- `GROUP` is 0 (key management), 1 (block and modes), 2 (padding) or 3 (envelope); 4 to 15 are reserved (R70, R74). -/
def CommandFields.groupDefined (f : CommandFields) : Bool := f.group.toNat ≤ 3

/-- `DIR` may be 1 in groups 1, 2 and 3 only: in group 0 only `(DIR, SEL) = (0, 1)` is legal (R74). -/
def CommandFields.dirDefined (f : CommandFields) : Bool := f.group.toNat ≠ 0 || f.dir == 0

/-- `SEL` is 1 in group 0, at most 5 in group 1, and 0 in groups 2 and 3 (R70, R74). -/
def CommandFields.selDefined (f : CommandFields) : Bool :=
  match f.group.toNat with
  | 0 => f.sel == 1
  | 1 => f.sel.toNat ≤ 5
  | 2 => f.sel == 0
  | 3 => f.sel == 0
  | _ => true

/-- The fields of a legal command word: exactly the words R72 lists. -/
def CommandFields.wf (f : CommandFields) : Bool :=
  f.rsvdZero && f.groupDefined && f.dirDefined && f.selDefined

/-- An instruction has no operand (R73), so it is well formed when its command word's fields are. -/
def Instr.wf (i : Instr) : Bool := i.fields.wf

/-- `DIN_MAX` is a multiple of 16 with 16 <= `DIN_MAX` <= 65280 (R5). -/
def Params.dinMaxLegal (p : Params) : Bool := p.dinMax % 16 == 0 && 16 ≤ p.dinMax && p.dinMax ≤ 65280

/-- `PW_MAX` is a multiple of 4 with `PW_MAX` <= 4096 (R5). -/
def Params.pwMaxLegal (p : Params) : Bool := p.pwMax % 4 == 0 && p.pwMax ≤ 4096

/-- `TAG_LEN` is 16 or 32 (R5). -/
def Params.tagLenLegal (p : Params) : Bool := p.tagLen == 16 || p.tagLen == 32

/-- `ENV_KEY_LEN` is 16, 24 or 32, and `HMAC_KEY_LEN` is positive (R5). -/
def Params.keyLensLegal (p : Params) : Bool :=
  (p.envKeyLen == 16 || p.envKeyLen == 24 || p.envKeyLen == 32) && 1 ≤ p.hmacKeyLen

/-- The EXAMPLE suite has a 16-byte AES key and a 32-byte HMAC key (R220); 95_test_vectors.md E-1 shows it with either
tag width. -/
def Params.suiteLegal (p : Params) : Bool :=
  p.suite == .deployed || (p.envKeyLen == 16 && p.hmacKeyLen == 32)

/-- Legal parameters of a machine (R5). -/
def Params.wf (p : Params) : Bool :=
  p.dinMaxLegal && p.pwMaxLegal && p.tagLenLegal && p.keyLensLegal && p.suiteLegal

end Sys2Proof
end

