-- ==== Sys2Proof/Decode.lean ====
section
/-! DEFINITION. Decoding a command word, total on all 2^32 words and rejecting by name (30_encoding.md R71, R74),
and the encoder after it (R70, R72). -/

namespace Sys2Proof

/-- Why a word is illegal, by field (R74). -/
inductive DecodeError where
  /-- `RSVD ≠ 0`. -/
  | reservedBits
  /-- `GROUP` is 4 to 15. -/
  | reservedGroup
  /-- In group 0, `(DIR, SEL)` is not `(0, 1)`: the all-zero word is one of these. -/
  | reservedKeyCommand
  /-- In group 1, `SEL` is 6 or 7. -/
  | reservedMode
  /-- In group 2, `SEL ≠ 0`. -/
  | reservedPadding
  /-- In group 3, `SEL ≠ 0`. -/
  | reservedEnvelope
deriving DecidableEq, Repr

/-- The fields of a word (R70). -/
def fieldsOf (v : Word) : CommandFields :=
  ⟨v.extractLsb' 8 24, v.extractLsb' 4 4, v.extractLsb' 3 1, v.extractLsb' 0 3⟩

/-- Group 0, key management (R71). -/
def decodeKeyGroup (dir sel : Nat) : Except DecodeError Instr :=
  match dir, sel with
  | 0, 1 => .ok .keyexp
  | _, _ => .error .reservedKeyCommand

/-- Group 1, block cipher and modes: `SEL` picks the mode and `DIR` the direction (R71). -/
def decodeCipherGroup (dir sel : Nat) : Except DecodeError Instr :=
  match sel with
  | 0 => .ok (if dir = 0 then .encBlk else .decBlk)
  | 1 => .ok (if dir = 0 then .encCbc else .decCbc)
  | 2 => .ok (if dir = 0 then .encPcbc else .decPcbc)
  | 3 => .ok (if dir = 0 then .encCfb else .decCfb)
  | 4 => .ok (if dir = 0 then .encOfb else .decOfb)
  | 5 => .ok (if dir = 0 then .encCtr else .decCtr)
  | _ => .error .reservedMode

/-- Group 2, padding (R71). -/
def decodePaddingGroup (dir sel : Nat) : Except DecodeError Instr :=
  if sel = 0 then .ok (if dir = 0 then .pad else .unpad) else .error .reservedPadding

/-- Group 3, envelope (R71). -/
def decodeEnvelopeGroup (dir sel : Nat) : Except DecodeError Instr :=
  if sel = 0 then .ok (if dir = 0 then .envEnc else .envDec) else .error .reservedEnvelope

/-- Decoding of the fields (R71). -/
def decodeFields (f : CommandFields) : Except DecodeError Instr :=
  if f.rsvd.toNat ≠ 0 then .error .reservedBits
  else match f.group.toNat with
    | 0 => decodeKeyGroup f.dir.toNat f.sel.toNat
    | 1 => decodeCipherGroup f.dir.toNat f.sel.toNat
    | 2 => decodePaddingGroup f.dir.toNat f.sel.toNat
    | 3 => decodeEnvelopeGroup f.dir.toNat f.sel.toNat
    | _ => .error .reservedGroup

/-- `decode(v)` (R71). -/
def decode (v : Word) : Except DecodeError Instr := decodeFields (fieldsOf v)

/-- The word of given fields (R70): `RSVD` in bits 31:8, `GROUP` in 7:4, `DIR` in 3, `SEL` in 2:0. -/
def CommandFields.toWord (f : CommandFields) : Word := f.rsvd ++ f.group ++ f.dir ++ f.sel

/-- The command word of an instruction (R72). -/
def encode (i : Instr) : Word := i.fields.toWord

/-- The instruction read from a table row's bits: bit 0 is the least significant bit of the one 32-bit word there is
(R75), bits at or above `nbits` are 0, and a number that does not fit in 32 bits is no command word (log 24). -/
def decodeTableWord (nbits w : Nat) : Option Instr :=
  if w % 2 ^ nbits < 2 ^ 32 then (decode (BitVec.ofNat 32 (w % 2 ^ nbits))).toOption else none

end Sys2Proof
end

