-- ==== Sys2Proof/Machine/Memory.lean ====
section
/-! DEFINITION. The byte storage of the register window: the five operand buffers with their written marks
(10_state.md R23, R24, R28; 20_memory.md R40), as one list of cells in canonical form, and its operations. -/

namespace Sys2Proof.Machine

/-- The operand buffers (R23, R24). -/
inductive Buffer where
  | key
  | iv
  | pw
  | din
  | dout
deriving DecidableEq, Repr

/-- `base(NAME)`: the window offset of a buffer's byte 0 (R40). -/
def Buffer.base : Buffer → Nat
  | .key  => 0x100
  | .iv   => 0x120
  | .pw   => 0x1000
  | .din  => 0x10000
  | .dout => 0x20000

/-- The size of a buffer in bytes (R23, R24, R40). -/
def Buffer.size (p : Params) : Buffer → Nat
  | .key  => 32
  | .iv   => 16
  | .pw   => p.pwMax
  | .din  => p.dinMax
  | .dout => p.doutMax

/-- The size of the window (R40). -/
def windowSize : Nat := 0x30000

/-- Window offsets and the bytes stored there. A cell of an input buffer is a byte the host has written since reset: its
written mark is set (R28). A cell of `DOUT` is a nonzero output byte (log 21). -/
abbrev Memory := List Host.Cell

/-- What an unlisted offset reads as: a `DOUT` byte is 0x00 (R24, R261); an input byte has no value, its written mark
is clear (R28, R261; log 21). -/
def Memory.unlisted (a : Nat) : Option Byte := if Buffer.dout.base ≤ a then some 0 else none

/-- The byte stored at an offset, none where the written mark is clear. -/
def Memory.get : Memory → Nat → Option Byte
  | [], a => Memory.unlisted a
  | (k, b) :: m, a => if a = k then some b else Memory.get m a

/-- Canonical form: offsets strictly rising, and no cell equal to what its offset reads as when unlisted. -/
abbrev Memory.wf (m : Memory) : Prop :=
  m.Pairwise (fun c d => c.1 < d.1) ∧ ∀ c ∈ m, Memory.unlisted c.1 ≠ some c.2

/-- Storing one byte, keeping the canonical form. -/
def Memory.set : Memory → Nat → Byte → Memory
  | [], a, b => if Memory.unlisted a = some b then [] else [(a, b)]
  | (k, c) :: m, a, b =>
    if a < k then (if Memory.unlisted a = some b then (k, c) :: m else (a, b) :: (k, c) :: m)
    else if a = k then (if Memory.unlisted a = some b then m else (a, b) :: m)
    else (k, c) :: Memory.set m a b

/-- Storing a string at rising offsets from `a`. -/
def Memory.setRange (m : Memory) (a : Nat) : List Byte → Memory
  | [] => m
  | b :: bs => Memory.setRange (Memory.set m a b) (a + 1) bs

/-- The `n` bytes from offset `a`, none if any of them has its written mark clear. -/
def Memory.getRange (m : Memory) (a : Nat) : Nat → Option (List Byte)
  | 0 => some []
  | n + 1 =>
    match Memory.get m a, Memory.getRange m (a + 1) n with
    | some b, some bs => some (b :: bs)
    | _, _ => none

/-- The nonzero bytes of a string as cells at rising offsets from `a`. -/
def outputCells (a : Nat) : List Byte → Memory
  | [] => []
  | b :: bs => if b = 0 then outputCells (a + 1) bs else (a, b) :: outputCells (a + 1) bs

/-- Rewriting all of `DOUT`: byte `k` becomes `out[k]`, and 0x00 beyond the string (R24, R31, R232). The input buffers
are not touched (R23). -/
def Memory.setOutput (m : Memory) (out : List Byte) : Memory :=
  m.filter (fun c => decide (c.1 < Buffer.dout.base)) ++ outputCells Buffer.dout.base out

end Sys2Proof.Machine
end

