-- ==== Sys2Proof/Machine/State.lean ====
section
/-! DEFINITION. Every piece of state the spec gives the core (10_state.md R12 to R36; 00_scope.md R5), as plain data,
its faults and refusals, and the state after reset (70_reset_and_hazards.md R261). -/

namespace Sys2Proof.Machine

/-- The model faults (60_exceptions.md R236). A recorded fault is stuck: `step` answers it for ever. -/
inductive Fault where
  /-- Raised by a command that reads a byte of `KEY`, `IV`, `PW` or `DIN` no host write has set since reset (R36). Safe:
  the hardware goes on with whatever its RAM held, the model stops. -/
  | uninitialisedOperand
  /-- Raised by a host access other than a read of `STATUS` while `BUSY = 1` (R30, R44, R46). Safe: the model stops. -/
  | hostProtocolViolation
  /-- Raised by a host access the bus refuses (R45). Safe: the hardware keeps its state and the platform decides what
  the host does, the model stops. -/
  | busError
deriving DecidableEq, Repr

/-- Reasons for having no meaning. -/
inductive Refusal where
  /-- Raised by no arm: every command of the table has its meaning. Safe: the model stops. -/
  | notModelled (mnemonic : String)
deriving DecidableEq, Repr

/-- The errors a command can end with (60_exceptions.md R230). They are outcomes of commands, not model faults. -/
inductive ErrorCode where
  | invalidKeyLength
  | invalidBlockLength
  | invalidIVLength
  | invalidPadding
  | truncatedEnvelope
  | integrityError
  | illegalCommand
  | noKey
  | invalidWorkloadFactor
  | capacityExceeded
deriving DecidableEq, Repr

/-- One entry of the schedule the environment gives the core: whose turn it is, and what it does (log 8). -/
inductive BusEvent where
  /-- `MemRead(addr, n)` by the host, at a platform address (R42, R46; log 13). -/
  | read (addr width : Nat)
  /-- `MemWrite(addr, n, v)` by the host, at a platform address (R42, R44; log 13). -/
  | write (addr width : Nat) (value : Word)
  /-- The reset input is asserted (R260; log 9). -/
  | assertReset
  /-- The reset input is released (R260; log 9). -/
  | releaseReset
  /-- The core's turn: step 2 of R30 if a command has been started. -/
  | core
deriving DecidableEq, Repr

/-- What the bus answered to the last host access (log 12). -/
inductive Response where
  /-- No access since reset, or the last one had no answer: while reset is held none is given (R260), and the spec defines
  none for an access that violates the protocol. -/
  | idle
  /-- A write was accepted. -/
  | written
  /-- A read returned this value: a byte in bits 7:0, or the 32-bit value in the lane order of R43. -/
  | data (value : Word)
  /-- A bus error response, with no data (R45). -/
  | busError
deriving DecidableEq, Repr

/-- The state of the core (R35), its parameters (R5), and the model's own fields `bus`, `response`, `rngPort` and
`draws`. `STATUS` and `CFG` are computed from the fields (R14, R22; Machine/Flags.lean). The transient state of one
command is not held (R26; log 23). -/
structure State where
  /-- The parameters of this machine (R5; log 1). No step changes them. -/
  params : Params
  /-- `CMD`: the last word written, legal or not (R13). -/
  cmd : Word
  /-- `STATUS.BUSY` (R14, R30). -/
  busy : Bool
  /-- `STATUS.DONE` (R14). -/
  done : Bool
  /-- `STATUS.ERR` (R14). -/
  err : Bool
  /-- `STATUS.ERRCODE` (R14, R230). -/
  errcode : Byte
  /-- `KEY_VALID`, visible as `STATUS.KEY_VALID` (R20). -/
  keyValid : Bool
  /-- `NK`, the word count of the loaded schedule (R20, R22). -/
  nk : Nat
  /-- `NR`, the round count of the loaded schedule (R20, R22). -/
  nr : Nat
  /-- The round-key store `RK[0..14]`, with no host access (R20). -/
  rk : Vector Block 15
  /-- `KEY_LEN` (R15). -/
  keyLen : Word
  /-- `IV_LEN` (R16). -/
  ivLen : Word
  /-- `DIN_LEN` (R17). -/
  dinLen : Word
  /-- `PW_LEN` (R18). -/
  pwLen : Word
  /-- `WORKLOAD` (R19). -/
  workload : Word
  /-- `DOUT_LEN` (R21). -/
  doutLen : Word
  /-- `KEY`, `IV`, `PW`, `DIN` with their written marks, and `DOUT` (R23, R24, R28). -/
  mem : Memory
  /-- The recorded fault, never cleared (R35, R236). -/
  fault : Option Fault
  /-- The reset input is asserted (R260). -/
  resetHeld : Bool
  /-- MODEL'S OWN: the environment's schedule still to come, oldest first (log 8). -/
  bus : List BusEvent
  /-- MODEL'S OWN: the answer to the last host access (log 12). -/
  response : Response
  /-- MODEL'S OWN: bytes standing at the random source's port, oldest first (R29; log 4). -/
  rngPort : List Byte
  /-- MODEL'S OWN: how many free values have been drawn. No statement rests on its value (logs 4, 5, 7, 22). -/
  draws : Nat
deriving DecidableEq, Repr

/-- The state after reset for given parameters (R261): every register 0, no cipher instance, every written mark clear,
`DOUT` all zero, the reset input released (R260). `RK`, which R261 leaves unspecified, is zero (log 6, DESIGN CHOICE); the model's own fields are empty
(logs 8, 12, 22, DESIGN CHOICE). -/
def State.resetWith (p : Params) : State :=
  { params := p, cmd := 0, busy := false, done := false, err := false, errcode := 0, keyValid := false, nk := 0, nr := 0,
    rk := Vector.replicate 15 (Block.ofFn fun _ _ => 0),
    keyLen := 0, ivLen := 0, dinLen := 0, pwLen := 0, workload := 0, doutLen := 0, mem := [], fault := none,
    resetHeld := false, bus := [], response := .idle, rngPort := [], draws := 0 }

/-- The machine right after reset, with the parameters of log 1. -/
def State.reset : State := State.resetWith Params.default

end Sys2Proof.Machine
end

