-- ==== Sys2Proof/Machine/Flags.lean ====
section
/-! DEFINITION. The flags of the core: the `STATUS` and `CFG` words computed from their fields (10_state.md R14, R22),
the error codes (60_exceptions.md R230), and what a start, a success and an error write to the `STATUS` bits
(R27, R30, R31, R232). -/

namespace Sys2Proof.Machine

/-- The number of an error, `STATUS[15:8]` (R230). -/
def ErrorCode.code : ErrorCode → Byte
  | .invalidKeyLength      => 0x01
  | .invalidBlockLength    => 0x02
  | .invalidIVLength       => 0x03
  | .invalidPadding        => 0x04
  | .truncatedEnvelope     => 0x05
  | .integrityError        => 0x06
  | .illegalCommand        => 0x10
  | .noKey                 => 0x11
  | .invalidWorkloadFactor => 0x12
  | .capacityExceeded      => 0x13

/-- The `STATUS` word: `BUSY` bit 0, `DONE` bit 1, `ERR` bit 2, `KEY_VALID` bit 3, bits 7:4 zero, `ERRCODE` bits 15:8,
bits 31:16 zero (R14). -/
def statusWord (s : State) : Word :=
  0#16 ++ s.errcode ++ 0#4 ++ BitVec.ofBool s.keyValid ++ BitVec.ofBool s.err ++ BitVec.ofBool s.done ++
    BitVec.ofBool s.busy

/-- The `CFG` word: `NK` in bits 7:0, `NR` in bits 15:8, bits 31:16 zero (R22). -/
def cfgWord (s : State) : Word := 0#16 ++ BitVec.ofNat 8 s.nr ++ BitVec.ofNat 8 s.nk

/-- What starting a command writes to `STATUS` (R30 step 1). -/
def State.startFlags (s : State) : State := { s with busy := true, done := false, err := false, errcode := 0 }

/-- What a successful completion writes to `STATUS` (R31). -/
def State.successFlags (s : State) : State := { s with err := false, errcode := 0, busy := false, done := true }

/-- What an error writes to `STATUS` (R232). -/
def State.errorFlags (s : State) (e : ErrorCode) : State :=
  { s with err := true, errcode := e.code, busy := false, done := true }

end Sys2Proof.Machine
end

