-- ==== Sys2Proof/Machine/Ops.lean ====
section
/-! DEFINITION. The operations every command shares: starting, completing, ending with an error, recording a model
fault, and reset (10_state.md R30, R31, R36; 60_exceptions.md R232, R236; 70_reset_and_hazards.md R261). -/

namespace Sys2Proof.Machine

/-- The outcome of a step of this machine. -/
abbrev Result := Host.Outcome State Fault Refusal

/-- Rewriting the output: `DOUT_LEN` and all of `DOUT` (R24, R31, R232). -/
def State.setOutput (s : State) (out : List Byte) : State :=
  { s with doutLen := BitVec.ofNat 32 out.length, mem := s.mem.setOutput out }

/-- `Complete(out)` (R31). -/
def State.complete (s : State) (out : List Byte) : State := (s.setOutput out).successFlags

/-- `raise E(code)`, the core's one form of taking an exception (R232, R233): the output is cleared and `STATUS` tells
the error. No context is saved, no mode changes and no vector is taken (R233). -/
def State.raise (s : State) (e : ErrorCode) : State := (s.setOutput []).errorFlags e

/-- A host write `v` to `CMD` while idle (R30 step 1). There is no return from an error: the next start is what clears
`DONE`, `ERR` and `ERRCODE` (R234). -/
def State.start (s : State) (v : Word) : State := { s.startFlags with cmd := v }

/-- Recording a model fault: nothing else changes (R36, R44, R45, R236; log 10). -/
def State.recordFault (s : State) (f : Fault) : State := { s with fault := some f }

/-- What a released reset leaves (R260, R261): the state after reset, but that the parameters, the recorded fault and the
environment's own fields stay (log 9). A command in flight is abandoned. -/
def State.resetInput (s : State) : State :=
  { State.resetWith s.params with fault := s.fault, bus := s.bus, rngPort := s.rngPort, draws := s.draws }

/-- The reset input asserted (R260): the state is held until the release. -/
def State.assertReset (s : State) : State := { s with resetHeld := true }

/-- The reset input released (R260): the state after reset if it was asserted, nothing otherwise (log 9). -/
def State.releaseReset (s : State) : State := if s.resetHeld then s.resetInput else s

/-- How a command ends: `Complete(out)` or `raise E(code)` (R30 step 2). -/
def State.finish (s : State) : Except ErrorCode (List Byte) → State
  | .ok out => s.complete out
  | .error e => s.raise e

/-- A check that looks only at registers: when the condition holds, the command raises the error (R231). -/
abbrev Check := Bool × ErrorCode

/-- The first check that fails; no later one is made (R231). -/
def firstFailure : List Check → Option ErrorCode
  | [] => none
  | (failed, e) :: rest => if failed then some e else firstFailure rest

/-- A command's end: the error of its first failing register check, else what its body gives (R231). -/
def afterChecks (checks : List Check) (s : State) (body : State) : State :=
  match firstFailure checks with
  | some e => s.raise e
  | none => body

end Sys2Proof.Machine
end

