-- ==== Sys2Proof/Machine/Bus.lean ====
section
/-! DEFINITION. Host accesses to the register window: the address map, widths and alignment, byte lanes, writes, reads
and bus errors (20_memory.md R40 to R51; 10_state.md R12 to R24). -/

namespace Sys2Proof.Machine

/-- The nine control and status registers (R12). -/
inductive ControlReg where
  | cmd
  | status
  | keyLen
  | ivLen
  | dinLen
  | pwLen
  | workload
  | doutLen
  | cfg
deriving DecidableEq, Repr

/-- What a legal access is to: a whole control register, or bytes of a buffer from a byte index on (R42). -/
inductive Target where
  | reg (r : ControlReg)
  | bytes (b : Buffer) (k : Nat)
deriving DecidableEq, Repr

/-- The register at a window offset (R12). -/
def regAt (off : Nat) : Option ControlReg :=
  match off with
  | 0x000 => some .cmd
  | 0x004 => some .status
  | 0x008 => some .keyLen
  | 0x00C => some .ivLen
  | 0x010 => some .dinLen
  | 0x014 => some .pwLen
  | 0x018 => some .workload
  | 0x01C => some .doutLen
  | 0x020 => some .cfg
  | _ => none

/-- Whether an offset lies in a buffer (R40). -/
def inBuffer (p : Params) (b : Buffer) (off : Nat) : Bool := b.base ≤ off && off < b.base + b.size p

/-- The buffer at a window offset, if it lies in one (R40). -/
def bufferAt (p : Params) (off : Nat) : Option Buffer :=
  [Buffer.key, .iv, .pw, .din, .dout].find? fun b => inBuffer p b off

/-- The target of an access of `n` bytes at a window offset, none where R42 forbids the width or alignment or where an
offset is reserved (R40, R42, R45). -/
def targetAt (p : Params) (off n : Nat) : Option Target :=
  if off < 0x24 then (if n = 4 then (regAt off).map .reg else none)
  else match bufferAt p off with
    | none => none
    | some b =>
      if n = 1 then some (.bytes b (off - b.base))
      else if n = 4 ∧ off % 4 = 0 ∧ off + 4 ≤ b.base + b.size p then some (.bytes b (off - b.base))
      else none

/-- The window offset of a platform address, none outside the window (R40, R45, R52; log 13). -/
def windowOffset (p : Params) (addr : Nat) : Option Nat :=
  if p.coreBase ≤ addr ∧ addr < p.coreBase + windowSize then some (addr - p.coreBase) else none

/-- The target of an access at a platform address; none is a bus error (R45). -/
def target (p : Params) (addr n : Nat) : Option Target :=
  (windowOffset p addr).bind fun off => targetAt p off n

/-- Registers and buffers the host may not write (R12, R24, R45). -/
def Target.readOnly : Target → Bool
  | .reg .status | .reg .doutLen | .reg .cfg | .bytes .dout _ => true
  | .reg .cmd | .reg .keyLen | .reg .ivLen | .reg .dinLen | .reg .pwLen | .reg .workload => false
  | .bytes .key _ | .bytes .iv _ | .bytes .pw _ | .bytes .din _ => false

/-- A refused access: a bus error response, the fault `BusError`, and no other effect (R45, R235, R236). -/
def State.refuseAccess (s : State) : State := { s.recordFault .busError with response := .busError }

/-- An access while `BUSY = 1` other than a read of `STATUS`: the fault `HostProtocolViolation` and no other effect
(R44, R46; log 12). -/
def State.violateProtocol (s : State) : State := { s.recordFault .hostProtocolViolation with response := .idle }

/-- An access while reset is held: no answer and no effect (R260). -/
def State.unanswered (s : State) : State := { s with response := .idle }

/-- The low `n` bytes of a value in lane order: byte `i` is bits `[8i+7:8i]` (R43; log 15). -/
def laneBytes (n : Nat) (v : Word) : List Byte := (List.range n).map fun i => v.extractLsb' (8 * i) 8

/-- The value whose bits `[8i+7:8i]` are byte `i` (R43). -/
def laneWord : List Byte → Word
  | [] => 0
  | b :: bs => (laneWord bs <<< 8) ||| b.setWidth 32

/-- The value of a register (R13 to R22). -/
def State.readReg (s : State) : ControlReg → Word
  | .cmd => s.cmd
  | .status => statusWord s
  | .keyLen => s.keyLen
  | .ivLen => s.ivLen
  | .dinLen => s.dinLen
  | .pwLen => s.pwLen
  | .workload => s.workload
  | .doutLen => s.doutLen
  | .cfg => cfgWord s

/-- A host write of a register while idle; a write to `CMD` starts a command (R30, R44). The read-only registers are
refused before this. -/
def State.writeReg (s : State) (v : Word) : ControlReg → State
  | .cmd => s.start v
  | .keyLen => { s with keyLen := v }
  | .ivLen => { s with ivLen := v }
  | .dinLen => { s with dinLen := v }
  | .pwLen => { s with pwLen := v }
  | .workload => { s with workload := v }
  | .status | .doutLen | .cfg => s

/-- What the host reads of byte `k` of a buffer, as byte `i` of its access: `KEY` and `PW` read 0x00, an unwritten byte of
`IV` or `DIN` reads as any value (R23, R28, R46; log 5). -/
def State.hostByte (s : State) (b : Buffer) (k i : Nat) : Byte :=
  match b with
  | .key | .pw => 0
  | .iv | .din | .dout => (s.mem.get (b.base + k)).getD (Config.freeByte s.draws i)

/-- The bytes of a host read of `n` bytes of a buffer from byte `k`. -/
def State.hostBytes (s : State) (b : Buffer) (k n : Nat) : List Byte :=
  (List.range n).map fun i => s.hostByte b (k + i) i

/-- Whether a host read of a buffer takes a free value: a byte of `IV` or `DIN` among those read is unwritten. -/
def State.readDraws (s : State) (b : Buffer) (k n : Nat) : Bool :=
  match b with
  | .key | .pw => false
  | .iv | .din | .dout => (s.mem.getRange (b.base + k) n).isNone

/-- `MemRead(addr, n)` (R46). No read changes any state of the core (R51). -/
def hostRead (s : State) (addr n : Nat) : State :=
  match target s.params addr n with
  | none => s.refuseAccess
  | some t =>
    if s.busy ∧ t ≠ .reg .status then s.violateProtocol
    else match t with
      | .reg r => { s with response := .data (s.readReg r) }
      | .bytes b k =>
        { s with response := .data (laneWord (s.hostBytes b k n)),
                 draws := if s.readDraws b k n then s.draws + 1 else s.draws }

/-- `MemWrite(addr, n, v)` (R44). -/
def hostWrite (s : State) (addr n : Nat) (v : Word) : State :=
  match target s.params addr n with
  | none => s.refuseAccess
  | some t =>
    if t.readOnly then s.refuseAccess
    else if s.busy then s.violateProtocol
    else match t with
      | .reg r => { s.writeReg v r with response := .written }
      | .bytes b k => { s with mem := s.mem.setRange (b.base + k) (laneBytes n v), response := .written }

end Sys2Proof.Machine
end

