-- ==== Sys2Proof/Machine/BlockCore.lean ====
section
/-! DEFINITION. The block core: loading and storing a block, the four round transforms and their inverses, and the
forward and inverse cipher over a schedule (42_block_core.md R140 to R150). Every function is total (R154). -/

namespace Sys2Proof.Machine

/-- Column `c` of the State of a string is `in[4c..4c+4)` (R140). A byte beyond a short string loads as 0x00; no
command uses such a byte (log 16, DEDUCED). -/
def loadColumn (x : List Byte) (c : Nat) : Column :=
  ⟨x.getD (4 * c) 0, x.getD (4 * c + 1) 0, x.getD (4 * c + 2) 0, x.getD (4 * c + 3) 0⟩

/-- Loading a block column by column: `s[r][c] = in[r + 4c]` (R140). -/
def load (x : List Byte) : Block := ⟨loadColumn x 0, loadColumn x 1, loadColumn x 2, loadColumn x 3⟩

/-- Storing a block by the same layout: `out[r + 4c] = s[r][c]` (R141). -/
def store (s : Block) : List Byte := s.c0.toList ++ s.c1.toList ++ s.c2.toList ++ s.c3.toList

/-- `SubBytes` (R142). -/
def subBytes (s : Block) : Block := .ofFn fun r c => sbox (s.get r c)

/-- `InvSubBytes` (R143). -/
def invSubBytes (s : Block) : Block := .ofFn fun r c => invSbox (s.get r c)

/-- `ShiftRows`: row `r` rotated left by `r` positions (R144). -/
def shiftRows (s : Block) : Block := .ofFn fun r c => s.get r (c + r)

/-- `InvShiftRows`: row `r` rotated right by `r` positions (R145). -/
def invShiftRows (s : Block) : Block := .ofFn fun r c => s.get r (c - r)

/-- Each column multiplied by a 4×4 matrix over GF(2⁸) (R146, R147). -/
def mixWith (rows : List (List Byte)) (s : Block) : Block := .ofFn fun r c =>
  gmul (matrixEntry rows r 0) (s.get 0 c) ^^^ gmul (matrixEntry rows r 1) (s.get 1 c) ^^^
    gmul (matrixEntry rows r 2) (s.get 2 c) ^^^ gmul (matrixEntry rows r 3) (s.get 3 c)

/-- `MixColumns` (R146). -/
def mixColumns (s : Block) : Block := mixWith mixMatrix s

/-- `InvMixColumns` (R147). -/
def invMixColumns (s : Block) : Block := mixWith invMixMatrix s

/-- `AddRoundKey`: `s'[r][c] = s[r][c] XOR k[r + 4c]`, the round key being laid out as a block (R126, R148). -/
def addRoundKey (s k : Block) : Block := s.xor k

/-- A schedule: the round count `Nr` and the round keys, of which `RK[0..Nr]` are read (R20, R126, R155). -/
structure Schedule where
  nr : Nat
  rk : List Block
deriving DecidableEq, Repr

/-- `RK[r]`. -/
def Schedule.key (ks : Schedule) (r : Nat) : Block := ks.rk.getD r default

/-- An inner round of the forward cipher (R149). -/
def cipherRound (ks : Schedule) (s : Block) (r : Nat) : Block :=
  addRoundKey (mixColumns (shiftRows (subBytes s))) (ks.key r)

/-- `Cipher(in)`, the forward transform `E` on a loaded block (R149): the final round has no `MixColumns`. -/
def cipher (ks : Schedule) (x : Block) : Block :=
  let s := (List.range' 1 (ks.nr - 1)).foldl (cipherRound ks) (addRoundKey x (ks.key 0))
  addRoundKey (shiftRows (subBytes s)) (ks.key ks.nr)

/-- An inner round of the inverse cipher (R150): `AddRoundKey` comes before `InvMixColumns`. -/
def invCipherRound (ks : Schedule) (s : Block) (r : Nat) : Block :=
  invMixColumns (addRoundKey (invSubBytes (invShiftRows s)) (ks.key r))

/-- `InvCipher(in)`, the inverse transform `D` on a loaded block (R150): the inner rounds run from `Nr - 1` down to 1. -/
def invCipher (ks : Schedule) (x : Block) : Block :=
  let s := (List.range' 1 (ks.nr - 1)).reverse.foldl (invCipherRound ks) (addRoundKey x (ks.key ks.nr))
  addRoundKey (invSubBytes (invShiftRows s)) (ks.key 0)

end Sys2Proof.Machine
end

