-- ==== Sys2Proof/Machine/KeySchedule.lean ====
section
/-! DEFINITION. The key schedule: key sizes, word transforms, the expansion loop and the round keys
(41_key_schedule.md R120 to R126). -/

namespace Sys2Proof.Machine

/-- `(Nk, Nr)` by key length in bytes; no other length has one (R120). -/
def keySize (n : Nat) : Option (Nat × Nat) :=
  match n with
  | 16 => some (4, 10)
  | 24 => some (6, 12)
  | 32 => some (8, 14)
  | _ => none

/-- `RotWord([a0, a1, a2, a3]) = [a1, a2, a3, a0]` (R122). -/
def rotWord (w : Column) : Column := ⟨w.a1, w.a2, w.a3, w.a0⟩

/-- `SubWord`: the S-box on each byte (R123). -/
def subWord (w : Column) : Column := ⟨sbox w.a0, sbox w.a1, sbox w.a2, sbox w.a3⟩

/-- `Rcon[j] = [RCON[j], 00, 00, 00]` (R108, R124). -/
def rconWord (j : Nat) : Column := ⟨rcon j, 0, 0, 0⟩

/-- The word `temp` is changed to before it is XORed into `W[i-Nk]` (R125): the branches are tried in order. -/
def scheduleCore (nk i : Nat) (temp : Column) : Column :=
  if i % nk = 0 then (subWord (rotWord temp)).xor (rconWord (i / nk))
  else if 6 < nk ∧ i % nk = 4 then subWord temp
  else temp

/-- One turn of the expansion loop (R125). The words made so far stand newest first: `W[i-1]` is the head, `W[i-Nk]`
stands at `Nk - 1`. -/
def expandStep (nk : Nat) (ws : List Column) (i : Nat) : List Column :=
  (ws.getD (nk - 1) default).xor (scheduleCore nk i (ws.getD 0 default)) :: ws

/-- The key as `Nk` words in order (R121). -/
def keyWords (key : List Byte) (nk : Nat) : List Column := (List.range nk).map (loadColumn key)

/-- The `4·(Nr+1)` schedule words `W[0], W[1], ...` (R125). -/
def scheduleWords (key : List Byte) (nk nr : Nat) : List Column :=
  ((List.range' nk (4 * (nr + 1) - nk)).foldl (expandStep nk) (keyWords key nk).reverse).reverse

/-- Round key `r`: word `W[4r+c]` is column `c` (R126). -/
def roundKey (ws : List Column) (r : Nat) : Block :=
  ⟨ws.getD (4 * r) default, ws.getD (4 * r + 1) default, ws.getD (4 * r + 2) default, ws.getD (4 * r + 3) default⟩

/-- `KeyExpansion(key)` for given sizes: the `Nr + 1` round keys in order (R125, R126). -/
def expandKey (key : List Byte) (nk nr : Nat) : Schedule :=
  let ws := scheduleWords key nk nr
  ⟨nr, (List.range (nr + 1)).map (roundKey ws)⟩

end Sys2Proof.Machine
end

