-- ==== Sys2Proof/Machine/Operands.lean ====
section
/-! DEFINITION. How operands reach a command: `Operand(NAME, n)` (10_state.md R36; 30_encoding.md R73), the register
checks of 60_exceptions.md R231, the loaded schedule, and the random source (45_envelope.md R212). -/

namespace Sys2Proof.Machine

/-- `Operand(NAME, n) = BUF[NAME][0..n)`, none if one of those bytes has its written mark clear (R36). -/
def operand (s : State) (b : Buffer) (n : Nat) : Option (List Byte) := s.mem.getRange b.base n

/-- Reading an operand: the fault `UninitialisedOperand` is recorded if it cannot be read (R36). -/
def withOperand (s : State) (b : Buffer) (n : Nat) (body : List Byte → State) : State :=
  match operand s b n with
  | some x => body x
  | none => s.recordFault .uninitialisedOperand

/-- `KEY_VALID = 0` (R152, R180). -/
def noKeyCheck (s : State) : Check := (!s.keyValid, .noKey)

/-- `DIN_LEN ≠ 16` for a single-block command (R152, R153). -/
def oneBlockCheck (s : State) : Check := (decide (s.dinLen.toNat ≠ 16), .invalidBlockLength)

/-- `IV_LEN ≠ 16` (R180). -/
def ivLenCheck (s : State) : Check := (decide (s.ivLen.toNat ≠ 16), .invalidIVLength)

/-- `DIN_LEN % 16 ≠ 0` for CBC and PCBC decryption (R184, R186). -/
def alignedCheck (s : State) : Check := (decide (s.dinLen.toNat % 16 ≠ 0), .invalidBlockLength)

/-- `DIN_LEN > DIN_MAX` (R17, R230). -/
def dinCapacityCheck (s : State) : Check := (decide (s.params.dinMax < s.dinLen.toNat), .capacityExceeded)

/-- `DIN_LEN > DIN_MAX or PW_LEN > PW_MAX` (R214, R215). -/
def envelopeCapacityCheck (s : State) : Check :=
  (decide (s.params.dinMax < s.dinLen.toNat ∨ s.params.pwMax < s.pwLen.toNat), .capacityExceeded)

/-- `WORKLOAD = 0` (R19, R214, R215). -/
def workloadCheck (s : State) : Check := (decide (s.workload.toNat = 0), .invalidWorkloadFactor)

/-- `DIN_LEN < PREFIX_LEN` (R215). -/
def prefixCheck (s : State) : Check := (decide (s.dinLen.toNat < s.params.prefixLen), .truncatedEnvelope)

/-- Byte `k` of the next draw of the random source: a byte standing at its port, a free value where none stands
(R212; log 4). -/
def randomByte (s : State) (k : Nat) : Byte := (s.rngPort[k]?).getD (Config.freeByte s.draws k)

/-- `draw RNG(n)`: any `n` bytes (R8, R212; log 4). -/
def randomBytes (s : State) (n : Nat) : List Byte := (List.range n).map (randomByte s)

/-- The state after a draw of `n` bytes. -/
def State.drawn (s : State) (n : Nat) : State := { s with rngPort := s.rngPort.drop n, draws := s.draws + 1 }

end Sys2Proof.Machine
end

