-- ==== Sys2Proof/Machine/Padding.lean ====
section
/-! DEFINITION. PKCS#7-style padding with a block of 16 bytes (43_padding.md R170, R171). -/

namespace Sys2Proof.Machine

/-- The number of bytes `pad` appends: `16 - (len % 16)`, from 1 to 16 (R170). -/
def padCount (len : Nat) : Nat := 16 - len % 16

/-- `pad(data)` (R170). -/
def pkcsPad (x : List Byte) : List Byte := x ++ List.replicate (padCount x.length) (BitVec.ofNat 8 (padCount x.length))

/-- `unpad(d)`: every violation gives `InvalidPadding` (R171, R173). -/
def pkcsUnpad (d : List Byte) : Except ErrorCode (List Byte) :=
  match d.getLast? with
  | none => .error .invalidPadding
  | some last =>
    let b := last.toNat
    if b < 1 ∨ 16 < b then .error .invalidPadding
    else if d.length < b then .error .invalidPadding
    else if d.drop (d.length - b) ≠ List.replicate b last then .error .invalidPadding
    else .ok (d.take (d.length - b))

end Sys2Proof.Machine
end

