-- ==== Sys2Proof/Machine/Modes.lean ====
section
/-! DEFINITION. The mode-of-operation layer: the five chaining modes as folds over the blocks of a message, and the ten
commands that expose them (44_modes.md R180 to R192). -/

namespace Sys2Proof.Machine

/-- A block transform, `E` or `D` under a schedule (R9). -/
abbrev BlockFn := Block → Block

/-- At most `n` pieces of 16 bytes, the last of which may be shorter. -/
def splitBlocks : Nat → List Byte → List (List Byte)
  | 0, _ => []
  | n + 1, x => x.take 16 :: splitBlocks n (x.drop 16)

/-- `X[0], X[1], ..., X[n-1]` with `n = ceil(len/16)` (R180). -/
def blocksOf (x : List Byte) : List (List Byte) := splitBlocks ((x.length + 15) / 16) x

/-- `X XOR K` truncated to the bytes of `X` (R182). -/
def truncXor (x : List Byte) (k : Block) : List Byte := List.zipWith (· ^^^ ·) x (store k)

/-- `int_be` of a byte string (R7). -/
def intBE (x : List Byte) : Nat := x.foldl (fun n b => 256 * n + b.toNat) 0

/-- `be_16(n)`: the 16-byte big-endian representation of `n mod 2^128` (R7). -/
def bytesBE16 (n : Nat) : List Byte := (List.range 16).map fun k => BitVec.ofNat 8 (n / 256 ^ (15 - k))

/-- The counter block `ctr(IV, i)` (R181). -/
def counterBlock (endian : Endian) (iv : List Byte) (i : Nat) : List Byte :=
  match endian with
  | .big => bytesBE16 ((intBE iv + i) % 2 ^ 128)
  | .little => (bytesBE16 ((intBE iv.reverse + i) % 2 ^ 128)).reverse

/-- The CBC encryption loop: `C[i] = E(P[i] XOR C[i-1])`, `C[-1] = IV` (R183). -/
def cbcEncLoop (E : BlockFn) : Block → List (List Byte) → List Byte
  | _, [] => []
  | prev, p :: ps =>
    let c := E ((load p).xor prev)
    store c ++ cbcEncLoop E c ps

/-- The CBC decryption loop: `P[i] = D(C[i]) XOR C[i-1]` (R184). -/
def cbcDecLoop (D : BlockFn) : Block → List (List Byte) → List Byte
  | _, [] => []
  | prev, c :: cs => store ((D (load c)).xor prev) ++ cbcDecLoop D (load c) cs

/-- The PCBC encryption loop: as CBC, chaining `P[i] XOR C[i]` (R185). -/
def pcbcEncLoop (E : BlockFn) : Block → List (List Byte) → List Byte
  | _, [] => []
  | prev, p :: ps =>
    let c := E ((load p).xor prev)
    store c ++ pcbcEncLoop E ((load p).xor c) ps

/-- The PCBC decryption loop: `P[i] = D(C[i]) XOR prev`, then `prev = P[i] XOR C[i]` (R186). -/
def pcbcDecLoop (D : BlockFn) : Block → List (List Byte) → List Byte
  | _, [] => []
  | prev, c :: cs =>
    let p := (D (load c)).xor prev
    store p ++ pcbcDecLoop D (p.xor (load c)) cs

/-- The CFB encryption loop: `C[i] = P[i] XOR E(prev)`, `prev = C[i]` (R187). A short block is the last one, and is
never fed back. -/
def cfbEncLoop (E : BlockFn) : Block → List (List Byte) → List Byte
  | _, [] => []
  | prev, p :: ps =>
    let c := truncXor p (E prev)
    c ++ cfbEncLoop E (load c) ps

/-- The CFB decryption loop: `P[i] = C[i] XOR E(prev)`, `prev = C[i]`; the forward transform, never `D` (R188). -/
def cfbDecLoop (E : BlockFn) : Block → List (List Byte) → List Byte
  | _, [] => []
  | prev, c :: cs => truncXor c (E prev) ++ cfbDecLoop E (load c) cs

/-- The OFB loop: `keystream[i] = E(keystream[i-1])`, `keystream[-1] = IV`, the same for both directions (R189, R190). -/
def ofbLoop (E : BlockFn) : Block → List (List Byte) → List Byte
  | _, [] => []
  | ks, x :: xs => truncXor x (E ks) ++ ofbLoop E (E ks) xs

/-- The CTR loop from block index `i`: `keystream[i] = E(ctr(IV, i))`, the same for both directions (R191, R192). -/
def ctrLoop (E : BlockFn) (endian : Endian) (iv : List Byte) : Nat → List (List Byte) → List Byte
  | _, [] => []
  | i, x :: xs => truncXor x (E (load (counterBlock endian iv i))) ++ ctrLoop E endian iv (i + 1) xs

/-- CBC encryption of a message: padded, then chained (R183). -/
def cbcEncrypt (E : BlockFn) (iv m : List Byte) : List Byte := cbcEncLoop E (load iv) (blocksOf (pkcsPad m))

/-- CBC decryption of a ciphertext: unchained, then unpadded (R184). -/
def cbcDecrypt (D : BlockFn) (iv c : List Byte) : Except ErrorCode (List Byte) :=
  pkcsUnpad (cbcDecLoop D (load iv) (blocksOf c))

/-- PCBC encryption of a message (R185). -/
def pcbcEncrypt (E : BlockFn) (iv m : List Byte) : List Byte := pcbcEncLoop E (load iv) (blocksOf (pkcsPad m))

/-- PCBC decryption of a ciphertext (R186). -/
def pcbcDecrypt (D : BlockFn) (iv c : List Byte) : Except ErrorCode (List Byte) :=
  pkcsUnpad (pcbcDecLoop D (load iv) (blocksOf c))

/-- CFB encryption of a message (R187). -/
def cfbEncrypt (E : BlockFn) (iv m : List Byte) : List Byte := cfbEncLoop E (load iv) (blocksOf m)

/-- CFB decryption of a ciphertext (R188). -/
def cfbDecrypt (E : BlockFn) (iv c : List Byte) : List Byte := cfbDecLoop E (load iv) (blocksOf c)

/-- OFB, either direction (R189, R190). -/
def ofbCrypt (E : BlockFn) (iv x : List Byte) : List Byte := ofbLoop E (load iv) (blocksOf x)

/-- CTR, either direction (R191, R192). -/
def ctrCrypt (E : BlockFn) (endian : Endian) (iv x : List Byte) : List Byte := ctrLoop E endian iv 0 (blocksOf x)

/-- The schedule of the cipher instance (R20, R128). -/
def State.schedule (s : State) : Schedule := ⟨s.nr, s.rk.toList⟩

/-- The forward transform `E` under the loaded schedule (R9, R149). -/
def State.forward (s : State) : BlockFn := cipher s.schedule

/-- The inverse transform `D` under the loaded schedule (R9, R150). -/
def State.inverse (s : State) : BlockFn := invCipher s.schedule

/-- A mode command: the checks, then the IV and the whole message or ciphertext are read, then one pass from the IV
(R180). -/
def modeCommand (checks : List Check) (s : State) (mode : List Byte → List Byte → Except ErrorCode (List Byte)) : State :=
  afterChecks checks s <|
    withOperand s .iv 16 fun iv =>
      withOperand s .din s.dinLen.toNat fun x => s.finish (mode iv x)

/-- The checks of the eight mode commands that ask no alignment (R231). -/
def modeChecks (s : State) : List Check := [noKeyCheck s, ivLenCheck s, dinCapacityCheck s]

/-- The checks of `DEC_CBC` and `DEC_PCBC` (R231). -/
def alignedModeChecks (s : State) : List Check := [noKeyCheck s, ivLenCheck s, alignedCheck s, dinCapacityCheck s]

/-- `ENC_CBC` (R183). -/
def execEncCbc (s : State) : Result :=
  .next (modeCommand (modeChecks s) s fun iv m => .ok (cbcEncrypt s.forward iv m))

/-- `DEC_CBC` (R184). -/
def execDecCbc (s : State) : Result :=
  .next (modeCommand (alignedModeChecks s) s fun iv c => cbcDecrypt s.inverse iv c)

/-- `ENC_PCBC` (R185). -/
def execEncPcbc (s : State) : Result :=
  .next (modeCommand (modeChecks s) s fun iv m => .ok (pcbcEncrypt s.forward iv m))

/-- `DEC_PCBC` (R186). -/
def execDecPcbc (s : State) : Result :=
  .next (modeCommand (alignedModeChecks s) s fun iv c => pcbcDecrypt s.inverse iv c)

/-- `ENC_CFB` (R187). -/
def execEncCfb (s : State) : Result :=
  .next (modeCommand (modeChecks s) s fun iv m => .ok (cfbEncrypt s.forward iv m))

/-- `DEC_CFB` (R188). -/
def execDecCfb (s : State) : Result :=
  .next (modeCommand (modeChecks s) s fun iv c => .ok (cfbDecrypt s.forward iv c))

/-- `ENC_OFB` (R189). -/
def execEncOfb (s : State) : Result :=
  .next (modeCommand (modeChecks s) s fun iv m => .ok (ofbCrypt s.forward iv m))

/-- `DEC_OFB` (R190). -/
def execDecOfb (s : State) : Result :=
  .next (modeCommand (modeChecks s) s fun iv c => .ok (ofbCrypt s.forward iv c))

/-- `ENC_CTR` (R191). -/
def execEncCtr (s : State) : Result :=
  .next (modeCommand (modeChecks s) s fun iv m => .ok (ctrCrypt s.forward s.params.ctrEndian iv m))

/-- `DEC_CTR` (R192). -/
def execDecCtr (s : State) : Result :=
  .next (modeCommand (modeChecks s) s fun iv c => .ok (ctrCrypt s.forward s.params.ctrEndian iv c))

end Sys2Proof.Machine
end

