-- ==== Sys2Proof/Machine/BlockCommands.lean ====
section
/-! DEFINITION. The commands `ENC_BLK` and `DEC_BLK` (42_block_core.md R152, R153). -/

namespace Sys2Proof.Machine

/-- A single-block command: the checks, one block of `DIN`, one transform (R152, R153). -/
def blockCommand (s : State) (f : BlockFn) : State :=
  afterChecks [noKeyCheck s, oneBlockCheck s] s <|
    withOperand s .din 16 fun x => s.complete (store (f (load x)))

/-- `ENC_BLK` (R152). -/
def execEncBlk (s : State) : Result := .next (blockCommand s s.forward)

/-- `DEC_BLK` (R153). -/
def execDecBlk (s : State) : Result := .next (blockCommand s s.inverse)

end Sys2Proof.Machine
end

