-- ==== Sys2Proof/Machine/ExampleSuite.lean ====
section
/-! DEFINITION. The EXAMPLE instantiation of `KDF` and `MAC` (45_envelope.md R220), which is not normative: SHA-256 and
HMAC-SHA256, whose definitions the spec takes from general knowledge and does not give (93_implementation_defined.md
G13; log 3, PRESUMED). No law of the envelope rests on it. -/

namespace Sys2Proof.Machine

/-- The `n` words a number of `32·n` bits is made of, most significant first. -/
def wordsOf (n x : Nat) : List Word := (List.range n).map fun k => BitVec.ofNat 32 (x / 2 ^ (32 * (n - 1 - k)))

/-- The round constants of SHA-256, eight words to a row: the first 32 bits of the fractional parts of the cube roots of the
first 64 primes, which Tests/Slice0.lean checks them to be. -/
def shaRoundConstants : List Word :=
  [0x428a2f9871374491b5c0fbcfe9b5dba53956c25b59f111f1923f82a4ab1c5ed5,
    0xd807aa9812835b01243185be550c7dc372be5d7480deb1fe9bdc06a7c19bf174,
    0xe49b69c1efbe47860fc19dc6240ca1cc2de92c6f4a7484aa5cb0a9dc76f988da,
    0x983e5152a831c66db00327c8bf597fc7c6e00bf3d5a7914706ca635114292967,
    0x27b70a852e1b21384d2c6dfc53380d13650a7354766a0abb81c2c92e92722c85,
    0xa2bfe8a1a81a664bc24b8b70c76c51a3d192e819d6990624f40e3585106aa070,
    0x19a4c1161e376c082748774c34b0bcb5391c0cb34ed8aa4a5b9cca4f682e6ff3,
    0x748f82ee78a5636f84c878148cc7020890befffaa4506cebbef9a3f7c67178f2].flatMap (wordsOf 8)

/-- The eight working words of SHA-256. -/
structure ShaState where
  a : Word
  b : Word
  c : Word
  d : Word
  e : Word
  f : Word
  g : Word
  h : Word
deriving DecidableEq, Repr

/-- The initial hash value of SHA-256. -/
def shaInit : ShaState :=
  ⟨0x6a09e667, 0xbb67ae85, 0x3c6ef372, 0xa54ff53a, 0x510e527f, 0x9b05688c, 0x1f83d9ab, 0x5be0cd19⟩

/-- The XOR of a word rotated right by each of some distances. -/
def xorRotations (w : Word) (ns : List Nat) : Word := ns.foldl (fun x n => x ^^^ w.rotateRight n) 0

/-- The bits of `f` where `e` is 1 and of `g` where it is 0. -/
def choose (e f g : Word) : Word := g ^^^ (e &&& (f ^^^ g))

/-- The value two or three of the words have, bit by bit. -/
def majority (a b c : Word) : Word := (a &&& b) ||| (c &&& (a ||| b))

/-- One round of the compression function, with the round constant and the message word already added. -/
def shaRound (s : ShaState) (kw : Word) : ShaState :=
  let mixed := kw + s.h + xorRotations s.e [6, 11, 25] + choose s.e s.f s.g
  { a := mixed + xorRotations s.a [2, 13, 22] + majority s.a s.b s.c, b := s.a, c := s.b, d := s.c,
    e := mixed + s.d, f := s.e, g := s.f, h := s.g }

/-- Appending the next message-schedule word; the words made so far stand newest first. -/
def shaExtend (ws : List Word) : List Word :=
  let recent := ws.getD 1 0
  let old := ws.getD 14 0
  let next := (xorRotations recent [17, 19] ^^^ (recent >>> 10)) + ws.getD 6 0 +
    (xorRotations old [7, 18] ^^^ (old >>> 3)) + ws.getD 15 0
  next :: ws

/-- The big-endian word at position `i` of a 64-byte chunk. -/
def shaWord (chunk : List Byte) (i : Nat) : Word :=
  chunk.getD (4 * i) 0 ++ chunk.getD (4 * i + 1) 0 ++ chunk.getD (4 * i + 2) 0 ++ chunk.getD (4 * i + 3) 0

/-- The compression of one 64-byte chunk. -/
def shaChunk (s : ShaState) (chunk : List Byte) : ShaState :=
  let ws := ((List.range 48).foldl (fun ws _ => shaExtend ws) ((List.range 16).map (shaWord chunk)).reverse).reverse
  let t := (List.zipWith (· + ·) shaRoundConstants ws).foldl shaRound s
  ⟨s.a + t.a, s.b + t.b, s.c + t.c, s.d + t.d, s.e + t.e, s.f + t.f, s.g + t.g, s.h + t.h⟩

/-- The padding of SHA-256: a 1 bit, zeros, and the bit length in 8 bytes big-endian. -/
def shaPad (x : List Byte) : List Byte :=
  x ++ [0x80] ++ List.replicate ((119 - x.length % 64) % 64) 0 ++
    (List.range 8).map fun k => BitVec.ofNat 8 (8 * x.length / 256 ^ (7 - k))

/-- Compression of `n` chunks in order. -/
def shaChunks : Nat → ShaState → List Byte → ShaState
  | 0, s, _ => s
  | n + 1, s, x => shaChunks n (shaChunk s (x.take 64)) (x.drop 64)

/-- The four bytes of a word, most significant first. -/
def shaBytes (w : Word) : List Byte :=
  [w.extractLsb' 24 8, w.extractLsb' 16 8, w.extractLsb' 8 8, w.extractLsb' 0 8]

/-- SHA-256 of a byte string. -/
def sha256 (x : List Byte) : List Byte :=
  let p := shaPad x
  let s := shaChunks (p.length / 64) shaInit p
  shaBytes s.a ++ shaBytes s.b ++ shaBytes s.c ++ shaBytes s.d ++ shaBytes s.e ++ shaBytes s.f ++ shaBytes s.g ++
    shaBytes s.h

/-- The 64-byte block an HMAC key becomes: hashed if longer than 64 bytes, then filled with zeros. -/
def hmacKeyBlock (key : List Byte) : List Byte :=
  let k := if 64 < key.length then sha256 key else key
  k ++ List.replicate (64 - k.length) 0

/-- HMAC-SHA256. -/
def hmacSha256 (key x : List Byte) : List Byte :=
  let k := hmacKeyBlock key
  sha256 (k.map (· ^^^ 0x5c) ++ sha256 (k.map (· ^^^ 0x36) ++ x))

/-- `d <- x ; repeat w times: d <- SHA256(d)` (R220). -/
def exampleStretch (x : List Byte) : Nat → List Byte
  | 0 => x
  | w + 1 => sha256 (exampleStretch x w)

/-- `kA`, before it is cut to its length (R220). -/
def exampleKdfAes (x : List Byte) (w : Nat) : List Byte := sha256 (0x01 :: exampleStretch x w)

/-- `kM` (R220). -/
def exampleKdfMac (x : List Byte) (w : Nat) : List Byte := sha256 (0x02 :: exampleStretch x w)

end Sys2Proof.Machine
end

