-- ==== Sys2Proof/Machine/Envelope.lean ====
section
/-! DEFINITION. The authenticated envelope: key derivation, tag, wire layout, and the commands `ENV_ENC` and `ENV_DEC`
(45_envelope.md R210 to R219). -/

namespace Sys2Proof.Machine

/-- The first `n` bytes of a string, with zeros where it is shorter. -/
def fit (n : Nat) (x : List Byte) : List Byte := (List.range n).map fun k => x.getD k 0

/-- `kA`, the AES key the envelope derives: `ENV_KEY_LEN` bytes (R210; log 2). -/
def kdfAes (p : Params) (input : List Byte) (w : Nat) : List Byte :=
  match p.suite with
  | .deployed => (List.range p.envKeyLen).map (Config.kdfAesByte p.envKeyLen p.hmacKeyLen input w)
  | .exampleR220 => fit p.envKeyLen (exampleKdfAes input w)

/-- `kM`, the HMAC key the envelope derives: `HMAC_KEY_LEN` bytes (R210; log 2). -/
def kdfMac (p : Params) (input : List Byte) (w : Nat) : List Byte :=
  match p.suite with
  | .deployed => (List.range p.hmacKeyLen).map (Config.kdfMacByte p.envKeyLen p.hmacKeyLen input w)
  | .exampleR220 => fit p.hmacKeyLen (exampleKdfMac input w)

/-- `MAC(kM, x)`: `TAG_LEN` bytes (R211; log 2). -/
def macTag (p : Params) (key x : List Byte) : List Byte :=
  match p.suite with
  | .deployed => (List.range p.tagLen).map (Config.macByte p.tagLen key x)
  | .exampleR220 => fit p.tagLen (hmacSha256 key x)

/-- `KeyExpansion(kA)`: the private schedule of one envelope command, never stored (R218). -/
def privateSchedule (kA : List Byte) : Schedule :=
  match keySize kA.length with
  | some (nk, nr) => expandKey kA nk nr
  | none => ⟨0, []⟩

/-- The envelope of a message for given salt and IV: `salt ‖ IV ‖ tag ‖ ciphertext` (R213, R214). -/
def sealEnvelope (p : Params) (pw m salt iv : List Byte) (w : Nat) : List Byte :=
  let c := cbcEncrypt (cipher (privateSchedule (kdfAes p (pw ++ salt) w))) iv m
  salt ++ iv ++ macTag p (kdfMac p (pw ++ salt) w) (iv ++ c) ++ c

/-- What `ENV_DEC` does with an envelope of at least `PREFIX_LEN` bytes: the tag is verified before anything is decrypted
(R215, R216), by byte-string equality (R219). -/
def openEnvelope (p : Params) (pw env : List Byte) (w : Nat) : Except ErrorCode (List Byte) :=
  let salt := env.take 16
  let iv := (env.drop 16).take 16
  let tag := (env.drop 32).take p.tagLen
  let c := env.drop p.prefixLen
  if macTag p (kdfMac p (pw ++ salt) w) (iv ++ c) ≠ tag then .error .integrityError
  else if c.length % 16 ≠ 0 then .error .invalidBlockLength
  else cbcDecrypt (invCipher (privateSchedule (kdfAes p (pw ++ salt) w))) iv c

/-- An envelope command: the checks, then the password and the input are read (R214, R215). -/
def envelopeCommand (checks : List Check) (s : State) (body : List Byte → List Byte → State) : State :=
  afterChecks checks s <|
    withOperand s .pw s.pwLen.toNat fun pw => withOperand s .din s.dinLen.toNat fun x => body pw x

/-- `ENV_ENC` (R214): one draw of 32 bytes, salt first (R212). -/
def execEnvEnc (s : State) : Result :=
  .next (envelopeCommand [envelopeCapacityCheck s, workloadCheck s] s fun pw m =>
    let r := randomBytes s 32
    (s.drawn 32).complete (sealEnvelope s.params pw m (r.take 16) (r.drop 16) s.workload.toNat))

/-- `ENV_DEC` (R215). -/
def execEnvDec (s : State) : Result :=
  .next (envelopeCommand [envelopeCapacityCheck s, workloadCheck s, prefixCheck s] s fun pw env =>
    s.finish (openEnvelope s.params pw env s.workload.toNat))

end Sys2Proof.Machine
end

