-- ==== Sys2Proof/Machine/KeyCommand.lean ====
section
/-! DEFINITION. The `KEYEXP` command (41_key_schedule.md R127; 10_state.md R20). -/

namespace Sys2Proof.Machine

/-- A free value for a round-key entry beyond `RK[NR]`, which the spec leaves unspecified (R20; log 7). -/
def freeRoundKey (d r : Nat) : Block := load ((List.range 16).map fun j => Config.freeByte d (16 * r + j))

/-- The fifteen entries of the store after a `KEYEXP`: `RK[0..NR]` are the schedule, the others hold unspecified values
(R20, R127; log 7). -/
def storeSchedule (ks : Schedule) (d : Nat) : Vector Block 15 :=
  Vector.ofFn fun r => if r.val ≤ ks.nr then ks.key r.val else freeRoundKey d r.val

/-- Loading the cipher instance: all of it at once (R20). -/
def State.loadInstance (s : State) (key : List Byte) (nk nr : Nat) : State :=
  { s with rk := storeSchedule (expandKey key nk nr) s.draws, nk := nk, nr := nr, keyValid := true, draws := s.draws + 1 }

/-- `KEYEXP` (R127): the key length is checked before any key byte is read, and an error leaves the instance as it was. -/
def execKeyexp (s : State) : Result :=
  .next (match keySize s.keyLen.toNat with
    | none => s.raise .invalidKeyLength
    | some (nk, nr) => withOperand s .key s.keyLen.toNat fun key => (s.loadInstance key nk nr).complete [])

end Sys2Proof.Machine
end

