-- ==== Sys2Proof/Machine/PaddingCommands.lean ====
section
/-! DEFINITION. The commands `PAD` and `UNPAD` (43_padding.md R174, R175). No cipher instance is needed. -/

namespace Sys2Proof.Machine

/-- `PAD` (R174). -/
def execPad (s : State) : Result :=
  .next (afterChecks [dinCapacityCheck s] s <|
    withOperand s .din s.dinLen.toNat fun x => s.complete (pkcsPad x))

/-- `UNPAD` (R175). -/
def execUnpad (s : State) : Result :=
  .next (afterChecks [dinCapacityCheck s] s <|
    withOperand s .din s.dinLen.toNat fun x => s.finish (pkcsUnpad x))

end Sys2Proof.Machine
end

