-- ==== Sys2Proof/Machine/Dispatch.lean ====
section
/-! DEFINITION. The meaning of each command, one arm per constructor (10_state.md R32). -/

namespace Sys2Proof.Machine

def exec (i : Instr) (s : State) : Host.Outcome State Fault Refusal :=
  match i with
  | .keyexp => Sys2Proof.Machine.execKeyexp s
  | .encBlk => Sys2Proof.Machine.execEncBlk s
  | .decBlk => Sys2Proof.Machine.execDecBlk s
  | .encCbc => Sys2Proof.Machine.execEncCbc s
  | .decCbc => Sys2Proof.Machine.execDecCbc s
  | .encPcbc => Sys2Proof.Machine.execEncPcbc s
  | .decPcbc => Sys2Proof.Machine.execDecPcbc s
  | .encCfb => Sys2Proof.Machine.execEncCfb s
  | .decCfb => Sys2Proof.Machine.execDecCfb s
  | .encOfb => Sys2Proof.Machine.execEncOfb s
  | .decOfb => Sys2Proof.Machine.execDecOfb s
  | .encCtr => Sys2Proof.Machine.execEncCtr s
  | .decCtr => Sys2Proof.Machine.execDecCtr s
  | .pad => Sys2Proof.Machine.execPad s
  | .unpad => Sys2Proof.Machine.execUnpad s
  | .envEnc => Sys2Proof.Machine.execEnvEnc s
  | .envDec => Sys2Proof.Machine.execEnvDec s

end Sys2Proof.Machine
end

