-- ==== Sys2Proof/Machine/Execute.lean ====
section
/-! DEFINITION. The core's turn and the environment's events: `Execute(CMD)` (10_state.md R30, R32), host accesses and
reset (log 8). -/

namespace Sys2Proof.Machine

/-- `Execute(v)`: a legal encoding runs its command, an illegal one ends with `IllegalCommand` (R32, R71, R74). -/
def executeWord (v : Word) (s : State) : Result :=
  match decode v with
  | .ok i => exec i s
  | .error _ => .next (s.raise .illegalCommand)

/-- The core's turn: a started command runs whole, in one atomic step; an idle core holds its state (R30, R243),
and so does a core whose reset is held: it performs no command (R260). -/
def coreTurn (s : State) : Result := if s.busy && !s.resetHeld then executeWord s.cmd s else .next s

/-- One event of the environment's schedule (log 8). While reset is held no host access is answered (R260). -/
def runEvent (s : State) : BusEvent → Result
  | .read addr n => .next (if s.resetHeld then s.unanswered else hostRead s addr n)
  | .write addr n v => .next (if s.resetHeld then s.unanswered else hostWrite s addr n v)
  | .assertReset => .next s.assertReset
  | .releaseReset => .next s.releaseReset
  | .core => coreTurn s

/-- The next event, or the core's turn where the schedule is empty: every started command completes (R269; log 8). -/
def runNext (s : State) : Result :=
  match s.bus with
  | [] => coreTurn s
  | e :: rest => runEvent { s with bus := rest } e

/-- The state whose next step is the core's turn with a given command word: what a host write of the word to `CMD` leaves,
with no fault recorded, reset not held and nothing before the core's turn (R30; log 14). -/
def State.started (s : State) (v : Word) : State := { s.start v with bus := [], fault := none, resetHeld := false }

end Sys2Proof.Machine
end

