-- ==== Sys2Proof/Machine/Step.lean ====
section
/-! DEFINITION. One step of the machine: a recorded fault is stuck (60_exceptions.md R236), else the next event of the
schedule runs, or the core's turn (10_state.md R30). -/

namespace Sys2Proof.Machine

/-- One step (R30, R236; logs 8, 10). -/
def step (s : State) : Host.Outcome State Fault Refusal :=
  match s.fault with
  | some f => .fault f
  | none => runNext s

/-- The state in which `step` runs the command word with the given bits next (R30; log 14). The core fetches nothing
(R11): the word stands in `CMD` with `BUSY = 1`, as a host write to `CMD` leaves it. -/
def State.withFetchWord (s : State) (nbits w : Nat) : State := s.started (BitVec.ofNat 32 (w % 2 ^ nbits))

end Sys2Proof.Machine
end

