-- ==== Sys2Proof/Machine/HostProgram.lean ====
section
/-! DEFINITION. The host programs of 30_encoding.md R76 and R77: the host's operations, its temporaries and control flow,
and the expansion of the pseudo-instructions. The host is not part of the hardware (00_scope.md R6, R9), so it is a layer
over the machine's `step` and no field of State (log 20). -/

namespace Sys2Proof.Machine

/-- A host operation (R76): offsets are window offsets, a branch target is an index into the program. -/
inductive HostOp where
  /-- `WR32 off, imm32`. -/
  | wr32 (off : Nat) (imm : Word)
  /-- `WR8 off, imm8`. -/
  | wr8 (off : Nat) (imm : Byte)
  /-- `RD32 tN, off`. -/
  | rd32 (t : Fin 4) (off : Nat)
  /-- `RD8 tN, off`. -/
  | rd8 (t : Fin 4) (off : Nat)
  /-- `BTST tN, bit, label`. -/
  | btst (t : Fin 4) (bit : Nat) (label : Nat)
  /-- `HALT`. -/
  | halt
deriving DecidableEq, Repr

/-- A host and its core: the program, the host's program counter and temporaries `t0` to `t3`, and the core's state. -/
structure HostRun where
  program : List HostOp
  pc : Nat
  temps : Vector Word 4
  halted : Bool
  core : State
deriving DecidableEq, Repr

/-- Where a program starts: its first operation, temporaries 0 (log 20, DESIGN CHOICE), a given core. -/
def HostRun.start (program : List HostOp) (core : State) : HostRun :=
  { program := program, pc := 0, temps := Vector.replicate 4 0, halted := false, core := core }

/-- The value of the last read response, 0 where there was none (log 20). -/
def State.readData (s : State) : Word :=
  match s.response with
  | .data v => v
  | .idle | .written | .busError => 0

/-- Performing one access as the next event of the core, by the core's own step. -/
def HostRun.access (h : HostRun) (e : BusEvent) (after : State → HostRun) : Host.Outcome HostRun Fault Refusal :=
  match step { h.core with bus := e :: h.core.bus } with
  | .next c => .next (after c)
  | .fault f => .fault f
  | .refused r => .refused r

/-- The host after an access, with one temporary written or none. -/
def HostRun.advance (h : HostRun) (t : Option (Fin 4)) (c : State) : HostRun :=
  { h with pc := h.pc + 1, core := c, temps := match t with
      | some t => h.temps.set t.val c.readData t.isLt
      | none => h.temps }

/-- One host operation (R76). A program that runs off its end halts, and the operations that make no access (`BTST`, `HALT`,
running off the end) still run after an access has recorded a fault, whose record stops the host's next access: what a host
does then is the platform's (R45; log 20, DESIGN CHOICE). -/
def HostRun.hostTurn (h : HostRun) : Host.Outcome HostRun Fault Refusal :=
  let base := h.core.params.coreBase
  match h.program[h.pc]? with
  | none => .next { h with halted := true }
  | some (.wr32 off imm) => h.access (.write (base + off) 4 imm) (h.advance none)
  | some (.wr8 off imm) => h.access (.write (base + off) 1 (imm.setWidth 32)) (h.advance none)
  | some (.rd32 t off) => h.access (.read (base + off) 4) (h.advance (some t))
  | some (.rd8 t off) => h.access (.read (base + off) 1) (h.advance (some t))
  | some (.btst t bit label) => .next { h with pc := if h.temps[t].getLsbD bit then label else h.pc + 1 }
  | some .halt => .next { h with halted := true }

/-- The core's turn beside the host: one step of the core with no access pending. -/
def HostRun.coreTurn (h : HostRun) : Host.Outcome HostRun Fault Refusal :=
  h.access .core fun c => { h with core := c }

/-- One step of host and core, by whose turn it is; a halted host does nothing more. -/
def HostRun.step (h : HostRun) (hostMoves : Bool) : Host.Outcome HostRun Fault Refusal :=
  if hostMoves ∧ h.halted = false then h.hostTurn else h.coreTurn

/-- `LOAD` of the bytes of a string at `off`: four at a time with `WR32` in lane order, the rest with `WR8` (R77). The
first argument bounds the number of operations. -/
def loadBytes : Nat → Nat → List Byte → List HostOp
  | 0, _, _ => []
  | _, _, [] => []
  | n + 1, off, a :: b :: c :: d :: rest => .wr32 off (d ++ c ++ b ++ a) :: loadBytes n (off + 4) rest
  | n + 1, off, a :: rest => .wr8 off a :: loadBytes n (off + 1) rest

/-- `<mnemonic>`: the command word written to `CMD` (R77). -/
def issue (i : Instr) : List HostOp := [.wr32 0x000 (encode i)]

/-- `WAIT`: poll `STATUS` until `BUSY = 0`; the loop's own index is the label (R77). -/
def waitAt (label : Nat) : List HostOp := [.rd32 0 0x004, .btst 0 0 label]

/-- `RUN <mnemonic>` placed at index `at` of a program (R77). -/
def runAt (start : Nat) (i : Instr) : List HostOp := issue i ++ waitAt (start + 1)

/-- `LOAD KEY, <hex>` (R77). -/
def loadKey (x : List Byte) : List HostOp := loadBytes x.length Buffer.key.base x ++ [.wr32 0x008 (BitVec.ofNat 32 x.length)]

/-- `LOAD IV, <hex>` (R77). -/
def loadIv (x : List Byte) : List HostOp := loadBytes x.length Buffer.iv.base x ++ [.wr32 0x00C (BitVec.ofNat 32 x.length)]

/-- `LOAD DIN, <hex>` (R77). -/
def loadDin (x : List Byte) : List HostOp := loadBytes x.length Buffer.din.base x ++ [.wr32 0x010 (BitVec.ofNat 32 x.length)]

/-- `LOAD PW, <hex>` (R77). -/
def loadPw (x : List Byte) : List HostOp := loadBytes x.length Buffer.pw.base x ++ [.wr32 0x014 (BitVec.ofNat 32 x.length)]

/-- `SETW <n>` (R77). -/
def setW (n : Word) : List HostOp := [.wr32 0x018 n]

/-- `SETLEN <reg>, <n>`, a length register by its offset (R77). -/
def setLen (off : Nat) (n : Word) : List HostOp := [.wr32 off n]

end Sys2Proof.Machine
end

