-- ==== Sys2Proof/Safety.lean ====
section
/-! DEFINITION. What counts as a safe run and as a legal state, in the terms the claims use: the legal value
combinations the spec states for the registers, the cipher instance and the buffers (10_state.md R14, R20 to R24,
R28; 60_exceptions.md R230, R236). Then the vocabulary of the claims: how a command ends, what it leaves alone, and the
spec's loops written by index, apart from the folds the model computes with. -/

namespace Sys2Proof.Machine

/-- A fault-free state: "a property of the core is stated for fault-free runs" (R236). -/
def State.FaultFree (s : State) : Prop := s.fault = none

/-- The error codes a command can report: every other value is reserved and never reported (R230). -/
def legalErrorCodes : List Byte := [0x00, 0x01, 0x02, 0x03, 0x04, 0x05, 0x06, 0x10, 0x11, 0x12, 0x13]

/-- The legal value combinations of `STATUS` (R14) and the codes it can report (R230). -/
def State.StatusLegal (s : State) : Prop :=
  (s.busy = true → s.done = false ∧ s.err = false ∧ s.errcode = 0) ∧ (s.err = true ↔ s.errcode ≠ 0) ∧
    s.errcode ∈ legalErrorCodes

/-- The cipher instance: no schedule with `NK = NR = 0`, or a schedule of one of the three sizes (R20, R22, R35, R120). -/
def State.InstanceLegal (s : State) : Prop :=
  (s.keyValid = false ∧ s.nk = 0 ∧ s.nr = 0) ∨
    (s.keyValid = true ∧ ((s.nk = 4 ∧ s.nr = 10) ∨ (s.nk = 6 ∧ s.nr = 12) ∨ (s.nk = 8 ∧ s.nr = 14)))

/-- The byte storage keeps its canonical form (log 21). -/
def State.MemoryLegal (s : State) : Prop := s.mem.wf

/-- Every stored byte lies in a buffer of the address map (R40). -/
def State.InWindow (s : State) : Prop := ∀ c ∈ s.mem, ∃ b : Buffer, b.base ≤ c.1 ∧ c.1 < b.base + b.size s.params

/-- The output: `DOUT_LEN` never exceeds `DOUT_MAX`, and every byte of `DOUT` from `DOUT_LEN` on reads 0x00 (R21, R24). -/
def State.OutputLegal (s : State) : Prop :=
  s.doutLen.toNat ≤ s.params.doutMax ∧ ∀ k, s.doutLen.toNat ≤ k → s.mem.get (Buffer.dout.base + k) = some 0

/-- A legal state of a machine with legal parameters. -/
def State.Legal (s : State) : Prop :=
  s.params.wf = true ∧ s.StatusLegal ∧ s.InstanceLegal ∧ s.MemoryLegal ∧ s.InWindow ∧ s.OutputLegal

/-- A safe run of `n` steps: it ends in a next state, no fault met on the way (R236). -/
def SafeRun (n : Nat) (s t : State) : Prop := Sys2Proof.core.run n s = .next t ∧ t.FaultFree

end Sys2Proof.Machine

namespace Sys2Proof.Claims

open Sys2Proof.Machine

/-! How a command ends, and what it leaves alone. -/

/-- `CMD`, the length registers, `WORKLOAD`, the input buffers with their written marks, the recorded fault and the reset
input are as before (R23, R33, R232); so are the parameters, the environment's schedule and the last answer of the bus (the model's
own fields). -/
structure HostStateKept (s t : State) : Prop where
  params : t.params = s.params
  cmd : t.cmd = s.cmd
  keyLen : t.keyLen = s.keyLen
  ivLen : t.ivLen = s.ivLen
  dinLen : t.dinLen = s.dinLen
  pwLen : t.pwLen = s.pwLen
  workload : t.workload = s.workload
  fault : t.fault = s.fault
  resetHeld : t.resetHeld = s.resetHeld
  bus : t.bus = s.bus
  response : t.response = s.response
  inputs : ∀ a, a < Buffer.dout.base → t.mem.get a = s.mem.get a

/-- The cipher instance is exactly as before: `RK`, `NK`, `NR`, `KEY_VALID` (R20, R232). -/
structure InstanceKept (s t : State) : Prop where
  keyValid : t.keyValid = s.keyValid
  nk : t.nk = s.nk
  nr : t.nr = s.nr
  rk : t.rk = s.rk

/-- Nothing was drawn: the random source's port and the count of free values are as before (the model's own fields). -/
structure SourceKept (s t : State) : Prop where
  rngPort : t.rngPort = s.rngPort
  draws : t.draws = s.draws

/-- `STATUS` after a success (R31): `BUSY = 0`, `DONE = 1`, `ERR = 0`, `ERRCODE = 0x00`. -/
structure Succeeded (t : State) : Prop where
  busy : t.busy = false
  done : t.done = true
  err : t.err = false
  errcode : t.errcode = 0x00

/-- `STATUS` after an error with a code (R232): `BUSY = 0`, `DONE = 1`, `ERR = 1`, `ERRCODE = code`. -/
structure Failed (t : State) (code : Byte) : Prop where
  busy : t.busy = false
  done : t.done = true
  err : t.err = true
  errcode : t.errcode = code

/-- The output is a string: `DOUT_LEN` is its length, `DOUT` holds its bytes and 0x00 beyond them (R24, R31). -/
structure Output (t : State) (out : List Byte) : Prop where
  length : t.doutLen.toNat = out.length
  bytes : ∀ k, t.mem.get (Buffer.dout.base + k) = some (out.getD k 0)

/-- A command that ended with `Complete(out)` and wrote nothing else (R31, R33). -/
structure Completes (s t : State) (out : List Byte) : Prop where
  host : HostStateKept s t
  cipherInstance : InstanceKept s t
  source : SourceKept s t
  status : Succeeded t
  output : Output t out

/-- A command that ended with `raise E(code)` and wrote nothing else (R232). -/
structure Fails (s t : State) (code : Byte) : Prop where
  host : HostStateKept s t
  cipherInstance : InstanceKept s t
  source : SourceKept s t
  status : Failed t code
  output : Output t []

/-- A result that is the successful end of a command from `s`, with an output string. -/
def CompletesWith (r : Result) (s : State) (out : List Byte) : Prop := ∃ t, r = .next t ∧ Completes s t out

/-- A result that is the end of a command from `s` with an error code. -/
def FailsWith (r : Result) (s : State) (code : Byte) : Prop := ∃ t, r = .next t ∧ Fails s t code

/-! When operands are ready. -/

/-- A buffer holds a string from its byte 0 on, every byte of it written (R28, R36). -/
def Holds (s : State) (b : Buffer) (x : List Byte) : Prop :=
  ∀ k, k < x.length → s.mem.get (b.base + k) = some (x.getD k 0)

/-- `DIN_LEN` bytes of `DIN` are written, they are `x`, and they fit in the buffer (R17, R36). -/
structure InputReady (s : State) (x : List Byte) : Prop where
  params : s.params.wf = true
  length : s.dinLen.toNat = x.length
  fits : x.length ≤ s.params.dinMax
  bytes : Holds s .din x

/-- What a mode command needs: a cipher instance, a written 16-byte IV, a written input (R180, R263). -/
structure ModeReady (s : State) (iv x : List Byte) : Prop where
  keyValid : s.keyValid = true
  ivLen : s.ivLen.toNat = 16
  iv : iv.length = 16 ∧ Holds s .iv iv
  input : InputReady s x

/-- What an envelope command needs: a written password, a written input, a workload factor (R214, R215, R263). -/
structure EnvelopeReady (s : State) (pw x : List Byte) : Prop where
  workload : s.workload.toNat ≠ 0
  pwLen : s.pwLen.toNat = pw.length
  pwFits : pw.length ≤ s.params.pwMax
  pw : Holds s .pw pw
  input : InputReady s x

/-! The spec's loops, by index. -/

/-- Block `i` of a string: `x[16i .. min(16i+16, len(x)))` (R180). -/
def chunk (x : List Byte) (i : Nat) : List Byte := (x.drop (16 * i)).take 16

/-- The first `n` blocks of a sequence, stored one after another. -/
def joined (n : Nat) (C : Nat → Block) : List Byte := (List.range n).flatMap fun i => store (C i)

/-- `data ‖ [b, ..., b]` with `b` bytes of value `b` (R170). -/
def appended (x : List Byte) (b : Nat) : List Byte := x ++ List.replicate b (BitVec.ofNat 8 b)

/-- `pad(data)` (R170). -/
def padded (x : List Byte) : List Byte := appended x (16 - x.length % 16)

/-- `RK[0..Nr]` are the round keys of `KeyExpansion(key)`: the loop of R125 over words `W[i]` (R121), assembled by R126. Byte by
byte: `RotWord` takes bytes 1, 2, 3, 0 (R122), `SubWord` the S-box of each (R123), `Rcon` its byte 0 (R124). -/
def ExpandsTo (key : List Byte) (nk nr : Nat) (RK : Nat → Block) : Prop :=
  ∃ W : Nat → Column,
    (∀ i, i < nk →
      W i = ⟨key.getD (4 * i) 0, key.getD (4 * i + 1) 0, key.getD (4 * i + 2) 0, key.getD (4 * i + 3) 0⟩) ∧
    (∀ i, nk ≤ i → i < 4 * (nr + 1) →
      let old := W (i - nk)
      let temp := W (i - 1)
      W i =
        if i % nk = 0 then
          ⟨old.a0 ^^^ sbox temp.a1 ^^^ rcon (i / nk), old.a1 ^^^ sbox temp.a2, old.a2 ^^^ sbox temp.a3, old.a3 ^^^ sbox temp.a0⟩
        else if 6 < nk ∧ i % nk = 4 then
          ⟨old.a0 ^^^ sbox temp.a0, old.a1 ^^^ sbox temp.a1, old.a2 ^^^ sbox temp.a2, old.a3 ^^^ sbox temp.a3⟩
        else ⟨old.a0 ^^^ temp.a0, old.a1 ^^^ temp.a1, old.a2 ^^^ temp.a2, old.a3 ^^^ temp.a3⟩) ∧
    ∀ r, r ≤ nr → RK r = ⟨W (4 * r), W (4 * r + 1), W (4 * r + 2), W (4 * r + 3)⟩

/-- The key sizes: length in bytes, `Nk`, `Nr` (R120). -/
def keySizes : List (Nat × Nat × Nat) := [(16, 4, 10), (24, 6, 12), (32, 8, 14)]

/-- The private schedule of an envelope command: the round keys of `KeyExpansion(kA)` (R214, R215, R218). -/
def PrivateSchedule (kA : List Byte) (ks : Schedule) : Prop :=
  ∃ nk RK, (kA.length, nk, ks.nr) ∈ keySizes ∧ ExpandsTo kA nk ks.nr RK ∧ ks.rk = (List.range (ks.nr + 1)).map RK

/-- `C[i] = E(P[i] XOR C[i-1])`, `C[-1] = IV` (R183). -/
def CbcChain (E : BlockFn) (iv : Block) (P C : Nat → Block) : Prop :=
  C 0 = E ((P 0).xor iv) ∧ ∀ i, C (i + 1) = E ((P (i + 1)).xor (C i))

/-- `P[i] = D(C[i]) XOR C[i-1]`, `C[-1] = IV` (R184). -/
def CbcUnchain (D : BlockFn) (iv : Block) (C P : Nat → Block) : Prop :=
  P 0 = (D (C 0)).xor iv ∧ ∀ i, P (i + 1) = (D (C (i + 1))).xor (C i)

/-- `C[i] = E(P[i] XOR prev)`, `prev = P[i] XOR C[i]`, starting from the IV (R185). -/
def PcbcChain (E : BlockFn) (iv : Block) (P C : Nat → Block) : Prop :=
  C 0 = E ((P 0).xor iv) ∧ ∀ i, C (i + 1) = E ((P (i + 1)).xor ((P i).xor (C i)))

/-- `P[i] = D(C[i]) XOR prev`, `prev = P[i] XOR C[i]`, starting from the IV (R186). -/
def PcbcUnchain (D : BlockFn) (iv : Block) (C P : Nat → Block) : Prop :=
  P 0 = (D (C 0)).xor iv ∧ ∀ i, P (i + 1) = (D (C (i + 1))).xor ((P i).xor (C i))

/-- `out` is `x` XORed with the keystream blocks `K`, the last block truncated to the remaining bytes (R182). -/
def Keystreamed (x : List Byte) (K : Nat → Block) (out : List Byte) : Prop :=
  out.length = x.length ∧
    ∀ k, k < x.length → out.getD k 0 = x.getD k 0 ^^^ (store (K (k / 16))).getD (k % 16) 0

/-- The keystream of CFB: `E(prev)`, `prev` the IV and then each ciphertext block (R187, R188). -/
def CfbKeystream (E : BlockFn) (iv : Block) (c : List Byte) (K : Nat → Block) : Prop :=
  K 0 = E iv ∧ ∀ i, K (i + 1) = E (load (chunk c i))

/-- The keystream of OFB: `keystream[i] = E(keystream[i-1])`, `keystream[-1] = IV` (R189, R190). -/
def OfbKeystream (E : BlockFn) (iv : Block) (K : Nat → Block) : Prop := K 0 = E iv ∧ ∀ i, K (i + 1) = E (K i)

/-- How a command ends that unpads a string `d`: with the string its padding leaves, or with `InvalidPadding` when no
padding of 1 to 16 bytes ends it (R171). -/
def EndsByUnpadding (r : Result) (s : State) (d : List Byte) : Prop :=
  (∀ x b, 1 ≤ b → b ≤ 16 → d = appended x b → CompletesWith r s x) ∧
    ((∀ x b, 1 ≤ b → b ≤ 16 → d ≠ appended x b) → FailsWith r s 0x04)

/-! The tables of the spec that name, for each command, its checks and its operands. -/

/-- The commands that use the cipher instance and the IV (R180). -/
def modeCommands : List Instr :=
  [.encCbc, .decCbc, .encPcbc, .decPcbc, .encCfb, .decCfb, .encOfb, .decOfb, .encCtr, .decCtr]

/-- The commands that need a cipher instance (R262). -/
def keyedCommands : List Instr := .encBlk :: .decBlk :: modeCommands

/-- The checks a command makes before it reads an operand byte all pass (R231). -/
def RegisterChecksPass (i : Instr) (s : State) : Prop :=
  match i with
  | .keyexp => s.keyLen.toNat = 16 ∨ s.keyLen.toNat = 24 ∨ s.keyLen.toNat = 32
  | .encBlk | .decBlk => s.keyValid = true ∧ s.dinLen.toNat = 16
  | .encCbc | .encPcbc | .encCfb | .decCfb | .encOfb | .decOfb | .encCtr | .decCtr =>
    s.keyValid = true ∧ s.ivLen.toNat = 16 ∧ s.dinLen.toNat ≤ s.params.dinMax
  | .decCbc | .decPcbc =>
    s.keyValid = true ∧ s.ivLen.toNat = 16 ∧ s.dinLen.toNat % 16 = 0 ∧ s.dinLen.toNat ≤ s.params.dinMax
  | .pad | .unpad => s.dinLen.toNat ≤ s.params.dinMax
  | .envEnc =>
    s.dinLen.toNat ≤ s.params.dinMax ∧ s.pwLen.toNat ≤ s.params.pwMax ∧ s.workload.toNat ≠ 0
  | .envDec =>
    s.dinLen.toNat ≤ s.params.dinMax ∧ s.pwLen.toNat ≤ s.params.pwMax ∧ s.workload.toNat ≠ 0 ∧
      s.params.prefixLen ≤ s.dinLen.toNat

/-- The byte string operands of a command: buffers and lengths (R73). -/
def operandsOf (i : Instr) (s : State) : List (Buffer × Nat) :=
  match i with
  | .keyexp => [(.key, s.keyLen.toNat)]
  | .encBlk | .decBlk => [(.din, 16)]
  | .encCbc | .decCbc | .encPcbc | .decPcbc | .encCfb | .decCfb | .encOfb | .decOfb | .encCtr | .decCtr =>
    [(.iv, 16), (.din, s.dinLen.toNat)]
  | .pad | .unpad => [(.din, s.dinLen.toNat)]
  | .envEnc | .envDec => [(.pw, s.pwLen.toNat), (.din, s.dinLen.toNat)]

/-- Round key `r` of the cipher instance (R20). -/
def roundKeyOf (s : State) (r : Nat) : Block := s.rk.toList.getD r default

/-- Two states have the same schedule loaded, as far as commands read it (R20, R128). -/
def SameSchedule (s s' : State) : Prop :=
  s'.keyValid = s.keyValid ∧ s'.nr = s.nr ∧ ∀ r, r ≤ s.nr → roundKeyOf s' r = roundKeyOf s r

/-- Two states agree on everything a command reads (R73): its registers, its operand bytes and their marks, the schedule
if it uses one, and for `ENV_ENC` the bytes of the random source. -/
def ReadsAgree (i : Instr) (s s' : State) : Prop :=
  s'.params = s.params ∧
  (∀ p ∈ operandsOf i s, ∀ k, k < p.2 → s'.mem.get (p.1.base + k) = s.mem.get (p.1.base + k)) ∧
  match i with
  | .keyexp => s'.keyLen = s.keyLen
  | .encBlk | .decBlk => SameSchedule s s' ∧ s'.dinLen = s.dinLen
  | .encCbc | .decCbc | .encPcbc | .decPcbc | .encCfb | .decCfb | .encOfb | .decOfb | .encCtr | .decCtr =>
    SameSchedule s s' ∧ s'.ivLen = s.ivLen ∧ s'.dinLen = s.dinLen
  | .pad | .unpad => s'.dinLen = s.dinLen
  | .envEnc =>
    s'.dinLen = s.dinLen ∧ s'.pwLen = s.pwLen ∧ s'.workload = s.workload ∧ randomBytes s' 32 = randomBytes s 32
  | .envDec => s'.dinLen = s.dinLen ∧ s'.pwLen = s.pwLen ∧ s'.workload = s.workload

/-- A legal access (R40, R42): a whole control register, one byte of a buffer, or four aligned bytes inside one buffer. -/
def LegalAccess (p : Params) (off n : Nat) : Prop :=
  (n = 4 ∧ off % 4 = 0 ∧ off < 0x24) ∨
    ∃ b : Buffer, b.base ≤ off ∧ (n = 1 ∨ (n = 4 ∧ off % 4 = 0)) ∧ off + n ≤ b.base + b.size p

/-- A place the host may not write: `STATUS`, `DOUT_LEN`, `CFG`, `DOUT` (R12, R24, R45). -/
def ReadOnlyAt (p : Params) (off : Nat) : Prop :=
  off = 0x004 ∨ off = 0x01C ∨ off = 0x020 ∨ (0x20000 ≤ off ∧ off < 0x20000 + p.doutMax)

/-- The state before a host access with the access taken off the schedule (the model's own field). -/
def popped (s : State) (rest : List BusEvent) : State := { s with bus := rest }

end Sys2Proof.Claims
end

