-- ==== Sys2Proof/Certificates/Slice0/Obligations.lean ====
section
/-! DEFINITION. The statements for the provers, from the numbered rules of spec/. Their vocabulary stands in
Sys2Proof/Safety.lean. -/

section Statements

open Sys2Proof Sys2Proof.Machine Sys2Proof.Claims

/-! Encoding and decoding (30_encoding.md). -/

/-- Every well-formed command decodes from its own word (R70, R71, R72). -/
def Obligations.DecodeInvertsEncode : Prop :=
  ∀ i : Instr, i.wf = true → decode (encode i) = .ok i ∧ decodeTableWord 32 (encode i).toNat = some i

/-- The legal command words are exactly the seventeen rows of R72, for all 2^32 words. -/
def Obligations.LegalWordsAreTheTable : Prop :=
  ∀ (v : Word) (i : Instr), decode v = .ok i ↔ (v, i) ∈
    [(0x00000001#32, Instr.keyexp), (0x00000010#32, .encBlk), (0x00000018#32, .decBlk), (0x00000011#32, .encCbc),
     (0x00000019#32, .decCbc), (0x00000012#32, .encPcbc), (0x0000001A#32, .decPcbc), (0x00000013#32, .encCfb),
     (0x0000001B#32, .decCfb), (0x00000014#32, .encOfb), (0x0000001C#32, .decOfb), (0x00000015#32, .encCtr),
     (0x0000001D#32, .decCtr), (0x00000020#32, .pad), (0x00000028#32, .unpad), (0x00000030#32, .envEnc),
     (0x00000038#32, .envDec)]

/-- A word is illegal exactly when its fields are as R74 lists, and then it ends with `IllegalCommand` and changes nothing
else: the cipher instance stays (R32, R74, R232). -/
def Obligations.IllegalWordsFail : Prop :=
  (∀ v : Word, (∃ e, decode v = .error e) ↔
    (v.toNat / 256 ≠ 0 ∨ (v.toNat / 16 % 16 = 0 ∧ v.toNat % 16 ≠ 1) ∨ (v.toNat / 16 % 16 = 1 ∧ 6 ≤ v.toNat % 8) ∨
      ((v.toNat / 16 % 16 = 2 ∨ v.toNat / 16 % 16 = 3) ∧ v.toNat % 8 ≠ 0) ∨ 4 ≤ v.toNat / 16 % 16)) ∧
    ∀ (v : Word) (s : State), (∃ e, decode v = .error e) → FailsWith (executeWord v s) s 0x10

/-- One word of each group, and words that differ from it in one field, decode as R71 says. -/
def Obligations.SampleWordsDecode : Prop :=
  decode 0x00000001#32 = .ok .keyexp ∧ decode 0x00000019#32 = .ok .decCbc ∧ decode 0x00000015#32 = .ok .encCtr ∧
    decode 0x00000028#32 = .ok .unpad ∧ decode 0x00000030#32 = .ok .envEnc ∧
    decode 0x00000000#32 = .error .reservedKeyCommand ∧ decode 0x00000016#32 = .error .reservedMode ∧
    decode 0x00000101#32 = .error .reservedBits

/-! The step (10_state.md R30, R32; 60_exceptions.md R236). -/

/-- A STEP RUNS THE DECODED COMMAND: the core's turn while `BUSY = 1` is `exec` of the command in `CMD`, the event taken
off the schedule (log 8); an idle core holds its state (R243); a core whose reset is held performs no command (R260), and that
its whole state then stands is the model's (log 9); `withFetchWord` sets up exactly such a step (log 14). -/
def Obligations.StepRunsTheDecodedCommand : Prop :=
  (∀ (s : State) (i : Instr), s.fault = none → s.resetHeld = false → s.busy = true → decode s.cmd = .ok i →
    (s.bus = [] → step s = exec i s) ∧ ∀ rest, s.bus = .core :: rest → step s = exec i (popped s rest)) ∧
  (∀ (s : State) (e : DecodeError), s.fault = none → s.resetHeld = false → s.busy = true → decode s.cmd = .error e →
    (s.bus = [] → step s = executeWord s.cmd s) ∧
      ∀ rest, s.bus = .core :: rest → step s = executeWord s.cmd (popped s rest)) ∧
  (∀ s : State, s.fault = none → s.busy = false ∨ s.resetHeld = true →
    (s.bus = [] → step s = .next s) ∧ ∀ rest, s.bus = .core :: rest → step s = .next (popped s rest)) ∧
  ∀ (s : State) (i : Instr),
    step (s.withFetchWord 32 (encode i).toNat) = exec i (s.withFetchWord 32 (encode i).toNat)

/-- A recorded fault is stuck: every run answers it for ever, and reset does not clear it (R236, R261). That the step that
meets a fault records it and a later step answers it is the model's (log 10). -/
def Obligations.RecordedFaultIsStuck : Prop :=
  ∀ (s : State) (f : Fault), s.fault = some f →
    (∀ n, Sys2Proof.core.run (n + 1) s = .fault f) ∧ s.resetInput.fault = some f

/-- Every step of a fault-free state answers a next state, and no step is ever refused: every command has a meaning
(R30, R32). That the step that meets a fault records it in a next state is the model's (log 10), and so is that the turn of an
idle core, and an empty schedule, is a step that answers a next state (log 8). -/
def Obligations.FaultFreeStepsAnswer : Prop :=
  (∀ s : State, s.FaultFree → ∃ t, step s = .next t) ∧ ∀ (s : State) (r : Refusal), step s ≠ .refused r

/-! The registers and the invariants (10_state.md). -/

/-- `STATUS` and `CFG` are their fields at the places R14 and R22 give, reserved bits 0. -/
def Obligations.StatusAndCfgWords : Prop :=
  ∀ s : State,
    (statusWord s).toNat = s.busy.toNat + 2 * s.done.toNat + 4 * s.err.toNat + 8 * s.keyValid.toNat +
      256 * s.errcode.toNat ∧
    (cfgWord s).toNat = s.nk % 256 + 256 * (s.nr % 256)

/-- Every step keeps the legal value combinations of `STATUS` (R14), and no reserved error code is ever reported (R230). -/
def Obligations.StepKeepsStatusLegal : Prop :=
  ∀ s t : State, s.StatusLegal → step s = .next t → t.StatusLegal

/-- Every step keeps the byte storage in canonical form (the model's own form: log 21). -/
def Obligations.StepKeepsMemoryCanonical : Prop :=
  ∀ s t : State, s.MemoryLegal → step s = .next t → t.MemoryLegal

/-- Every step keeps a legal state legal, with the same parameters: the flags (R14), the cipher instance (R20, R22), the
storage, its place in the address map (R40), and the output, of at most `DOUT_MAX` bytes with 0x00 beyond `DOUT_LEN`
(R21, R24). -/
def Obligations.StepKeepsLegal : Prop :=
  ∀ s t : State, s.Legal → step s = .next t → t.Legal ∧ t.params = s.params

/-- The state after reset is legal and fault-free, for all legal parameters (R5, R261); the values log 1 and log 6 choose
are the model's. -/
def Obligations.ResetIsLegal : Prop :=
  (∀ p : Params, p.wf = true → (State.resetWith p).Legal ∧ (State.resetWith p).FaultFree) ∧
    State.reset = State.resetWith Params.default ∧ Params.default.wf = true

/-- Only a successful `KEYEXP` or a reset changes the cipher instance (R20, R128): any step that changes it is the core's
turn with `KEYEXP` in `CMD` and a legal `KEY_LEN`, reset not held, or a reset, which clears it (R261). That a reset clears
it at the release of a held input alone, an assertion or a release without one leaving it, is the model's (log 9). -/
def Obligations.OnlyKeyexpOrResetChangesTheInstance : Prop :=
  ∀ s t : State, step s = .next t →
    InstanceKept s t ∨
    (s.resetHeld = false ∧ s.busy = true ∧ decode s.cmd = .ok .keyexp ∧
      (∃ nk nr, (s.keyLen.toNat, nk, nr) ∈ keySizes ∧ t.nk = nk ∧ t.nr = nr) ∧
      t.keyValid = true ∧ Succeeded t) ∨
    (s.bus.head? = some .releaseReset ∧ s.resetHeld = true ∧ t.keyValid = false ∧ t.nk = 0 ∧ t.nr = 0)

/-- A written mark is set by a host write to that byte, cleared by reset, and never cleared otherwise (R28). That a reset clears
it at the release of a held input alone, an assertion or a release without one leaving it, is the model's (log 9). -/
def Obligations.WrittenMarksChangeByWritesAndReset : Prop :=
  ∀ (s t : State) (a : Nat), s.MemoryLegal → a < Buffer.dout.base → step s = .next t →
    (s.mem.get a ≠ none → s.bus.head? ≠ some .releaseReset ∨ s.resetHeld = false → t.mem.get a ≠ none) ∧
    (s.mem.get a = none → t.mem.get a ≠ none → ∃ addr n v, s.bus.head? = some (.write addr n v) ∧
      s.resetHeld = false ∧ s.busy = false ∧ addr ≤ s.params.coreBase + a ∧ s.params.coreBase + a < addr + n) ∧
    (s.bus.head? = some .releaseReset → s.resetHeld = true → t.mem.get a = none)

/-- Reset (R260, R261): asserting it only holds the core; while it is held no command runs and no host access is answered or has
an effect; its release leaves every register 0, no cipher instance, every written mark clear and `DOUT` all zero, also when a
command was in flight, and the recorded fault stays. That the parameters and the schedule stay, that the state stands until the
release, and that a release without an assertion does nothing, is the model's (log 9). -/
def Obligations.ResetClearsTheCore : Prop :=
  (∀ (s : State) (rest : List BusEvent), s.FaultFree → s.resetHeld = true → s.bus = .releaseReset :: rest →
    ∃ t, step s = .next t ∧ t.resetHeld = false ∧
    t.cmd = 0 ∧ t.keyLen = 0 ∧ t.ivLen = 0 ∧ t.dinLen = 0 ∧ t.pwLen = 0 ∧ t.workload = 0 ∧ t.doutLen = 0 ∧
    t.busy = false ∧ t.done = false ∧ t.err = false ∧ t.errcode = 0 ∧ t.keyValid = false ∧ t.nk = 0 ∧ t.nr = 0 ∧
    statusWord t = 0 ∧ cfgWord t = 0 ∧
    (∀ a, a < Buffer.dout.base → t.mem.get a = none) ∧ (∀ k, t.mem.get (Buffer.dout.base + k) = some 0) ∧
    t.params = s.params ∧ t.bus = rest) ∧
  (∀ (s : State) (rest : List BusEvent), s.FaultFree →
    (s.bus = .assertReset :: rest → step s = .next { popped s rest with resetHeld := true }) ∧
    (s.bus = .releaseReset :: rest → s.resetHeld = false → step s = .next (popped s rest))) ∧
  (∀ (s : State) (rest : List BusEvent), s.FaultFree → s.resetHeld = true →
    (∀ addr n, s.bus = .read addr n :: rest → step s = .next { popped s rest with response := .idle }) ∧
    (∀ addr n v, s.bus = .write addr n v :: rest → step s = .next { popped s rest with response := .idle }) ∧
    (s.bus = .core :: rest → step s = .next (popped s rest)) ∧ (s.bus = [] → step s = .next s)) ∧
  ∀ s : State, s.resetInput.fault = s.fault ∧ s.assertReset.fault = s.fault ∧ s.releaseReset.fault = s.fault

/-! Host accesses (20_memory.md). -/

/-- A host write to `CMD` while idle stores the word, legal or not, and starts its command; nothing else changes but the
bus's answer (R13, R30 step 1). -/
def Obligations.CmdWriteStartsACommand : Prop :=
  ∀ (s : State) (rest : List BusEvent) (v : Word), s.FaultFree → s.resetHeld = false → s.busy = false →
    s.bus = .write s.params.coreBase 4 v :: rest →
    step s = .next { popped s rest with
      cmd := v, busy := true, done := false, err := false, errcode := 0x00, response := .written }

/-- A host write to a length register or `WORKLOAD` while idle stores all 32 bits and nothing else (R15 to R19, R44). -/
def Obligations.RegisterWritesStore : Prop :=
  ∀ (s : State) (rest : List BusEvent) (v : Word), s.FaultFree → s.resetHeld = false → s.busy = false →
    (s.bus = .write (s.params.coreBase + 0x008) 4 v :: rest →
      step s = .next { popped s rest with keyLen := v, response := .written }) ∧
    (s.bus = .write (s.params.coreBase + 0x00C) 4 v :: rest →
      step s = .next { popped s rest with ivLen := v, response := .written }) ∧
    (s.bus = .write (s.params.coreBase + 0x010) 4 v :: rest →
      step s = .next { popped s rest with dinLen := v, response := .written }) ∧
    (s.bus = .write (s.params.coreBase + 0x014) 4 v :: rest →
      step s = .next { popped s rest with pwLen := v, response := .written }) ∧
    (s.bus = .write (s.params.coreBase + 0x018) 4 v :: rest →
      step s = .next { popped s rest with workload := v, response := .written })

/-- A host write to an input buffer while idle stores byte `i` of the value, bits `[8i+7:8i]`, at offset `a + i`, which sets
its mark, and changes no other byte and nothing else but the bus's answer (R28, R43, R44). -/
def Obligations.BufferWritesStoreLanes : Prop :=
  ∀ (s : State) (rest : List BusEvent) (b : Buffer) (k n : Nat) (v : Word), s.FaultFree → s.resetHeld = false → s.busy = false →
    s.params.wf = true → s.MemoryLegal → b ≠ .dout → (n = 1 ∨ (n = 4 ∧ k % 4 = 0)) → k + n ≤ b.size s.params →
    s.bus = .write (s.params.coreBase + (b.base + k)) n v :: rest →
    ∃ t, step s = .next t ∧
      (∀ i, i < n → t.mem.get (b.base + k + i) = some (v.extractLsb' (8 * i) 8)) ∧
      (∀ a, a < b.base + k ∨ b.base + k + n ≤ a → t.mem.get a = s.mem.get a) ∧
      t = { popped s rest with mem := t.mem, response := .written }

/-- A host read of a buffer while idle returns its bytes, byte `i` in bits `[8i+7:8i]`: 0x00 for `KEY` and `PW`, the stored
byte for `IV`, `DIN` and `DOUT` where there is one (R43, R46). That the bits above the byte of an 8-bit read are 0 is the model's
(log 15). -/
def Obligations.BufferReadsGiveLanes : Prop :=
  ∀ (s : State) (rest : List BusEvent) (b : Buffer) (k n : Nat), s.FaultFree → s.resetHeld = false → s.busy = false →
    s.params.wf = true → (n = 1 ∨ (n = 4 ∧ k % 4 = 0)) → k + n ≤ b.size s.params →
    s.bus = .read (s.params.coreBase + (b.base + k)) n :: rest →
    ∃ t v, step s = .next t ∧ t.fault = none ∧ t.response = .data v ∧ v.toNat < 256 ^ n ∧
      ∀ i, i < n →
        (b = .key ∨ b = .pw → v.extractLsb' (8 * i) 8 = 0x00) ∧
        (b ≠ .key → b ≠ .pw → ∀ y, s.mem.get (b.base + k + i) = some y → v.extractLsb' (8 * i) 8 = y)

/-- A host read of a control register returns its value, `STATUS` at any time and the others while idle, and changes nothing
(R46, R51). -/
def Obligations.RegisterReadsGiveValues : Prop :=
  ∀ (s : State) (rest : List BusEvent) (off : Nat) (v : Word), s.FaultFree →
    s.resetHeld = false →
    (off, v) ∈ [(0x000, s.cmd), (0x004, statusWord s), (0x008, s.keyLen), (0x00C, s.ivLen), (0x010, s.dinLen),
      (0x014, s.pwLen), (0x018, s.workload), (0x01C, s.doutLen), (0x020, cfgWord s)] →
    s.busy = false ∨ off = 0x004 →
    s.bus = .read (s.params.coreBase + off) 4 :: rest →
    step s = .next { popped s rest with response := .data v }

/-- A 32-bit read of four bytes written by four 8-bit writes returns them in lane order, and the converse; an 8-bit access to
a control register is a bus error (R49). That the bits above the byte of an 8-bit read are 0 is the model's (log 15), and so is
that a refused access is a bus error also while a command runs (log 11). -/
def Obligations.MixedWidthViewsAgree : Prop :=
  (∀ (s : State) (b : Buffer) (k : Nat) (y0 y1 y2 y3 : Word), s.FaultFree → s.resetHeld = false → s.busy = false → s.params.wf = true →
    s.MemoryLegal → b = .iv ∨ b = .din → k % 4 = 0 → k + 4 ≤ b.size s.params →
    let a := s.params.coreBase + (b.base + k)
    s.bus = [.write a 1 y0, .write (a + 1) 1 y1, .write (a + 2) 1 y2, .write (a + 3) 1 y3, .read a 4] →
    ∃ t, Sys2Proof.core.run 5 s = .next t ∧ t.fault = none ∧
      t.response = .data (y3.extractLsb' 0 8 ++ y2.extractLsb' 0 8 ++ y1.extractLsb' 0 8 ++ y0.extractLsb' 0 8)) ∧
  (∀ (s : State) (b : Buffer) (k i : Nat) (v : Word), s.FaultFree → s.resetHeld = false → s.busy = false → s.params.wf = true →
    s.MemoryLegal → b = .iv ∨ b = .din → k % 4 = 0 → k + 4 ≤ b.size s.params → i < 4 →
    let a := s.params.coreBase + (b.base + k)
    s.bus = [.write a 4 v, .read (a + i) 1] →
    ∃ t, Sys2Proof.core.run 2 s = .next t ∧ t.fault = none ∧
      t.response = .data ((v.extractLsb' (8 * i) 8).setWidth 32)) ∧
  ∀ (s : State) (rest : List BusEvent) (off : Nat) (v : Word), s.FaultFree → s.resetHeld = false → off < 0x24 →
    s.bus = .read (s.params.coreBase + off) 1 :: rest ∨ s.bus = .write (s.params.coreBase + off) 1 v :: rest →
    step s = .next { popped s rest with fault := some .busError, response := .busError }

/-- The refused accesses (R40, R42, R45): an access that is not legal, or a write to a read-only place, gets a bus error
response with no data, records `BusError`, and changes no other state, busy or not (the order of the two checks is the
model's: log 11); no other access is refused. -/
def Obligations.RefusedAccessesAreBusErrors : Prop :=
  ∀ (s : State) (rest : List BusEvent) (addr n : Nat) (v : Word), s.FaultFree → s.resetHeld = false →
    s.params.wf = true →
    (s.bus = .read addr n :: rest →
      ((¬ ∃ off, addr = s.params.coreBase + off ∧ LegalAccess s.params off n) →
        step s = .next { popped s rest with fault := some .busError, response := .busError }) ∧
      ((∃ off, addr = s.params.coreBase + off ∧ LegalAccess s.params off n) →
        ∃ t, step s = .next t ∧ t.fault ≠ some .busError ∧ t.response ≠ .busError)) ∧
    (s.bus = .write addr n v :: rest →
      ((¬ ∃ off, addr = s.params.coreBase + off ∧ LegalAccess s.params off n ∧ ¬ ReadOnlyAt s.params off) →
        step s = .next { popped s rest with fault := some .busError, response := .busError }) ∧
      ((∃ off, addr = s.params.coreBase + off ∧ LegalAccess s.params off n ∧ ¬ ReadOnlyAt s.params off) →
        ∃ t, step s = .next t ∧ t.fault ≠ some .busError ∧ t.response ≠ .busError))

/-- While `BUSY = 1` the host may read `STATUS` and nothing else: any other access the bus would accept records
`HostProtocolViolation` and has no other effect (R30, R44, R46, R264). That the bus's answer then holds nothing is the
model's (log 12). -/
def Obligations.BusyAccessesViolateTheProtocol : Prop :=
  ∀ (s : State) (rest : List BusEvent) (off n : Nat) (v : Word), s.FaultFree → s.resetHeld = false →
    s.params.wf = true → s.busy = true → LegalAccess s.params off n →
    (s.bus = .read (s.params.coreBase + off) n :: rest → off ≠ 0x004 →
      step s = .next { popped s rest with fault := some .hostProtocolViolation, response := .idle }) ∧
    (s.bus = .read (s.params.coreBase + off) n :: rest → off = 0x004 →
      step s = .next { popped s rest with response := .data (statusWord s) }) ∧
    (s.bus = .write (s.params.coreBase + off) n v :: rest → ¬ ReadOnlyAt s.params off →
      step s = .next { popped s rest with fault := some .hostProtocolViolation, response := .idle })

/-- No read has a side effect, and a read that takes no free value can be repeated with the same answer; a write elsewhere
than to `CMD` can be repeated with no further change (R51). -/
def Obligations.AccessesAreIdempotent : Prop :=
  (∀ (s t : State) (rest : List BusEvent) (addr n : Nat), s.bus = .read addr n :: rest → step s = .next t →
    t.fault = none →
    (∃ r d, t = { popped s rest with response := r, draws := d }) ∧
      (t.draws = s.draws → step { t with bus := s.bus } = .next t)) ∧
  ∀ (s t : State) (rest : List BusEvent) (addr n : Nat) (v : Word), s.params.wf = true → s.MemoryLegal →
    s.bus = .write addr n v :: rest → step s = .next t → t.fault = none → addr ≠ s.params.coreBase →
    step { t with bus := s.bus } = .next t

/-- What a host reads does not depend on the key, the password or the round keys: `KEY` and `PW` are write only and `RK` has
no host access (R20, R23, R46, R242). -/
def Obligations.HostReadsHideSecrets : Prop :=
  ∀ (s : State) (rest : List BusEvent) (addr n : Nat) (rk : Vector Block 15) (m : Memory), s.FaultFree →
    s.params.wf = true → s.bus = .read addr n :: rest →
    (∀ a, ¬ (0x100 ≤ a ∧ a < 0x120) → ¬ (0x1000 ≤ a ∧ a < 0x1000 + s.params.pwMax) → m.get a = s.mem.get a) →
    ∃ t t', step s = .next t ∧ step { s with rk := rk, mem := m } = .next t' ∧
      t'.response = t.response ∧ t'.fault = t.fault ∧ t'.draws = t.draws

/-! `KEYEXP` and the block commands (41_key_schedule.md, 42_block_core.md). -/

/-- `KEYEXP` loads the schedule of the key's bytes, for each of the three key lengths, and completes with an empty output;
any other `KEY_LEN` ends with `InvalidKeyLength` and leaves the instance as it was (R120 to R127). -/
def Obligations.KeyexpLoadsTheSchedule : Prop :=
  (∀ (s : State) (key : List Byte) (nk nr : Nat), (key.length, nk, nr) ∈ keySizes → s.keyLen.toNat = key.length →
    Holds s .key key →
    ∃ t RK, exec .keyexp s = .next t ∧ ExpandsTo key nk nr RK ∧ (∀ r, r ≤ nr → roundKeyOf t r = RK r) ∧
      t.nk = nk ∧ t.nr = nr ∧ t.keyValid = true ∧ HostStateKept s t ∧ Succeeded t ∧ Output t [] ∧
      t.rngPort = s.rngPort) ∧
  ∀ s : State, s.keyLen.toNat ≠ 16 → s.keyLen.toNat ≠ 24 → s.keyLen.toNat ≠ 32 →
    FailsWith (exec .keyexp s) s 0x01

/-- `ENC_BLK` runs the rounds of R149 over the loaded schedule: `S r` is the State after round `r`, and the last round has no
`MixColumns` (R149, R152). -/
def Obligations.EncBlkRunsTheRounds : Prop :=
  ∀ (s : State) (p : List Byte), s.InstanceLegal → s.keyValid = true → s.dinLen.toNat = 16 → p.length = 16 →
    Holds s .din p →
    ∃ S : Nat → Block, S 0 = addRoundKey (load p) (roundKeyOf s 0) ∧
      (∀ r, 1 ≤ r → r < s.nr →
        S r = addRoundKey (mixColumns (shiftRows (subBytes (S (r - 1))))) (roundKeyOf s r)) ∧
      CompletesWith (exec .encBlk s) s
        (store (addRoundKey (shiftRows (subBytes (S (s.nr - 1)))) (roundKeyOf s s.nr)))

/-- `DEC_BLK` runs the rounds of R150 from `RK[Nr]` down to `RK[0]`, `AddRoundKey` before `InvMixColumns` (R150, R153). -/
def Obligations.DecBlkRunsTheInverseRounds : Prop :=
  ∀ (s : State) (c : List Byte), s.InstanceLegal → s.keyValid = true → s.dinLen.toNat = 16 → c.length = 16 →
    Holds s .din c →
    ∃ S : Nat → Block, S s.nr = addRoundKey (load c) (roundKeyOf s s.nr) ∧
      (∀ r, 1 ≤ r → r < s.nr →
        S r = invMixColumns (addRoundKey (invSubBytes (invShiftRows (S (r + 1)))) (roundKeyOf s r))) ∧
      CompletesWith (exec .decBlk s) s (store (addRoundKey (invSubBytes (invShiftRows (S 1))) (roundKeyOf s 0)))

/-- The checks of the two block commands, in order: `NoKey`, then `InvalidBlockLength` (R152, R153, R231). -/
def Obligations.BlockCommandChecks : Prop :=
  ∀ (i : Instr) (s : State), i = .encBlk ∨ i = .decBlk →
    (s.keyValid = false → FailsWith (exec i s) s 0x11) ∧
    (s.keyValid = true → s.dinLen.toNat ≠ 16 → FailsWith (exec i s) s 0x02)

/-- The transforms of a round, entry by entry: loading and storing column by column, the S-box on each byte, row `r` rotated
by `r`, the two column matrices, and the round key XORed in (R140 to R148), as chaining values are (R7). That a string shorter
than a block loads with 0x00 in the missing bytes is the model's (log 16). -/
def Obligations.RoundTransformsByEntry : Prop :=
  (∀ (x : List Byte) (r c : Fin 4), (load x).get r c = x.getD (r.val + 4 * c.val) 0) ∧
  (∀ (s : Block) (r c : Fin 4), (store s).length = 16 ∧ (store s).getD (r.val + 4 * c.val) 0 = s.get r c) ∧
  (∀ (s k : Block) (r c : Fin 4),
    (subBytes s).get r c = sbox (s.get r c) ∧ (invSubBytes s).get r c = invSbox (s.get r c) ∧
    (∀ c' : Fin 4, c'.val = (c.val + r.val) % 4 →
      (shiftRows s).get r c = s.get r c' ∧ (invShiftRows s).get r c' = s.get r c) ∧
    (addRoundKey s k).get r c = s.get r c ^^^ k.get r c ∧ (s.xor k).get r c = s.get r c ^^^ k.get r c) ∧
  (∀ (s : Block) (c : Fin 4),
    let a0 := s.get 0 c; let a1 := s.get 1 c; let a2 := s.get 2 c; let a3 := s.get 3 c
    (mixColumns s).get 0 c = xtime a0 ^^^ (xtime a1 ^^^ a1) ^^^ a2 ^^^ a3 ∧
    (mixColumns s).get 1 c = a0 ^^^ xtime a1 ^^^ (xtime a2 ^^^ a2) ^^^ a3 ∧
    (mixColumns s).get 2 c = a0 ^^^ a1 ^^^ xtime a2 ^^^ (xtime a3 ^^^ a3) ∧
    (mixColumns s).get 3 c = (xtime a0 ^^^ a0) ^^^ a1 ^^^ a2 ^^^ xtime a3 ∧
    (invMixColumns s).get 0 c = gmul 0x0e a0 ^^^ gmul 0x0b a1 ^^^ gmul 0x0d a2 ^^^ gmul 0x09 a3 ∧
    (invMixColumns s).get 1 c = gmul 0x09 a0 ^^^ gmul 0x0e a1 ^^^ gmul 0x0b a2 ^^^ gmul 0x0d a3 ∧
    (invMixColumns s).get 2 c = gmul 0x0d a0 ^^^ gmul 0x09 a1 ^^^ gmul 0x0e a2 ^^^ gmul 0x0b a3 ∧
    (invMixColumns s).get 3 c = gmul 0x0b a0 ^^^ gmul 0x0d a1 ^^^ gmul 0x09 a2 ^^^ gmul 0x0e a3) ∧
  ∀ s : Block, invMixColumns (mixColumns s) = s

/-- Multiplication by `x` reduces modulo 0x11B (R102); field multiplication by 0x02 is that, and it is commutative and
associative, distributes over XOR, has identity 0x01 and absorbing element 0x00, which fixes every product (R103); every
nonzero byte has exactly one inverse, `ginv` (R104). -/
def Obligations.FieldLaws : Prop :=
  (∀ a : Byte, gmul a 0x02 = xtime a ∧
    (xtime a).toNat = if a.toNat < 128 then 2 * a.toNat else (2 * a.toNat) ^^^ 0x11B) ∧
  (∀ a b c : Byte, gmul a b = gmul b a ∧ gmul (gmul a b) c = gmul a (gmul b c) ∧
    gmul a (b ^^^ c) = gmul a b ^^^ gmul a c ∧ gmul a 0x01 = a ∧ gmul a 0x00 = 0x00) ∧
  gmul 0x57 0x83 = 0xC1 ∧ gmul 0x57 0x13 = 0xFE ∧
  (∀ a b : Byte, a ≠ 0x00 → (gmul a b = 0x01 ↔ b = ginv a)) ∧ ginv 0x00 = 0x00 ∧ ginv 0x53 = 0xCA

/-- The tables are what their algebra says: `SBOX[a] = affine(ginv(a))` for the affine map of R105, `INV_SBOX` its inverse
permutation, and `RCON[j]` the powers of `x` (R105 to R108). -/
def Obligations.TablesMatchTheirAlgebra : Prop :=
  (∀ (a : Byte) (i : Fin 8), (affine a).getLsbD i.val =
    (a.getLsbD i.val ^^ a.getLsbD (i + 4).val ^^ a.getLsbD (i + 5).val ^^ a.getLsbD (i + 6).val ^^ a.getLsbD (i + 7).val ^^
      (0x63#8).getLsbD i.val)) ∧
  (∀ a : Byte, sbox a = affine (ginv a) ∧ invSbox (sbox a) = a ∧ sbox (invSbox a) = a ∧ sbox a ≠ a ∧
    sbox a ≠ a ^^^ 0xFF) ∧
  rcon 1 = 0x01 ∧ ∀ j, 2 ≤ j → j ≤ 10 → rcon j = xtime (rcon (j - 1))

/-- The inverse law: under the same schedule, whatever its round keys, `InvCipher` undoes `Cipher` and `Cipher` undoes
`InvCipher` on every block (R151). -/
def Obligations.InverseCipherUndoesCipher : Prop :=
  ∀ (ks : Schedule) (x : Block), invCipher ks (cipher ks x) = x ∧ cipher ks (invCipher ks x) = x

/-! The mode commands (44_modes.md). -/

/-- `ENC_CBC` pads the message and chains each block with the previous ciphertext block (R183). -/
def Obligations.EncCbcChains : Prop :=
  ∀ (s : State) (iv m : List Byte), ModeReady s iv m →
    ∃ C, CbcChain s.forward (load iv) (fun i => load (chunk (padded m) i)) C ∧
      CompletesWith (exec .encCbc s) s (joined (m.length / 16 + 1) C)

/-- `DEC_CBC` unchains a whole number of blocks and unpads the result (R184). -/
def Obligations.DecCbcUnchains : Prop :=
  ∀ (s : State) (iv c : List Byte), ModeReady s iv c → c.length % 16 = 0 →
    ∃ P, CbcUnchain s.inverse (load iv) (fun i => load (chunk c i)) P ∧
      EndsByUnpadding (exec .decCbc s) s (joined (c.length / 16) P)

/-- `ENC_PCBC` pads the message and chains each block with the XOR of the previous plaintext and ciphertext blocks (R185). -/
def Obligations.EncPcbcChains : Prop :=
  ∀ (s : State) (iv m : List Byte), ModeReady s iv m →
    ∃ C, PcbcChain s.forward (load iv) (fun i => load (chunk (padded m) i)) C ∧
      CompletesWith (exec .encPcbc s) s (joined (m.length / 16 + 1) C)

/-- `DEC_PCBC` unchains a whole number of blocks and unpads the result (R186). -/
def Obligations.DecPcbcUnchains : Prop :=
  ∀ (s : State) (iv c : List Byte), ModeReady s iv c → c.length % 16 = 0 →
    ∃ P, PcbcUnchain s.inverse (load iv) (fun i => load (chunk c i)) P ∧
      EndsByUnpadding (exec .decPcbc s) s (joined (c.length / 16) P)

/-- `ENC_CFB` XORs the message with `E` of the IV and then of each ciphertext block it makes; any length, no padding
(R182, R187). -/
def Obligations.EncCfbFeedsBackCiphertext : Prop :=
  ∀ (s : State) (iv m : List Byte), ModeReady s iv m →
    ∃ K c, CfbKeystream s.forward (load iv) c K ∧ Keystreamed m K c ∧ CompletesWith (exec .encCfb s) s c

/-- `DEC_CFB` XORs the ciphertext with `E`, never `D`, of the IV and then of each ciphertext block (R182, R188). -/
def Obligations.DecCfbFeedsBackCiphertext : Prop :=
  ∀ (s : State) (iv c : List Byte), ModeReady s iv c →
    ∃ K p, CfbKeystream s.forward (load iv) c K ∧ Keystreamed c K p ∧ CompletesWith (exec .decCfb s) s p

/-- `ENC_OFB` and `DEC_OFB` XOR the input with `E` iterated on the IV: the same output for either command (R182, R189, R190). -/
def Obligations.OfbXorsItsKeystream : Prop :=
  ∀ (s : State) (iv x : List Byte), ModeReady s iv x →
    ∃ K out, OfbKeystream s.forward (load iv) K ∧ Keystreamed x K out ∧
      CompletesWith (exec .encOfb s) s out ∧ CompletesWith (exec .decOfb s) s out

/-- `ENC_CTR` and `DEC_CTR` XOR block `i` of the input with `E` of the counter block `ctr(IV, i)` (R181, R182, R191, R192). -/
def Obligations.CtrXorsItsKeystream : Prop :=
  ∀ (s : State) (iv x : List Byte), ModeReady s iv x →
    ∃ out, Keystreamed x (fun i => s.forward (load (counterBlock s.params.ctrEndian iv i))) out ∧
      CompletesWith (exec .encCtr s) s out ∧ CompletesWith (exec .decCtr s) s out

/-- The counter block is the 16-byte representation of the IV plus the block index modulo 2^128, in the byte order of
`CTR_ENDIAN`: the carry runs through all 16 bytes and the count wraps (R181). -/
def Obligations.CounterBlockCountsModulo : Prop :=
  (∀ (iv : List Byte) (i : Nat), (counterBlock .big iv i).length = 16 ∧
    intBE (counterBlock .big iv i) = (intBE iv + i) % 2 ^ 128) ∧
  (∀ (iv : List Byte) (i : Nat), (counterBlock .little iv i).length = 16 ∧
    intBE (counterBlock .little iv i).reverse = (intBE iv.reverse + i) % 2 ^ 128) ∧
  (∀ x y : List Byte, x.length = y.length → intBE x = intBE y → x = y) ∧
  counterBlock .big (List.replicate 16 0xFF) 1 = List.replicate 16 0x00

/-- The register checks of the ten mode commands, in order: `NoKey`; `InvalidIVLength`; for `DEC_CBC` and `DEC_PCBC`
`InvalidBlockLength`; `CapacityExceeded` (R180, R231). -/
def Obligations.ModeCommandChecks : Prop :=
  ∀ (i : Instr) (s : State), i ∈ modeCommands →
    (s.keyValid = false → FailsWith (exec i s) s 0x11) ∧
    (s.keyValid = true → s.ivLen.toNat ≠ 16 → FailsWith (exec i s) s 0x03) ∧
    (s.keyValid = true → s.ivLen.toNat = 16 → (i = .decCbc ∨ i = .decPcbc) → s.dinLen.toNat % 16 ≠ 0 →
      FailsWith (exec i s) s 0x02) ∧
    (s.keyValid = true → s.ivLen.toNat = 16 → ((i = .decCbc ∨ i = .decPcbc) → s.dinLen.toNat % 16 = 0) →
      s.params.dinMax < s.dinLen.toNat → FailsWith (exec i s) s 0x13)

/-- Length and round trip of every mode: encrypting lengthens the message as R193 says, and decrypting the output under the
same schedule (`RK[0..NR]`) and IV gives the message back, from any state that has them in its registers and buffers. -/
def Obligations.ModesRoundTrip : Prop :=
  ∀ (enc dec : Instr) (s u t : State) (iv m c : List Byte),
    (enc, dec) ∈ [(Instr.encCbc, Instr.decCbc), (.encPcbc, .decPcbc), (.encCfb, .decCfb), (.encOfb, .decOfb),
      (.encCtr, .decCtr)] →
    ModeReady s iv m → exec enc s = .next t → Output t c →
    c.length = (if enc = .encCbc ∨ enc = .encPcbc then 16 * ((m.length + 1 + 15) / 16) else m.length) ∧
    (u.params = s.params → SameSchedule s u → ModeReady u iv c → CompletesWith (exec dec u) u m)

/-- Distinct IVs give distinct CBC and PCBC outputs for every message; for the empty message the stream modes give the empty
string for every IV (R194; 90_conflicts.md C2). -/
def Obligations.DistinctIvsDistinctChainedOutputs : Prop :=
  (∀ (i : Instr) (s s' t t' : State) (iv iv' m c c' : List Byte), i = .encCbc ∨ i = .encPcbc →
    ModeReady s iv m → ModeReady s' iv' m → SameSchedule s s' → iv ≠ iv' →
    exec i s = .next t → exec i s' = .next t' → Output t c → Output t' c' → c ≠ c') ∧
  ∀ (i : Instr) (s : State) (iv : List Byte), i = .encCfb ∨ i = .encOfb ∨ i = .encCtr → ModeReady s iv [] →
    CompletesWith (exec i s) s []

/-! Padding (43_padding.md). -/

/-- `PAD` appends `16 - len % 16` bytes of that value to the input, with or without a cipher instance, and ends with
`CapacityExceeded` when `DIN_LEN > DIN_MAX` (R170, R174). -/
def Obligations.PadAppendsPadding : Prop :=
  (∀ (s : State) (x : List Byte), InputReady s x →
    CompletesWith (exec .pad s) s
      (x ++ List.replicate (16 - x.length % 16) (BitVec.ofNat 8 (16 - x.length % 16)))) ∧
  ∀ s : State, s.params.dinMax < s.dinLen.toNat → FailsWith (exec .pad s) s 0x13

/-- `UNPAD` strips 1 to 16 trailing bytes that all hold their number, and ends with `InvalidPadding` when there are none such,
with `CapacityExceeded` when `DIN_LEN > DIN_MAX` (R171, R175). -/
def Obligations.UnpadStripsPadding : Prop :=
  (∀ (s : State) (d : List Byte), InputReady s d → EndsByUnpadding (exec .unpad s) s d) ∧
  ∀ s : State, s.params.dinMax < s.dinLen.toNat → FailsWith (exec .unpad s) s 0x13

/-- The padding laws: unpadding undoes padding; a padded string is a whole number of blocks, longer than the string, and ends
in a byte from 1 to 16; `unpad` also accepts strings `pad` never makes (R172). -/
def Obligations.PaddingLaws : Prop :=
  (∀ m : List Byte, pkcsUnpad (pkcsPad m) = .ok m ∧ (pkcsPad m).length % 16 = 0 ∧ m.length < (pkcsPad m).length ∧
    ∃ b : Byte, (pkcsPad m).getLast? = some b ∧ 1 ≤ b.toNat ∧ b.toNat ≤ 16) ∧
  pkcsUnpad [0x01, 0x01] = .ok [0x01] ∧ ∀ m, pkcsPad m ≠ [0x01, 0x01]

/-! The envelope (45_envelope.md). -/

/-- `ENV_ENC` draws 32 bytes, salt first, derives its keys from the password and the salt, encrypts under a private schedule
and completes with `salt ‖ IV ‖ tag ‖ ciphertext`; the keys and the tag have the lengths `ENV_KEY_LEN`, `HMAC_KEY_LEN` and
`TAG_LEN` (R210, R211); the cipher instance stays (R210 to R214, R218). Bytes standing at the
random source's port are drawn first, the others are free (log 4). -/
def Obligations.EnvEncSealsTheMessage : Prop :=
  ∀ (s : State) (pw m : List Byte), EnvelopeReady s pw m →
    ∃ (t : State) (salt iv : List Byte) (ks : Schedule) (C : Nat → Block),
      salt.length = 16 ∧ iv.length = 16 ∧
      (kdfAes s.params (pw ++ salt) s.workload.toNat).length = s.params.envKeyLen ∧
      (kdfMac s.params (pw ++ salt) s.workload.toNat).length = s.params.hmacKeyLen ∧
      (macTag s.params (kdfMac s.params (pw ++ salt) s.workload.toNat) (iv ++ joined (m.length / 16 + 1) C)).length =
        s.params.tagLen ∧
      (∀ k, k < 32 → k < s.rngPort.length → (salt ++ iv).getD k 0 = s.rngPort.getD k 0) ∧
      PrivateSchedule (kdfAes s.params (pw ++ salt) s.workload.toNat) ks ∧
      CbcChain (cipher ks) (load iv) (fun i => load (chunk (padded m) i)) C ∧
      exec .envEnc s = .next t ∧ HostStateKept s t ∧ InstanceKept s t ∧ Succeeded t ∧
      t.rngPort = s.rngPort.drop 32 ∧
      Output t (salt ++ iv ++
        macTag s.params (kdfMac s.params (pw ++ salt) s.workload.toNat) (iv ++ joined (m.length / 16 + 1) C) ++
        joined (m.length / 16 + 1) C)

/-- `ENV_DEC` parses the envelope, verifies its tag before anything else, then its alignment, and completes with the unpadded
CBC decryption under a private schedule (R210, R211, R213, R215, R218). -/
def Obligations.EnvDecOpensTheEnvelope : Prop :=
  ∀ (s : State) (pw env : List Byte), EnvelopeReady s pw env → s.params.prefixLen ≤ env.length →
    let salt := env.take 16
    let iv := (env.drop 16).take 16
    let tag := (env.drop 32).take s.params.tagLen
    let c := env.drop (32 + s.params.tagLen)
    let mac := macTag s.params (kdfMac s.params (pw ++ salt) s.workload.toNat) (iv ++ c)
    (mac.length = s.params.tagLen ∧ (kdfAes s.params (pw ++ salt) s.workload.toNat).length = s.params.envKeyLen ∧
      (kdfMac s.params (pw ++ salt) s.workload.toNat).length = s.params.hmacKeyLen) ∧
    (mac ≠ tag → FailsWith (exec .envDec s) s 0x06) ∧
    (mac = tag → c.length % 16 ≠ 0 → FailsWith (exec .envDec s) s 0x02) ∧
    (mac = tag → c.length % 16 = 0 →
      ∃ ks P, PrivateSchedule (kdfAes s.params (pw ++ salt) s.workload.toNat) ks ∧
        CbcUnchain (invCipher ks) (load iv) (fun i => load (chunk c i)) P ∧
        EndsByUnpadding (exec .envDec s) s (joined (c.length / 16) P))

/-- The register checks of the envelope commands, in order: `CapacityExceeded`; `InvalidWorkloadFactor`; for `ENV_DEC`
`TruncatedEnvelope` (R214, R215, R231). -/
def Obligations.EnvelopeCommandChecks : Prop :=
  ∀ (i : Instr) (s : State), i = .envEnc ∨ i = .envDec →
    (s.params.dinMax < s.dinLen.toNat ∨ s.params.pwMax < s.pwLen.toNat → FailsWith (exec i s) s 0x13) ∧
    (s.dinLen.toNat ≤ s.params.dinMax → s.pwLen.toNat ≤ s.params.pwMax →
      (s.workload.toNat = 0 → FailsWith (exec i s) s 0x12) ∧
      (s.workload.toNat ≠ 0 → i = .envDec → s.dinLen.toNat < 32 + s.params.tagLen → FailsWith (exec i s) s 0x05))

/-- Verify before decrypt: `ENV_DEC` reports `InvalidBlockLength` or `InvalidPadding` only for envelopes whose tag matches
(R216). -/
def Obligations.VerificationPrecedesDecryption : Prop :=
  ∀ s t : State, s.busy = true → exec .envDec s = .next t → t.busy = false → t.errcode = 0x02 ∨ t.errcode = 0x04 →
    ∃ pw env : List Byte, pw.length = s.pwLen.toNat ∧ env.length = s.dinLen.toNat ∧ Holds s .pw pw ∧ Holds s .din env ∧
      macTag s.params (kdfMac s.params (pw ++ env.take 16) s.workload.toNat)
        ((env.drop 16).take 16 ++ env.drop s.params.prefixLen) = (env.drop 32).take s.params.tagLen

/-- The envelope's round trip: for every `KDF`, `MAC` and draw, `ENV_DEC` of what `ENV_ENC` made, with the same password and
workload factor, gives the message back (R221). -/
def Obligations.EnvelopeRoundTrip : Prop :=
  ∀ (s u t : State) (pw m env : List Byte), EnvelopeReady s pw m → exec .envEnc s = .next t → Output t env →
    u.params = s.params → u.workload = s.workload → EnvelopeReady u pw env →
    CompletesWith (exec .envDec u) u m

/-- Two envelopes made from different draws differ, whatever else is the same (R212, R221). -/
def Obligations.DifferentDrawsDifferentEnvelopes : Prop :=
  ∀ (s s' t t' : State) (pw pw' m m' env env' : List Byte), EnvelopeReady s pw m → EnvelopeReady s' pw' m' →
    randomBytes s 32 ≠ randomBytes s' 32 → exec .envEnc s = .next t → exec .envEnc s' = .next t' →
    Output t env → Output t' env' → env ≠ env'

/-! All seventeen commands (10_state.md R30, R33, R34, R36; 60_exceptions.md R231 to R234). -/

/-- THE FRAME of every command: it writes only `STATUS`, `DOUT_LEN` and `DOUT`, and a successful `KEYEXP` the cipher instance;
no input buffer, length register, `WORKLOAD` or `CMD` (R33). A command that records a fault changes nothing else (R36). Only
`ENV_ENC` draws random bytes (R212); the port it draws from (log 4) and the count of free values (log 7) are the model's own. -/
def Obligations.CommandsWriteOnlyTheirOutput : Prop :=
  ∀ (i : Instr) (s t : State), exec i s = .next t →
    (t = { s with fault := some .uninitialisedOperand } ∨
      (HostStateKept s t ∧ (s.params.wf = true → ∃ out, Output t out) ∧
        (InstanceKept s t ∨ (i = .keyexp ∧ Succeeded t)) ∧ t.busy = false ∧ t.done = true)) ∧
    (i ≠ .envEnc → t.rngPort = s.rngPort) ∧ (i ≠ .envEnc → i ≠ .keyexp → t.draws = s.draws)

/-- An error is precise: the state after a failed command is the state before it, except for `STATUS`, `DOUT_LEN` and `DOUT`,
which show the error and no output (R217, R232). The premise is what `STATUS` shows while a command runs (R14), which
`StepKeepsStatusLegal` keeps. -/
def Obligations.ErrorsArePrecise : Prop :=
  ∀ (i : Instr) (s t : State), s.StatusLegal → s.busy = true → exec i s = .next t → t.err = true →
    ∃ code, code ∈ legalErrorCodes ∧ code ≠ 0x00 ∧ Fails s t code

/-- A failed command started again on the state it left fails again with the same code (R234). -/
def Obligations.FailedCommandsFailAgain : Prop :=
  ∀ (i : Instr) (s t : State) (code : Byte) (v : Word), s.params.wf = true → s.busy = true → exec i s = .next t → Fails s t code →
    FailsWith (exec i (t.start v)) (t.start v) code

/-- `Operand(NAME, n)`: a command whose register checks pass and that meets an operand byte no host write has set records
`UninitialisedOperand` and nothing else; one whose register checks fail, or whose operand bytes are all written, never
faults this way and completes (R30, R36). -/
def Obligations.UnwrittenOperandsFault : Prop :=
  ∀ (i : Instr) (s : State),
    (RegisterChecksPass i s → (∃ p ∈ operandsOf i s, ∃ k, k < p.2 ∧ s.mem.get (p.1.base + k) = none) →
      exec i s = .next { s with fault := some .uninitialisedOperand }) ∧
    (¬ RegisterChecksPass i s ∨ (∀ p ∈ operandsOf i s, ∀ k, k < p.2 → s.mem.get (p.1.base + k) ≠ none) →
      ∃ t, exec i s = .next t ∧ t.fault = s.fault ∧ t.busy = false ∧ t.done = true)

/-- Every started command completes: after any number of `STATUS` polls, each of which reads `BUSY = 1`, the core's turn
clears `BUSY`, unless an operand byte was never written (R30, R269). The schedule of turns is the model's (log 8). -/
def Obligations.StartedCommandsComplete : Prop :=
  ∀ (s : State) (k : Nat), s.FaultFree → s.resetHeld = false → s.busy = true →
    s.bus = List.replicate k (.read (s.params.coreBase + 0x004) 4) →
    (∀ j, j < k → ∃ u, Sys2Proof.core.run (j + 1) s = .next u ∧ u.response = .data (statusWord s) ∧ u.busy = true) ∧
    ∃ t, Sys2Proof.core.run (k + 1) s = .next t ∧
      ((t.busy = false ∧ t.done = true ∧ t.fault = none) ∨ t.fault = some .uninitialisedOperand)

/-- A command's result depends on nothing but its operands (R73): two fault-free states that agree on them give the same
`STATUS`, `DOUT_LEN`, `DOUT` and fault, and for `KEYEXP` the same schedule. So a later write to `KEY` changes no cipher
command's result (R57), and no chaining value is carried from one command to the next (R180). -/
def Obligations.OperandsDetermineTheResult : Prop :=
  ∀ (i : Instr) (s s' t t' : State), s.FaultFree → s'.FaultFree → ReadsAgree i s s' →
    exec i s = .next t → exec i s' = .next t' →
    t'.fault = t.fault ∧
    (t.fault = none →
      t'.busy = t.busy ∧ t'.done = t.done ∧ t'.err = t.err ∧ t'.errcode = t.errcode ∧ t'.doutLen = t.doutLen ∧
      (∀ k, t'.mem.get (Buffer.dout.base + k) = t.mem.get (Buffer.dout.base + k)) ∧
      (i = .keyexp → t.err = false → t'.nk = t.nk ∧ SameSchedule t t'))

end Statements
end

