-- ==== Sys2Proof/Laws/Block.lean ====
section
/-! SUPPORT. Small laws of bytes, columns and blocks: reading a matrix made from a function, equality by entries, loading
and storing, and XOR. -/

namespace Sys2Proof

@[simp] theorem Column.get_ofFn (f : Fin 4 → Byte) (r : Fin 4) : (Column.ofFn f).get r = f r := by
  match r with
  | 0 | 1 | 2 | 3 => rfl

@[simp] theorem Block.get_ofFn (f : Fin 4 → Fin 4 → Byte) (r c : Fin 4) : (Block.ofFn f).get r c = f r c := by
  match c with
  | 0 => exact Column.get_ofFn (fun r => f r 0) r
  | 1 => exact Column.get_ofFn (fun r => f r 1) r
  | 2 => exact Column.get_ofFn (fun r => f r 2) r
  | 3 => exact Column.get_ofFn (fun r => f r 3) r

theorem Column.ext_get {v w : Column} (h : ∀ r, v.get r = w.get r) : v = w := by
  obtain ⟨v0, v1, v2, v3⟩ := v
  obtain ⟨w0, w1, w2, w3⟩ := w
  have h0 := h 0; have h1 := h 1; have h2 := h 2; have h3 := h 3
  simp only [Column.get] at h0 h1 h2 h3
  subst h0 h1 h2 h3
  rfl

/-- Two matrices with the same entries are equal. -/
theorem Block.ext_get {s t : Block} (h : ∀ r c, s.get r c = t.get r c) : s = t := by
  obtain ⟨s0, s1, s2, s3⟩ := s
  obtain ⟨t0, t1, t2, t3⟩ := t
  have h0 : s0 = t0 := Column.ext_get fun r => h r 0
  have h1 : s1 = t1 := Column.ext_get fun r => h r 1
  have h2 : s2 = t2 := Column.ext_get fun r => h r 2
  have h3 : s3 = t3 := Column.ext_get fun r => h r 3
  rw [h0, h1, h2, h3]

/-- A matrix is made from its entries. -/
theorem Block.ofFn_get (s : Block) : Block.ofFn (fun r c => s.get r c) = s := Block.ext_get fun r c => by simp

@[simp] theorem Column.get_xor (v w : Column) (r : Fin 4) : (v.xor w).get r = v.get r ^^^ w.get r := by
  match r with
  | 0 | 1 | 2 | 3 => rfl

@[simp] theorem Block.get_xor (s t : Block) (r c : Fin 4) : (s.xor t).get r c = s.get r c ^^^ t.get r c := by
  match c with
  | 0 | 1 | 2 | 3 => exact Column.get_xor _ _ r

/-- XOR with the same block twice gives the block back (R101, R148). -/
@[simp] theorem Block.xor_xor_cancel (s t : Block) : (s.xor t).xor t = s :=
  Block.ext_get fun r c => by simp

theorem Block.xor_comm (s t : Block) : s.xor t = t.xor s := Block.ext_get fun r c => by simp [BitVec.xor_comm]

namespace Machine

@[simp] theorem length_store (s : Block) : (store s).length = 16 := rfl

/-- Storing then loading is the identity (R140, R141). -/
@[simp] theorem load_store (s : Block) : load (store s) = s := rfl

/-- Loading then storing is the identity on 16-byte strings (R141). -/
theorem store_load {x : List Byte} (h : x.length = 16) : store (load x) = x := by
  match x, h with
  | [_, _, _, _, _, _, _, _, _, _, _, _, _, _, _, _], _ => rfl

/-- XORing a block into a string keeps the string's length, up to 16 bytes (R182). -/
theorem length_truncXor {x : List Byte} (h : x.length ≤ 16) (k : Block) : (truncXor x k).length = x.length := by
  simp [truncXor, h]

/-- A fold depends on its step at the list's members alone. -/
theorem foldl_congr_mem {f g : Block → Nat → Block} {l : List Nat} (h : ∀ r ∈ l, ∀ y, f y r = g y r) (x : Block) :
    l.foldl f x = l.foldl g x := by
  induction l generalizing x with
  | nil => rfl
  | cons a l ih =>
    rw [List.foldl_cons, List.foldl_cons, h a (by simp)]
    exact ih (fun r hr => h r (by simp [hr])) _

/-- `Cipher` reads `RK[0..Nr]` and nothing else of a schedule (R128, R149). -/
theorem cipher_congr {ks ks' : Schedule} (hn : ks'.nr = ks.nr) (hk : ∀ r, r ≤ ks.nr → ks'.key r = ks.key r) :
    cipher ks' = cipher ks := by
  funext x
  unfold cipher
  rw [hn, hk 0 (by omega), hk _ (le_refl _)]
  rw [foldl_congr_mem (f := cipherRound ks') (g := cipherRound ks) fun r hr y => by
    simp only [List.mem_range'_1] at hr
    unfold cipherRound; rw [hk r (by omega)]]

/-- `InvCipher` reads `RK[0..Nr]` and nothing else of a schedule (R128, R150). -/
theorem invCipher_congr {ks ks' : Schedule} (hn : ks'.nr = ks.nr) (hk : ∀ r, r ≤ ks.nr → ks'.key r = ks.key r) :
    invCipher ks' = invCipher ks := by
  funext x
  unfold invCipher
  rw [hn, hk 0 (by omega), hk _ (le_refl _)]
  rw [foldl_congr_mem (f := invCipherRound ks') (g := invCipherRound ks) fun r hr y => by
    simp only [List.mem_reverse, List.mem_range'_1] at hr
    unfold invCipherRound; rw [hk r (by omega)]]

end Machine

end Sys2Proof
end

