-- ==== Sys2Proof/Laws/Memory.lean ====
section
/-! SUPPORT. The basic laws of the byte storage: a read after a write gives the value written, a write leaves every
other offset alone, and every operation keeps the canonical form. -/

namespace Sys2Proof.Machine

theorem unlisted_lt {a : Nat} (h : a < Buffer.dout.base) : Memory.unlisted a = none := by
  simp [Memory.unlisted, Nat.not_le.mpr h]

theorem unlisted_ge {a : Nat} (h : Buffer.dout.base ≤ a) : Memory.unlisted a = some 0 := by
  simp [Memory.unlisted, h]

@[simp] theorem Memory.get_nil (a : Nat) : Memory.get [] a = Memory.unlisted a := rfl

theorem Memory.get_cons (k : Nat) (b : Byte) (m : Memory) (a : Nat) :
    Memory.get ((k, b) :: m) a = if a = k then some b else Memory.get m a := rfl

/-- An offset that no cell has reads as unlisted. -/
theorem Memory.get_of_not_mem {m : Memory} {a : Nat} (h : ∀ c ∈ m, c.1 ≠ a) : m.get a = Memory.unlisted a := by
  induction m with
  | nil => rfl
  | cons c m ih =>
    obtain ⟨k, b⟩ := c
    have hk : a ≠ k := fun e => h (k, b) (by simp) e.symm
    rw [Memory.get_cons, if_neg hk]
    exact ih fun c hc => h c (by simp [hc])

/-- A read after a write of one byte, in storage whose offsets rise. -/
theorem Memory.get_set {m : Memory} (hm : m.Pairwise (fun c d => c.1 < d.1)) (a x : Nat) (b : Byte) :
    (m.set a b).get x = if x = a then some b else m.get x := by
  induction m with
  | nil =>
    unfold Memory.set
    split <;> rename_i h
    · by_cases hx : x = a
      · subst hx; simpa using h
      · simp [hx]
    · rfl
  | cons c m ih =>
    obtain ⟨k, c⟩ := c
    rw [List.pairwise_cons] at hm
    have hnot : ∀ y, y ≤ k → Memory.get m y = Memory.unlisted y := fun y hy =>
      Memory.get_of_not_mem fun d hd e => by have := hm.1 d hd; simp at this; omega
    unfold Memory.set
    split <;> rename_i hak
    · split <;> rename_i hu
      · by_cases hx : x = a
        · subst hx
          rw [if_pos rfl, Memory.get_cons, if_neg (by omega), hnot x (by omega), hu]
        · rw [if_neg hx]
      · rw [Memory.get_cons]
    · split <;> rename_i hak'
      · subst hak'
        split <;> rename_i hu
        · by_cases hx : x = a
          · subst hx; rw [if_pos rfl, hnot x (by omega), hu]
          · rw [if_neg hx, Memory.get_cons, if_neg hx]
        · by_cases hx : x = a
          · simp [Memory.get_cons, hx]
          · simp [Memory.get_cons, hx]
      · rw [Memory.get_cons, Memory.get_cons, ih hm.2]
        by_cases hx : x = k
        · subst hx; rw [if_pos rfl, if_pos rfl, if_neg (by omega)]
        · rw [if_neg hx, if_neg hx]

/-- Every cell of storage after a write is the written one or was there before. -/
theorem Memory.mem_set {m : Memory} {a : Nat} {b : Byte} {c : Host.Cell} (h : c ∈ m.set a b) : c = (a, b) ∨ c ∈ m := by
  induction m with
  | nil =>
    unfold Memory.set at h
    split at h <;> simp_all
  | cons d m ih =>
    obtain ⟨k, d⟩ := d
    unfold Memory.set at h
    split at h
    · split at h
      · exact .inr h
      · simpa using h
    · split at h
      · split at h
        · exact .inr (List.mem_cons_of_mem _ h)
        · rcases List.mem_cons.mp h with h | h
          · exact .inl h
          · exact .inr (List.mem_cons_of_mem _ h)
      · rcases List.mem_cons.mp h with h | h
        · exact .inr (by simp [h])
        · rcases ih h with h | h
          · exact .inl h
          · exact .inr (List.mem_cons_of_mem _ h)

theorem Memory.wf_nil : Memory.wf [] := by simp [Memory.wf]

/-- Storing one byte keeps the canonical form. -/
theorem Memory.wf_set {m : Memory} (hm : m.wf) (a : Nat) (b : Byte) : (m.set a b).wf := by
  induction m with
  | nil =>
    unfold Memory.set
    split <;> rename_i h
    · exact Memory.wf_nil
    · exact ⟨by simp, by simpa using h⟩
  | cons c m ih =>
    obtain ⟨k, c⟩ := c
    obtain ⟨hp, hd⟩ := hm
    rw [List.pairwise_cons] at hp
    have hm' : Memory.wf m := ⟨hp.2, fun c hc => hd c (List.mem_cons_of_mem _ hc)⟩
    unfold Memory.set
    split <;> rename_i hak
    · split <;> rename_i hu
      · exact ⟨List.pairwise_cons.mpr hp, hd⟩
      · refine ⟨List.pairwise_cons.mpr ⟨fun d hd' => ?_, List.pairwise_cons.mpr hp⟩, fun d hd' => ?_⟩
        · rcases List.mem_cons.mp hd' with rfl | h
          · exact hak
          · exact Nat.lt_trans hak (hp.1 d h)
        · rcases List.mem_cons.mp hd' with rfl | h
          · exact hu
          · exact hd d h
    · split <;> rename_i hak'
      · subst hak'
        split <;> rename_i hu
        · exact hm'
        · refine ⟨List.pairwise_cons.mpr hp, fun d hd' => ?_⟩
          rcases List.mem_cons.mp hd' with rfl | h
          · exact hu
          · exact hm'.2 d h
      · have h := ih hm'
        refine ⟨List.pairwise_cons.mpr ⟨fun d hd' => ?_, h.1⟩, fun d hd' => ?_⟩
        · rcases Memory.mem_set hd' with rfl | h'
          · show k < a; omega
          · exact hp.1 d h'
        · rcases List.mem_cons.mp hd' with rfl | h'
          · exact hd _ (by simp)
          · exact h.2 d h'

/-- Storing a string keeps the canonical form. -/
theorem Memory.wf_setRange {m : Memory} (hm : m.wf) (a : Nat) (x : List Byte) : (m.setRange a x).wf := by
  induction x generalizing m a with
  | nil => exact hm
  | cons b bs ih => exact ih (Memory.wf_set hm a b) (a + 1)

/-- A read after storing a string: inside it, its byte; elsewhere, what was there. -/
theorem Memory.get_setRange {m : Memory} (hm : m.wf) (a y : Nat) (x : List Byte) :
    (m.setRange a x).get y = if a ≤ y ∧ y < a + x.length then x[y - a]? else m.get y := by
  induction x generalizing m a with
  | nil => simp only [Memory.setRange, List.length_nil, Nat.add_zero]; rw [if_neg (by omega)]
  | cons b bs ih =>
    rw [Memory.setRange, ih (Memory.wf_set hm a b), Memory.get_set hm.1]
    by_cases h1 : y = a
    · subst h1; rw [if_neg (by omega), if_pos rfl, if_pos (by simp)]; simp
    · by_cases h2 : a + 1 ≤ y ∧ y < a + 1 + bs.length
      · rw [if_pos h2, if_pos (by simp; omega)]
        obtain ⟨d, rfl⟩ : ∃ d, y = a + 1 + d := ⟨y - (a + 1), by omega⟩
        rw [show a + 1 + d - a = d + 1 by omega, show a + 1 + d - (a + 1) = d by omega]; simp
      · rw [if_neg h2, if_neg h1, if_neg (by simp; omega)]

/-- Every cell after storing a string was there before or lies in the string. -/
theorem Memory.mem_setRange {m : Memory} {a : Nat} {x : List Byte} {c : Host.Cell} (h : c ∈ m.setRange a x) :
    (a ≤ c.1 ∧ c.1 < a + x.length) ∨ c ∈ m := by
  induction x generalizing m a with
  | nil => exact .inr h
  | cons b bs ih =>
    rcases ih h with h | h
    · exact .inl (by simp; omega)
    · rcases Memory.mem_set h with rfl | h
      · exact .inl (by simp)
      · exact .inr h

theorem outputCells_bounds {a : Nat} {x : List Byte} {c : Host.Cell} (h : c ∈ outputCells a x) :
    a ≤ c.1 ∧ c.1 < a + x.length ∧ c.2 ≠ 0 := by
  induction x generalizing a with
  | nil => simp [outputCells] at h
  | cons b bs ih =>
    unfold outputCells at h
    split at h <;> rename_i hb
    · obtain ⟨h1, h2, h3⟩ := ih h
      exact ⟨by omega, by simp only [List.length_cons]; omega, h3⟩
    · rcases List.mem_cons.mp h with rfl | h
      · simpa using hb
      · obtain ⟨h1, h2, h3⟩ := ih h
        exact ⟨by omega, by simp only [List.length_cons]; omega, h3⟩

theorem outputCells_rising (a : Nat) (x : List Byte) : (outputCells a x).Pairwise (fun c d => c.1 < d.1) := by
  induction x generalizing a with
  | nil => simp [outputCells]
  | cons b bs ih =>
    unfold outputCells
    split
    · exact ih _
    · refine List.pairwise_cons.mpr ⟨fun d hd => ?_, ih _⟩
      have := outputCells_bounds hd; simp; omega

theorem get_outputCells {a : Nat} (ha : Buffer.dout.base ≤ a) (x : List Byte) (k : Nat) :
    (outputCells a x).get (a + k) = some (x.getD k 0) := by
  induction x generalizing a k with
  | nil => simp [outputCells, unlisted_ge (Nat.le_add_right_of_le ha)]
  | cons b bs ih =>
    have hlow : (outputCells (a + 1) bs).get a = some 0 := by
      rw [Memory.get_of_not_mem fun c hc e => by have := outputCells_bounds hc; omega, unlisted_ge ha]
    unfold outputCells
    split <;> rename_i hb
    · subst hb
      cases k with
      | zero => simpa using hlow
      | succ k => rw [show a + (k + 1) = a + 1 + k by omega, ih (by omega)]; simp
    · cases k with
      | zero => simp [Memory.get_cons]
      | succ k =>
        rw [Memory.get_cons, if_neg (by omega), show a + (k + 1) = a + 1 + k by omega, ih (by omega)]; simp

theorem get_append_low {m n : Memory} {a : Nat} (hm : ∀ c ∈ m, c.1 ≠ a) : Memory.get (m ++ n) a = Memory.get n a := by
  induction m with
  | nil => rfl
  | cons c m ih =>
    obtain ⟨k, b⟩ := c
    have : a ≠ k := fun e => hm (k, b) (by simp) e.symm
    rw [List.cons_append, Memory.get_cons, if_neg this]
    exact ih fun c hc => hm c (by simp [hc])

theorem get_append_of_not_mem {m n : Memory} {a : Nat} (hn : ∀ c ∈ n, c.1 ≠ a) :
    Memory.get (m ++ n) a = Memory.get m a := by
  induction m with
  | nil => simpa using Memory.get_of_not_mem hn
  | cons c m ih =>
    obtain ⟨k, b⟩ := c
    rw [List.cons_append, Memory.get_cons, Memory.get_cons, ih]

/-- `DOUT` after rewriting it: the string, then zeros (R24, R31). -/
@[simp] theorem Memory.get_setOutput_dout (m : Memory) (out : List Byte) (k : Nat) :
    (m.setOutput out).get (Buffer.dout.base + k) = some (out.getD k 0) := by
  unfold Memory.setOutput
  rw [get_append_low, get_outputCells (Nat.le_refl _)]
  intro c hc
  simp only [List.mem_filter, decide_eq_true_eq] at hc
  omega

/-- Rewriting `DOUT` touches no input buffer (R23). -/
theorem Memory.get_setOutput_low (m : Memory) (out : List Byte) {a : Nat} (ha : a < Buffer.dout.base) :
    (m.setOutput out).get a = m.get a := by
  unfold Memory.setOutput
  rw [get_append_of_not_mem fun c hc e => by have := outputCells_bounds hc; omega]
  induction m with
  | nil => rfl
  | cons c m ih =>
    obtain ⟨k, b⟩ := c
    by_cases hk : k < Buffer.dout.base
    · rw [List.filter_cons_of_pos (by simpa using hk), Memory.get_cons, Memory.get_cons, ih]
    · rw [List.filter_cons_of_neg (by simpa using hk), ih, Memory.get_cons, if_neg (by omega)]

/-- Rewriting `DOUT` keeps the canonical form. -/
theorem Memory.wf_setOutput {m : Memory} (hm : m.wf) (out : List Byte) : (m.setOutput out).wf := by
  refine ⟨List.pairwise_append.mpr ⟨hm.1.filter _, outputCells_rising _ _, fun c hc d hd => ?_⟩, fun c hc => ?_⟩
  · have := outputCells_bounds hd
    simp only [List.mem_filter, decide_eq_true_eq] at hc
    omega
  · rcases List.mem_append.mp hc with h | h
    · exact hm.2 c (List.mem_filter.mp h).1
    · have := outputCells_bounds h
      rw [unlisted_ge this.1]
      intro e
      exact this.2.2 (by simpa using e.symm)

/-- Every cell after rewriting `DOUT` is an input cell that was there before, or an output byte. -/
theorem Memory.mem_setOutput {m : Memory} {out : List Byte} {c : Host.Cell} (h : c ∈ m.setOutput out) :
    (c ∈ m ∧ c.1 < Buffer.dout.base) ∨ (Buffer.dout.base ≤ c.1 ∧ c.1 < Buffer.dout.base + out.length) := by
  rcases List.mem_append.mp h with h | h
  · simp only [List.mem_filter, decide_eq_true_eq] at h
    exact .inl h
  · have := outputCells_bounds h
    exact .inr ⟨this.1, this.2.1⟩

/-- Rewriting `DOUT` twice is rewriting it once. -/
theorem Memory.setOutput_setOutput (m : Memory) (x y : List Byte) : (m.setOutput x).setOutput y = m.setOutput y := by
  unfold Memory.setOutput
  have : (outputCells Buffer.dout.base x).filter (fun c => decide (c.1 < Buffer.dout.base)) = [] := by
    rw [List.filter_eq_nil_iff]
    intro c hc
    have := outputCells_bounds hc
    simp only [decide_eq_true_eq]; omega
  rw [List.filter_append, this, List.append_nil, List.filter_filter]
  simp

/-- Reading a range: it is some string exactly when every byte is some byte. -/
theorem Memory.getRange_eq_some {m : Memory} {a n : Nat} {x : List Byte} :
    m.getRange a n = some x ↔ x.length = n ∧ ∀ k, k < n → m.get (a + k) = some (x.getD k 0) := by
  induction n generalizing a x with
  | zero => cases x <;> simp [Memory.getRange]
  | succ n ih =>
    unfold Memory.getRange
    constructor
    · intro h
      split at h
      · rename_i b bs hb hbs
        obtain ⟨hl, hk⟩ := ih.mp hbs
        obtain rfl : b :: bs = x := by simpa using h
        refine ⟨by simp [hl], fun k hlt => ?_⟩
        cases k with
        | zero => simpa using hb
        | succ k => rw [show a + (k + 1) = a + 1 + k by omega, hk k (by omega)]; simp
      · exact absurd h (by simp)
    · rintro ⟨hl, hk⟩
      cases x with
      | nil => simp at hl
      | cons b bs =>
        have h0 := hk 0 (by omega)
        have hbs : m.getRange (a + 1) n = some bs := ih.mpr ⟨by simpa using hl, fun k hlt => by
          have := hk (k + 1) (by omega)
          rw [show a + 1 + k = a + (k + 1) by omega, this]; simp⟩
        simp at h0
        rw [h0, hbs]

/-- The length of a range read. -/
theorem Memory.length_of_getRange {m : Memory} {a n : Nat} {x : List Byte} (h : m.getRange a n = some x) :
    x.length = n := (Memory.getRange_eq_some.mp h).1

/-- A range is read alike from storages that agree on it. -/
theorem Memory.getRange_congr {m m' : Memory} {a n : Nat} (h : ∀ k, k < n → m.get (a + k) = m'.get (a + k)) :
    m.getRange a n = m'.getRange a n := by
  induction n generalizing a with
  | zero => rfl
  | succ n ih =>
    unfold Memory.getRange
    have h0 := h 0 (by omega)
    simp only [Nat.add_zero] at h0
    rw [h0, ih fun k hk => by rw [show a + 1 + k = a + (k + 1) by omega]; exact h _ (by omega)]

/-- The cells of a canonical storage are its bytes that differ from what is unlisted. -/
theorem Memory.mem_iff_get {m : Memory} (h : m.wf) (a : Nat) (b : Byte) :
    (a, b) ∈ m ↔ m.get a = some b ∧ Memory.unlisted a ≠ some b := by
  induction m with
  | nil => simp
  | cons c m ih =>
    obtain ⟨k, d⟩ := c
    obtain ⟨hp, hd⟩ := h
    rw [List.pairwise_cons] at hp
    have ih := ih ⟨hp.2, fun c hc => hd c (List.mem_cons_of_mem _ hc)⟩
    rw [List.mem_cons, Memory.get_cons]
    by_cases hk : a = k
    · subst hk
      have hn : (a, b) ∉ m := fun hm => by have := hp.1 _ hm; simp at this
      have hu := hd (a, d) (by simp)
      simp only [Prod.mk.injEq, true_and, hn, or_false, if_pos, Option.some.injEq]
      constructor
      · rintro rfl; exact ⟨rfl, hu⟩
      · rintro ⟨rfl, _⟩; rfl
    · rw [if_neg hk, ← ih]; simp [hk]

/-- Canonical storages that read alike everywhere are equal. -/
theorem Memory.ext_get {m m' : Memory} (h : m.wf) (h' : m'.wf) (he : ∀ a, m.get a = m'.get a) : m = m' := by
  have hm : ∀ c, c ∈ m ↔ c ∈ m' := by
    rintro ⟨a, b⟩; rw [Memory.mem_iff_get h, Memory.mem_iff_get h', he]
  have distinct : ∀ {l : Memory}, l.wf → l.Nodup := fun h =>
    h.1.imp fun hab e => by rw [e] at hab; exact absurd hab (Nat.lt_irrefl _)
  refine List.Perm.eq_of_pairwise (le := fun c d => c.1 < d.1) ?_ h.1 h'.1
    ((List.perm_ext_iff_of_nodup (distinct h) (distinct h')).mpr hm)
  intro a b _ _ h1 h2; exact absurd h1 (by omega)

end Sys2Proof.Machine
end

