-- ==== Sys2Proof/Laws/Modes.lean ====
section
/-! SUPPORT. How a message splits into blocks, and the lengths of what padding, the modes and the envelope give
(43_padding.md R170, R172; 44_modes.md R180, R193; 45_envelope.md R213). -/

namespace Sys2Proof.Machine

@[simp] theorem length_splitBlocks (n : Nat) (x : List Byte) : (splitBlocks n x).length = n := by
  induction n generalizing x with
  | zero => rfl
  | succ n ih => simp [splitBlocks, ih]

/-- `n = ceil(len/16)` blocks (R180). -/
@[simp] theorem length_blocksOf (x : List Byte) : (blocksOf x).length = (x.length + 15) / 16 := by simp [blocksOf]

/-- The empty string has no blocks (R180). -/
@[simp] theorem blocksOf_nil : blocksOf [] = [] := rfl

/-- A nonempty string is its first 16 bytes and the blocks of the rest. -/
theorem blocksOf_of_ne_nil {x : List Byte} (h : x ≠ []) : blocksOf x = x.take 16 :: blocksOf (x.drop 16) := by
  have hl : 0 < x.length := List.length_pos_iff.mpr h
  unfold blocksOf
  rw [List.length_drop]
  by_cases h16 : x.length ≤ 16
  · rw [show (x.length + 15) / 16 = 0 + 1 by omega, show (x.length - 16 + 15) / 16 = 0 by omega]; rfl
  · rw [show (x.length + 15) / 16 = (x.length - 16 + 15) / 16 + 1 by omega]; rfl

/-- Every block of a string is at most 16 bytes. -/
theorem length_le_of_mem_splitBlocks {n : Nat} {x y : List Byte} (h : y ∈ splitBlocks n x) : y.length ≤ 16 := by
  induction n generalizing x with
  | zero => simp [splitBlocks] at h
  | succ n ih =>
    rcases List.mem_cons.mp h with rfl | h
    · simp
    · exact ih h

/-- The blocks of a string, joined, are the string. -/
theorem flatten_splitBlocks {n : Nat} {x : List Byte} (h : x.length ≤ 16 * n) : (splitBlocks n x).flatten = x := by
  induction n generalizing x with
  | zero =>
    have : x = [] := List.length_eq_zero_iff.mp (by omega)
    simp [splitBlocks, this]
  | succ n ih =>
    rw [splitBlocks, List.flatten_cons, ih (by rw [List.length_drop]; omega), List.take_append_drop]

/-- The blocks of a string, joined, are the string (R180). -/
@[simp] theorem flatten_blocksOf (x : List Byte) : (blocksOf x).flatten = x := flatten_splitBlocks (by omega)

/-- Lengths of the block chaining loops: 16 bytes for each block. -/
@[simp] theorem length_cbcEncLoop (E : BlockFn) (prev : Block) (ps : List (List Byte)) :
    (cbcEncLoop E prev ps).length = 16 * ps.length := by
  induction ps generalizing prev with
  | nil => rfl
  | cons p ps ih => simp [cbcEncLoop, ih]; omega

@[simp] theorem length_cbcDecLoop (D : BlockFn) (prev : Block) (cs : List (List Byte)) :
    (cbcDecLoop D prev cs).length = 16 * cs.length := by
  induction cs generalizing prev with
  | nil => rfl
  | cons c cs ih => simp [cbcDecLoop, ih]; omega

@[simp] theorem length_pcbcEncLoop (E : BlockFn) (prev : Block) (ps : List (List Byte)) :
    (pcbcEncLoop E prev ps).length = 16 * ps.length := by
  induction ps generalizing prev with
  | nil => rfl
  | cons p ps ih => simp [pcbcEncLoop, ih]; omega

@[simp] theorem length_pcbcDecLoop (D : BlockFn) (prev : Block) (cs : List (List Byte)) :
    (pcbcDecLoop D prev cs).length = 16 * cs.length := by
  induction cs generalizing prev with
  | nil => rfl
  | cons c cs ih => simp [pcbcDecLoop, ih]; omega

/-- Lengths of the stream loops: the length of the blocks joined, when none is longer than 16 bytes (R193). -/
theorem length_cfbEncLoop (E : BlockFn) {ps : List (List Byte)} (h : ∀ p ∈ ps, p.length ≤ 16) (prev : Block) :
    (cfbEncLoop E prev ps).length = ps.flatten.length := by
  induction ps generalizing prev with
  | nil => rfl
  | cons p ps ih =>
    simp only [cfbEncLoop, List.length_append, List.flatten_cons]
    rw [length_truncXor (h p (by simp)), ih fun q hq => h q (by simp [hq])]

theorem length_cfbDecLoop (E : BlockFn) {cs : List (List Byte)} (h : ∀ c ∈ cs, c.length ≤ 16) (prev : Block) :
    (cfbDecLoop E prev cs).length = cs.flatten.length := by
  induction cs generalizing prev with
  | nil => rfl
  | cons p ps ih =>
    simp only [cfbDecLoop, List.length_append, List.flatten_cons]
    rw [length_truncXor (h p (by simp)), ih fun q hq => h q (by simp [hq])]

theorem length_ofbLoop (E : BlockFn) {xs : List (List Byte)} (h : ∀ x ∈ xs, x.length ≤ 16) (ks : Block) :
    (ofbLoop E ks xs).length = xs.flatten.length := by
  induction xs generalizing ks with
  | nil => rfl
  | cons p ps ih =>
    simp only [ofbLoop, List.length_append, List.flatten_cons]
    rw [length_truncXor (h p (by simp)), ih fun q hq => h q (by simp [hq])]

theorem length_ctrLoop (E : BlockFn) (endian : Endian) (iv : List Byte) {xs : List (List Byte)}
    (h : ∀ x ∈ xs, x.length ≤ 16) (i : Nat) : (ctrLoop E endian iv i xs).length = xs.flatten.length := by
  induction xs generalizing i with
  | nil => rfl
  | cons p ps ih =>
    simp only [ctrLoop, List.length_append, List.flatten_cons]
    rw [length_truncXor (h p (by simp)), ih fun q hq => h q (by simp [hq])]

theorem length_le_of_mem_blocksOf {x y : List Byte} (h : y ∈ blocksOf x) : y.length ≤ 16 :=
  length_le_of_mem_splitBlocks h

theorem padCount_bounds (n : Nat) : 1 ≤ padCount n ∧ padCount n ≤ 16 := by unfold padCount; omega

/-- `len(pad(data)) = 16·(len/16 + 1)` (R170). -/
@[simp] theorem length_pkcsPad (x : List Byte) : (pkcsPad x).length = 16 * (x.length / 16 + 1) := by
  simp [pkcsPad, padCount]; omega

/-- What `unpad` gives is no longer than what it is given (R171). -/
theorem length_pkcsUnpad {d x : List Byte} (h : pkcsUnpad d = .ok x) : x.length ≤ d.length := by
  unfold pkcsUnpad at h
  split at h
  · simp at h
  · dsimp only at h
    split at h
    · simp at h
    · split at h
      · simp at h
      · split at h
        · simp at h
        · obtain rfl := Except.ok.inj h
          simp

/-- Length of a CBC or PCBC ciphertext (R193). -/
@[simp] theorem length_cbcEncrypt (E : BlockFn) (iv m : List Byte) :
    (cbcEncrypt E iv m).length = 16 * (m.length / 16 + 1) := by simp [cbcEncrypt]; omega

@[simp] theorem length_pcbcEncrypt (E : BlockFn) (iv m : List Byte) :
    (pcbcEncrypt E iv m).length = 16 * (m.length / 16 + 1) := by simp [pcbcEncrypt]; omega

/-- The stream modes keep the length (R193). -/
@[simp] theorem length_cfbEncrypt (E : BlockFn) (iv m : List Byte) : (cfbEncrypt E iv m).length = m.length := by
  rw [cfbEncrypt, length_cfbEncLoop E fun _ => length_le_of_mem_blocksOf, flatten_blocksOf]

@[simp] theorem length_cfbDecrypt (E : BlockFn) (iv c : List Byte) : (cfbDecrypt E iv c).length = c.length := by
  rw [cfbDecrypt, length_cfbDecLoop E fun _ => length_le_of_mem_blocksOf, flatten_blocksOf]

@[simp] theorem length_ofbCrypt (E : BlockFn) (iv x : List Byte) : (ofbCrypt E iv x).length = x.length := by
  rw [ofbCrypt, length_ofbLoop E fun _ => length_le_of_mem_blocksOf, flatten_blocksOf]

@[simp] theorem length_ctrCrypt (E : BlockFn) (e : Endian) (iv x : List Byte) : (ctrCrypt E e iv x).length = x.length := by
  rw [ctrCrypt, length_ctrLoop E e iv fun _ => length_le_of_mem_blocksOf, flatten_blocksOf]

/-- A CBC decryption is no longer than its ciphertext rounded up to whole blocks. -/
theorem length_cbcDecrypt {D : BlockFn} {iv c x : List Byte} (h : cbcDecrypt D iv c = .ok x) :
    x.length ≤ 16 * ((c.length + 15) / 16) := by
  have := length_pkcsUnpad h
  simpa using this

theorem length_pcbcDecrypt {D : BlockFn} {iv c x : List Byte} (h : pcbcDecrypt D iv c = .ok x) :
    x.length ≤ 16 * ((c.length + 15) / 16) := by
  have := length_pkcsUnpad h
  simpa using this

/-- `MAC` gives `TAG_LEN` bytes (R211). -/
@[simp] theorem length_macTag (p : Params) (key x : List Byte) : (macTag p key x).length = p.tagLen := by
  unfold macTag; split <;> simp [fit]

/-- `KDF` gives an AES key of `ENV_KEY_LEN` bytes (R210). -/
@[simp] theorem length_kdfAes (p : Params) (x : List Byte) (w : Nat) : (kdfAes p x w).length = p.envKeyLen := by
  unfold kdfAes; split <;> simp [fit]

/-- `KDF` gives an HMAC key of `HMAC_KEY_LEN` bytes (R210). -/
@[simp] theorem length_kdfMac (p : Params) (x : List Byte) (w : Nat) : (kdfMac p x w).length = p.hmacKeyLen := by
  unfold kdfMac; split <;> simp [fit]

/-- Length of an envelope (R213, R214). -/
theorem length_sealEnvelope (p : Params) (pw m salt iv : List Byte) (w : Nat) :
    (sealEnvelope p pw m salt iv w).length = salt.length + iv.length + p.tagLen + 16 * (m.length / 16 + 1) := by
  simp [sealEnvelope]; omega

/-- What opening an envelope gives is no longer than the envelope, rounded up to whole blocks. -/
theorem length_openEnvelope {p : Params} {pw env x : List Byte} {w : Nat} (h : openEnvelope p pw env w = .ok x) :
    x.length ≤ env.length + 15 := by
  unfold openEnvelope at h
  dsimp only at h
  split at h
  · simp at h
  · split at h
    · simp at h
    · have := length_cbcDecrypt h
      rw [List.length_drop] at this
      omega

end Sys2Proof.Machine
end

