-- ==== Sys2Proof/Laws/State.lean ====
section
/-! SUPPORT. What each update of State leaves in each field: one lemma per field per update, so that no later proof
unfolds a record update. -/

namespace Sys2Proof.Machine

variable (s : State)

/-! rewriting the output -/

@[simp] theorem State.setOutput_params (out : List Byte) : (s.setOutput out).params = s.params := rfl
@[simp] theorem State.setOutput_cmd (out : List Byte) : (s.setOutput out).cmd = s.cmd := rfl
@[simp] theorem State.setOutput_busy (out : List Byte) : (s.setOutput out).busy = s.busy := rfl
@[simp] theorem State.setOutput_done (out : List Byte) : (s.setOutput out).done = s.done := rfl
@[simp] theorem State.setOutput_err (out : List Byte) : (s.setOutput out).err = s.err := rfl
@[simp] theorem State.setOutput_errcode (out : List Byte) : (s.setOutput out).errcode = s.errcode := rfl
@[simp] theorem State.setOutput_keyValid (out : List Byte) : (s.setOutput out).keyValid = s.keyValid := rfl
@[simp] theorem State.setOutput_nk (out : List Byte) : (s.setOutput out).nk = s.nk := rfl
@[simp] theorem State.setOutput_nr (out : List Byte) : (s.setOutput out).nr = s.nr := rfl
@[simp] theorem State.setOutput_rk (out : List Byte) : (s.setOutput out).rk = s.rk := rfl
@[simp] theorem State.setOutput_keyLen (out : List Byte) : (s.setOutput out).keyLen = s.keyLen := rfl
@[simp] theorem State.setOutput_ivLen (out : List Byte) : (s.setOutput out).ivLen = s.ivLen := rfl
@[simp] theorem State.setOutput_dinLen (out : List Byte) : (s.setOutput out).dinLen = s.dinLen := rfl
@[simp] theorem State.setOutput_pwLen (out : List Byte) : (s.setOutput out).pwLen = s.pwLen := rfl
@[simp] theorem State.setOutput_workload (out : List Byte) : (s.setOutput out).workload = s.workload := rfl
@[simp] theorem State.setOutput_doutLen (out : List Byte) : (s.setOutput out).doutLen = BitVec.ofNat 32 out.length := rfl
@[simp] theorem State.setOutput_mem (out : List Byte) : (s.setOutput out).mem = s.mem.setOutput out := rfl
@[simp] theorem State.setOutput_fault (out : List Byte) : (s.setOutput out).fault = s.fault := rfl
@[simp] theorem State.setOutput_resetHeld (out : List Byte) : (s.setOutput out).resetHeld = s.resetHeld := rfl
@[simp] theorem State.setOutput_bus (out : List Byte) : (s.setOutput out).bus = s.bus := rfl
@[simp] theorem State.setOutput_response (out : List Byte) : (s.setOutput out).response = s.response := rfl
@[simp] theorem State.setOutput_rngPort (out : List Byte) : (s.setOutput out).rngPort = s.rngPort := rfl
@[simp] theorem State.setOutput_draws (out : List Byte) : (s.setOutput out).draws = s.draws := rfl

/-! the flags of a start -/

@[simp] theorem State.startFlags_params : (s.startFlags).params = s.params := rfl
@[simp] theorem State.startFlags_cmd : (s.startFlags).cmd = s.cmd := rfl
@[simp] theorem State.startFlags_busy : (s.startFlags).busy = true := rfl
@[simp] theorem State.startFlags_done : (s.startFlags).done = false := rfl
@[simp] theorem State.startFlags_err : (s.startFlags).err = false := rfl
@[simp] theorem State.startFlags_errcode : (s.startFlags).errcode = 0 := rfl
@[simp] theorem State.startFlags_keyValid : (s.startFlags).keyValid = s.keyValid := rfl
@[simp] theorem State.startFlags_nk : (s.startFlags).nk = s.nk := rfl
@[simp] theorem State.startFlags_nr : (s.startFlags).nr = s.nr := rfl
@[simp] theorem State.startFlags_rk : (s.startFlags).rk = s.rk := rfl
@[simp] theorem State.startFlags_keyLen : (s.startFlags).keyLen = s.keyLen := rfl
@[simp] theorem State.startFlags_ivLen : (s.startFlags).ivLen = s.ivLen := rfl
@[simp] theorem State.startFlags_dinLen : (s.startFlags).dinLen = s.dinLen := rfl
@[simp] theorem State.startFlags_pwLen : (s.startFlags).pwLen = s.pwLen := rfl
@[simp] theorem State.startFlags_workload : (s.startFlags).workload = s.workload := rfl
@[simp] theorem State.startFlags_doutLen : (s.startFlags).doutLen = s.doutLen := rfl
@[simp] theorem State.startFlags_mem : (s.startFlags).mem = s.mem := rfl
@[simp] theorem State.startFlags_fault : (s.startFlags).fault = s.fault := rfl
@[simp] theorem State.startFlags_resetHeld : (s.startFlags).resetHeld = s.resetHeld := rfl
@[simp] theorem State.startFlags_bus : (s.startFlags).bus = s.bus := rfl
@[simp] theorem State.startFlags_response : (s.startFlags).response = s.response := rfl
@[simp] theorem State.startFlags_rngPort : (s.startFlags).rngPort = s.rngPort := rfl
@[simp] theorem State.startFlags_draws : (s.startFlags).draws = s.draws := rfl

/-! the flags of a success -/

@[simp] theorem State.successFlags_params : (s.successFlags).params = s.params := rfl
@[simp] theorem State.successFlags_cmd : (s.successFlags).cmd = s.cmd := rfl
@[simp] theorem State.successFlags_busy : (s.successFlags).busy = false := rfl
@[simp] theorem State.successFlags_done : (s.successFlags).done = true := rfl
@[simp] theorem State.successFlags_err : (s.successFlags).err = false := rfl
@[simp] theorem State.successFlags_errcode : (s.successFlags).errcode = 0 := rfl
@[simp] theorem State.successFlags_keyValid : (s.successFlags).keyValid = s.keyValid := rfl
@[simp] theorem State.successFlags_nk : (s.successFlags).nk = s.nk := rfl
@[simp] theorem State.successFlags_nr : (s.successFlags).nr = s.nr := rfl
@[simp] theorem State.successFlags_rk : (s.successFlags).rk = s.rk := rfl
@[simp] theorem State.successFlags_keyLen : (s.successFlags).keyLen = s.keyLen := rfl
@[simp] theorem State.successFlags_ivLen : (s.successFlags).ivLen = s.ivLen := rfl
@[simp] theorem State.successFlags_dinLen : (s.successFlags).dinLen = s.dinLen := rfl
@[simp] theorem State.successFlags_pwLen : (s.successFlags).pwLen = s.pwLen := rfl
@[simp] theorem State.successFlags_workload : (s.successFlags).workload = s.workload := rfl
@[simp] theorem State.successFlags_doutLen : (s.successFlags).doutLen = s.doutLen := rfl
@[simp] theorem State.successFlags_mem : (s.successFlags).mem = s.mem := rfl
@[simp] theorem State.successFlags_fault : (s.successFlags).fault = s.fault := rfl
@[simp] theorem State.successFlags_resetHeld : (s.successFlags).resetHeld = s.resetHeld := rfl
@[simp] theorem State.successFlags_bus : (s.successFlags).bus = s.bus := rfl
@[simp] theorem State.successFlags_response : (s.successFlags).response = s.response := rfl
@[simp] theorem State.successFlags_rngPort : (s.successFlags).rngPort = s.rngPort := rfl
@[simp] theorem State.successFlags_draws : (s.successFlags).draws = s.draws := rfl

/-! the flags of an error -/

@[simp] theorem State.errorFlags_params (e : ErrorCode) : (s.errorFlags e).params = s.params := rfl
@[simp] theorem State.errorFlags_cmd (e : ErrorCode) : (s.errorFlags e).cmd = s.cmd := rfl
@[simp] theorem State.errorFlags_busy (e : ErrorCode) : (s.errorFlags e).busy = false := rfl
@[simp] theorem State.errorFlags_done (e : ErrorCode) : (s.errorFlags e).done = true := rfl
@[simp] theorem State.errorFlags_err (e : ErrorCode) : (s.errorFlags e).err = true := rfl
@[simp] theorem State.errorFlags_errcode (e : ErrorCode) : (s.errorFlags e).errcode = e.code := rfl
@[simp] theorem State.errorFlags_keyValid (e : ErrorCode) : (s.errorFlags e).keyValid = s.keyValid := rfl
@[simp] theorem State.errorFlags_nk (e : ErrorCode) : (s.errorFlags e).nk = s.nk := rfl
@[simp] theorem State.errorFlags_nr (e : ErrorCode) : (s.errorFlags e).nr = s.nr := rfl
@[simp] theorem State.errorFlags_rk (e : ErrorCode) : (s.errorFlags e).rk = s.rk := rfl
@[simp] theorem State.errorFlags_keyLen (e : ErrorCode) : (s.errorFlags e).keyLen = s.keyLen := rfl
@[simp] theorem State.errorFlags_ivLen (e : ErrorCode) : (s.errorFlags e).ivLen = s.ivLen := rfl
@[simp] theorem State.errorFlags_dinLen (e : ErrorCode) : (s.errorFlags e).dinLen = s.dinLen := rfl
@[simp] theorem State.errorFlags_pwLen (e : ErrorCode) : (s.errorFlags e).pwLen = s.pwLen := rfl
@[simp] theorem State.errorFlags_workload (e : ErrorCode) : (s.errorFlags e).workload = s.workload := rfl
@[simp] theorem State.errorFlags_doutLen (e : ErrorCode) : (s.errorFlags e).doutLen = s.doutLen := rfl
@[simp] theorem State.errorFlags_mem (e : ErrorCode) : (s.errorFlags e).mem = s.mem := rfl
@[simp] theorem State.errorFlags_fault (e : ErrorCode) : (s.errorFlags e).fault = s.fault := rfl
@[simp] theorem State.errorFlags_resetHeld (e : ErrorCode) : (s.errorFlags e).resetHeld = s.resetHeld := rfl
@[simp] theorem State.errorFlags_bus (e : ErrorCode) : (s.errorFlags e).bus = s.bus := rfl
@[simp] theorem State.errorFlags_response (e : ErrorCode) : (s.errorFlags e).response = s.response := rfl
@[simp] theorem State.errorFlags_rngPort (e : ErrorCode) : (s.errorFlags e).rngPort = s.rngPort := rfl
@[simp] theorem State.errorFlags_draws (e : ErrorCode) : (s.errorFlags e).draws = s.draws := rfl

/-! `Complete(out)` -/

@[simp] theorem State.complete_params (out : List Byte) : (s.complete out).params = s.params := rfl
@[simp] theorem State.complete_cmd (out : List Byte) : (s.complete out).cmd = s.cmd := rfl
@[simp] theorem State.complete_busy (out : List Byte) : (s.complete out).busy = false := rfl
@[simp] theorem State.complete_done (out : List Byte) : (s.complete out).done = true := rfl
@[simp] theorem State.complete_err (out : List Byte) : (s.complete out).err = false := rfl
@[simp] theorem State.complete_errcode (out : List Byte) : (s.complete out).errcode = 0 := rfl
@[simp] theorem State.complete_keyValid (out : List Byte) : (s.complete out).keyValid = s.keyValid := rfl
@[simp] theorem State.complete_nk (out : List Byte) : (s.complete out).nk = s.nk := rfl
@[simp] theorem State.complete_nr (out : List Byte) : (s.complete out).nr = s.nr := rfl
@[simp] theorem State.complete_rk (out : List Byte) : (s.complete out).rk = s.rk := rfl
@[simp] theorem State.complete_keyLen (out : List Byte) : (s.complete out).keyLen = s.keyLen := rfl
@[simp] theorem State.complete_ivLen (out : List Byte) : (s.complete out).ivLen = s.ivLen := rfl
@[simp] theorem State.complete_dinLen (out : List Byte) : (s.complete out).dinLen = s.dinLen := rfl
@[simp] theorem State.complete_pwLen (out : List Byte) : (s.complete out).pwLen = s.pwLen := rfl
@[simp] theorem State.complete_workload (out : List Byte) : (s.complete out).workload = s.workload := rfl
@[simp] theorem State.complete_doutLen (out : List Byte) : (s.complete out).doutLen = BitVec.ofNat 32 out.length := rfl
@[simp] theorem State.complete_mem (out : List Byte) : (s.complete out).mem = s.mem.setOutput out := rfl
@[simp] theorem State.complete_fault (out : List Byte) : (s.complete out).fault = s.fault := rfl
@[simp] theorem State.complete_resetHeld (out : List Byte) : (s.complete out).resetHeld = s.resetHeld := rfl
@[simp] theorem State.complete_bus (out : List Byte) : (s.complete out).bus = s.bus := rfl
@[simp] theorem State.complete_response (out : List Byte) : (s.complete out).response = s.response := rfl
@[simp] theorem State.complete_rngPort (out : List Byte) : (s.complete out).rngPort = s.rngPort := rfl
@[simp] theorem State.complete_draws (out : List Byte) : (s.complete out).draws = s.draws := rfl

/-! `raise E(code)` -/

@[simp] theorem State.raise_params (e : ErrorCode) : (s.raise e).params = s.params := rfl
@[simp] theorem State.raise_cmd (e : ErrorCode) : (s.raise e).cmd = s.cmd := rfl
@[simp] theorem State.raise_busy (e : ErrorCode) : (s.raise e).busy = false := rfl
@[simp] theorem State.raise_done (e : ErrorCode) : (s.raise e).done = true := rfl
@[simp] theorem State.raise_err (e : ErrorCode) : (s.raise e).err = true := rfl
@[simp] theorem State.raise_errcode (e : ErrorCode) : (s.raise e).errcode = e.code := rfl
@[simp] theorem State.raise_keyValid (e : ErrorCode) : (s.raise e).keyValid = s.keyValid := rfl
@[simp] theorem State.raise_nk (e : ErrorCode) : (s.raise e).nk = s.nk := rfl
@[simp] theorem State.raise_nr (e : ErrorCode) : (s.raise e).nr = s.nr := rfl
@[simp] theorem State.raise_rk (e : ErrorCode) : (s.raise e).rk = s.rk := rfl
@[simp] theorem State.raise_keyLen (e : ErrorCode) : (s.raise e).keyLen = s.keyLen := rfl
@[simp] theorem State.raise_ivLen (e : ErrorCode) : (s.raise e).ivLen = s.ivLen := rfl
@[simp] theorem State.raise_dinLen (e : ErrorCode) : (s.raise e).dinLen = s.dinLen := rfl
@[simp] theorem State.raise_pwLen (e : ErrorCode) : (s.raise e).pwLen = s.pwLen := rfl
@[simp] theorem State.raise_workload (e : ErrorCode) : (s.raise e).workload = s.workload := rfl
@[simp] theorem State.raise_doutLen (e : ErrorCode) : (s.raise e).doutLen = 0 := rfl
@[simp] theorem State.raise_mem (e : ErrorCode) : (s.raise e).mem = s.mem.setOutput [] := rfl
@[simp] theorem State.raise_fault (e : ErrorCode) : (s.raise e).fault = s.fault := rfl
@[simp] theorem State.raise_resetHeld (e : ErrorCode) : (s.raise e).resetHeld = s.resetHeld := rfl
@[simp] theorem State.raise_bus (e : ErrorCode) : (s.raise e).bus = s.bus := rfl
@[simp] theorem State.raise_response (e : ErrorCode) : (s.raise e).response = s.response := rfl
@[simp] theorem State.raise_rngPort (e : ErrorCode) : (s.raise e).rngPort = s.rngPort := rfl
@[simp] theorem State.raise_draws (e : ErrorCode) : (s.raise e).draws = s.draws := rfl

/-! starting a command -/

@[simp] theorem State.start_params (v : Word) : (s.start v).params = s.params := rfl
@[simp] theorem State.start_cmd (v : Word) : (s.start v).cmd = v := rfl
@[simp] theorem State.start_busy (v : Word) : (s.start v).busy = true := rfl
@[simp] theorem State.start_done (v : Word) : (s.start v).done = false := rfl
@[simp] theorem State.start_err (v : Word) : (s.start v).err = false := rfl
@[simp] theorem State.start_errcode (v : Word) : (s.start v).errcode = 0 := rfl
@[simp] theorem State.start_keyValid (v : Word) : (s.start v).keyValid = s.keyValid := rfl
@[simp] theorem State.start_nk (v : Word) : (s.start v).nk = s.nk := rfl
@[simp] theorem State.start_nr (v : Word) : (s.start v).nr = s.nr := rfl
@[simp] theorem State.start_rk (v : Word) : (s.start v).rk = s.rk := rfl
@[simp] theorem State.start_keyLen (v : Word) : (s.start v).keyLen = s.keyLen := rfl
@[simp] theorem State.start_ivLen (v : Word) : (s.start v).ivLen = s.ivLen := rfl
@[simp] theorem State.start_dinLen (v : Word) : (s.start v).dinLen = s.dinLen := rfl
@[simp] theorem State.start_pwLen (v : Word) : (s.start v).pwLen = s.pwLen := rfl
@[simp] theorem State.start_workload (v : Word) : (s.start v).workload = s.workload := rfl
@[simp] theorem State.start_doutLen (v : Word) : (s.start v).doutLen = s.doutLen := rfl
@[simp] theorem State.start_mem (v : Word) : (s.start v).mem = s.mem := rfl
@[simp] theorem State.start_fault (v : Word) : (s.start v).fault = s.fault := rfl
@[simp] theorem State.start_resetHeld (v : Word) : (s.start v).resetHeld = s.resetHeld := rfl
@[simp] theorem State.start_bus (v : Word) : (s.start v).bus = s.bus := rfl
@[simp] theorem State.start_response (v : Word) : (s.start v).response = s.response := rfl
@[simp] theorem State.start_rngPort (v : Word) : (s.start v).rngPort = s.rngPort := rfl
@[simp] theorem State.start_draws (v : Word) : (s.start v).draws = s.draws := rfl

/-! recording a model fault -/

@[simp] theorem State.recordFault_params (f : Fault) : (s.recordFault f).params = s.params := rfl
@[simp] theorem State.recordFault_cmd (f : Fault) : (s.recordFault f).cmd = s.cmd := rfl
@[simp] theorem State.recordFault_busy (f : Fault) : (s.recordFault f).busy = s.busy := rfl
@[simp] theorem State.recordFault_done (f : Fault) : (s.recordFault f).done = s.done := rfl
@[simp] theorem State.recordFault_err (f : Fault) : (s.recordFault f).err = s.err := rfl
@[simp] theorem State.recordFault_errcode (f : Fault) : (s.recordFault f).errcode = s.errcode := rfl
@[simp] theorem State.recordFault_keyValid (f : Fault) : (s.recordFault f).keyValid = s.keyValid := rfl
@[simp] theorem State.recordFault_nk (f : Fault) : (s.recordFault f).nk = s.nk := rfl
@[simp] theorem State.recordFault_nr (f : Fault) : (s.recordFault f).nr = s.nr := rfl
@[simp] theorem State.recordFault_rk (f : Fault) : (s.recordFault f).rk = s.rk := rfl
@[simp] theorem State.recordFault_keyLen (f : Fault) : (s.recordFault f).keyLen = s.keyLen := rfl
@[simp] theorem State.recordFault_ivLen (f : Fault) : (s.recordFault f).ivLen = s.ivLen := rfl
@[simp] theorem State.recordFault_dinLen (f : Fault) : (s.recordFault f).dinLen = s.dinLen := rfl
@[simp] theorem State.recordFault_pwLen (f : Fault) : (s.recordFault f).pwLen = s.pwLen := rfl
@[simp] theorem State.recordFault_workload (f : Fault) : (s.recordFault f).workload = s.workload := rfl
@[simp] theorem State.recordFault_doutLen (f : Fault) : (s.recordFault f).doutLen = s.doutLen := rfl
@[simp] theorem State.recordFault_mem (f : Fault) : (s.recordFault f).mem = s.mem := rfl
@[simp] theorem State.recordFault_fault (f : Fault) : (s.recordFault f).fault = some f := rfl
@[simp] theorem State.recordFault_resetHeld (f : Fault) : (s.recordFault f).resetHeld = s.resetHeld := rfl
@[simp] theorem State.recordFault_bus (f : Fault) : (s.recordFault f).bus = s.bus := rfl
@[simp] theorem State.recordFault_response (f : Fault) : (s.recordFault f).response = s.response := rfl
@[simp] theorem State.recordFault_rngPort (f : Fault) : (s.recordFault f).rngPort = s.rngPort := rfl
@[simp] theorem State.recordFault_draws (f : Fault) : (s.recordFault f).draws = s.draws := rfl

/-! a draw of the random source -/

@[simp] theorem State.drawn_params (n : Nat) : (s.drawn n).params = s.params := rfl
@[simp] theorem State.drawn_cmd (n : Nat) : (s.drawn n).cmd = s.cmd := rfl
@[simp] theorem State.drawn_busy (n : Nat) : (s.drawn n).busy = s.busy := rfl
@[simp] theorem State.drawn_done (n : Nat) : (s.drawn n).done = s.done := rfl
@[simp] theorem State.drawn_err (n : Nat) : (s.drawn n).err = s.err := rfl
@[simp] theorem State.drawn_errcode (n : Nat) : (s.drawn n).errcode = s.errcode := rfl
@[simp] theorem State.drawn_keyValid (n : Nat) : (s.drawn n).keyValid = s.keyValid := rfl
@[simp] theorem State.drawn_nk (n : Nat) : (s.drawn n).nk = s.nk := rfl
@[simp] theorem State.drawn_nr (n : Nat) : (s.drawn n).nr = s.nr := rfl
@[simp] theorem State.drawn_rk (n : Nat) : (s.drawn n).rk = s.rk := rfl
@[simp] theorem State.drawn_keyLen (n : Nat) : (s.drawn n).keyLen = s.keyLen := rfl
@[simp] theorem State.drawn_ivLen (n : Nat) : (s.drawn n).ivLen = s.ivLen := rfl
@[simp] theorem State.drawn_dinLen (n : Nat) : (s.drawn n).dinLen = s.dinLen := rfl
@[simp] theorem State.drawn_pwLen (n : Nat) : (s.drawn n).pwLen = s.pwLen := rfl
@[simp] theorem State.drawn_workload (n : Nat) : (s.drawn n).workload = s.workload := rfl
@[simp] theorem State.drawn_doutLen (n : Nat) : (s.drawn n).doutLen = s.doutLen := rfl
@[simp] theorem State.drawn_mem (n : Nat) : (s.drawn n).mem = s.mem := rfl
@[simp] theorem State.drawn_fault (n : Nat) : (s.drawn n).fault = s.fault := rfl
@[simp] theorem State.drawn_resetHeld (n : Nat) : (s.drawn n).resetHeld = s.resetHeld := rfl
@[simp] theorem State.drawn_bus (n : Nat) : (s.drawn n).bus = s.bus := rfl
@[simp] theorem State.drawn_response (n : Nat) : (s.drawn n).response = s.response := rfl
@[simp] theorem State.drawn_rngPort (n : Nat) : (s.drawn n).rngPort = s.rngPort.drop n := rfl
@[simp] theorem State.drawn_draws (n : Nat) : (s.drawn n).draws = s.draws + 1 := rfl

/-! loading the cipher instance -/

@[simp] theorem State.loadInstance_params (key : List Byte) (nk nr : Nat) : (s.loadInstance key nk nr).params = s.params := rfl
@[simp] theorem State.loadInstance_cmd (key : List Byte) (nk nr : Nat) : (s.loadInstance key nk nr).cmd = s.cmd := rfl
@[simp] theorem State.loadInstance_busy (key : List Byte) (nk nr : Nat) : (s.loadInstance key nk nr).busy = s.busy := rfl
@[simp] theorem State.loadInstance_done (key : List Byte) (nk nr : Nat) : (s.loadInstance key nk nr).done = s.done := rfl
@[simp] theorem State.loadInstance_err (key : List Byte) (nk nr : Nat) : (s.loadInstance key nk nr).err = s.err := rfl
@[simp] theorem State.loadInstance_errcode (key : List Byte) (nk nr : Nat) : (s.loadInstance key nk nr).errcode = s.errcode := rfl
@[simp] theorem State.loadInstance_keyValid (key : List Byte) (nk nr : Nat) : (s.loadInstance key nk nr).keyValid = true := rfl
@[simp] theorem State.loadInstance_nk (key : List Byte) (nk nr : Nat) : (s.loadInstance key nk nr).nk = nk := rfl
@[simp] theorem State.loadInstance_nr (key : List Byte) (nk nr : Nat) : (s.loadInstance key nk nr).nr = nr := rfl
@[simp] theorem State.loadInstance_rk (key : List Byte) (nk nr : Nat) : (s.loadInstance key nk nr).rk = storeSchedule (expandKey key nk nr) s.draws := rfl
@[simp] theorem State.loadInstance_keyLen (key : List Byte) (nk nr : Nat) : (s.loadInstance key nk nr).keyLen = s.keyLen := rfl
@[simp] theorem State.loadInstance_ivLen (key : List Byte) (nk nr : Nat) : (s.loadInstance key nk nr).ivLen = s.ivLen := rfl
@[simp] theorem State.loadInstance_dinLen (key : List Byte) (nk nr : Nat) : (s.loadInstance key nk nr).dinLen = s.dinLen := rfl
@[simp] theorem State.loadInstance_pwLen (key : List Byte) (nk nr : Nat) : (s.loadInstance key nk nr).pwLen = s.pwLen := rfl
@[simp] theorem State.loadInstance_workload (key : List Byte) (nk nr : Nat) : (s.loadInstance key nk nr).workload = s.workload := rfl
@[simp] theorem State.loadInstance_doutLen (key : List Byte) (nk nr : Nat) : (s.loadInstance key nk nr).doutLen = s.doutLen := rfl
@[simp] theorem State.loadInstance_mem (key : List Byte) (nk nr : Nat) : (s.loadInstance key nk nr).mem = s.mem := rfl
@[simp] theorem State.loadInstance_fault (key : List Byte) (nk nr : Nat) : (s.loadInstance key nk nr).fault = s.fault := rfl
@[simp] theorem State.loadInstance_resetHeld (key : List Byte) (nk nr : Nat) : (s.loadInstance key nk nr).resetHeld = s.resetHeld := rfl
@[simp] theorem State.loadInstance_bus (key : List Byte) (nk nr : Nat) : (s.loadInstance key nk nr).bus = s.bus := rfl
@[simp] theorem State.loadInstance_response (key : List Byte) (nk nr : Nat) : (s.loadInstance key nk nr).response = s.response := rfl
@[simp] theorem State.loadInstance_rngPort (key : List Byte) (nk nr : Nat) : (s.loadInstance key nk nr).rngPort = s.rngPort := rfl
@[simp] theorem State.loadInstance_draws (key : List Byte) (nk nr : Nat) : (s.loadInstance key nk nr).draws = s.draws + 1 := rfl

/-! a refused access -/

@[simp] theorem State.refuseAccess_params : (s.refuseAccess).params = s.params := rfl
@[simp] theorem State.refuseAccess_cmd : (s.refuseAccess).cmd = s.cmd := rfl
@[simp] theorem State.refuseAccess_busy : (s.refuseAccess).busy = s.busy := rfl
@[simp] theorem State.refuseAccess_done : (s.refuseAccess).done = s.done := rfl
@[simp] theorem State.refuseAccess_err : (s.refuseAccess).err = s.err := rfl
@[simp] theorem State.refuseAccess_errcode : (s.refuseAccess).errcode = s.errcode := rfl
@[simp] theorem State.refuseAccess_keyValid : (s.refuseAccess).keyValid = s.keyValid := rfl
@[simp] theorem State.refuseAccess_nk : (s.refuseAccess).nk = s.nk := rfl
@[simp] theorem State.refuseAccess_nr : (s.refuseAccess).nr = s.nr := rfl
@[simp] theorem State.refuseAccess_rk : (s.refuseAccess).rk = s.rk := rfl
@[simp] theorem State.refuseAccess_keyLen : (s.refuseAccess).keyLen = s.keyLen := rfl
@[simp] theorem State.refuseAccess_ivLen : (s.refuseAccess).ivLen = s.ivLen := rfl
@[simp] theorem State.refuseAccess_dinLen : (s.refuseAccess).dinLen = s.dinLen := rfl
@[simp] theorem State.refuseAccess_pwLen : (s.refuseAccess).pwLen = s.pwLen := rfl
@[simp] theorem State.refuseAccess_workload : (s.refuseAccess).workload = s.workload := rfl
@[simp] theorem State.refuseAccess_doutLen : (s.refuseAccess).doutLen = s.doutLen := rfl
@[simp] theorem State.refuseAccess_mem : (s.refuseAccess).mem = s.mem := rfl
@[simp] theorem State.refuseAccess_fault : (s.refuseAccess).fault = some .busError := rfl
@[simp] theorem State.refuseAccess_resetHeld : (s.refuseAccess).resetHeld = s.resetHeld := rfl
@[simp] theorem State.refuseAccess_bus : (s.refuseAccess).bus = s.bus := rfl
@[simp] theorem State.refuseAccess_response : (s.refuseAccess).response = .busError := rfl
@[simp] theorem State.refuseAccess_rngPort : (s.refuseAccess).rngPort = s.rngPort := rfl
@[simp] theorem State.refuseAccess_draws : (s.refuseAccess).draws = s.draws := rfl

/-! an access while busy -/

@[simp] theorem State.violateProtocol_params : (s.violateProtocol).params = s.params := rfl
@[simp] theorem State.violateProtocol_cmd : (s.violateProtocol).cmd = s.cmd := rfl
@[simp] theorem State.violateProtocol_busy : (s.violateProtocol).busy = s.busy := rfl
@[simp] theorem State.violateProtocol_done : (s.violateProtocol).done = s.done := rfl
@[simp] theorem State.violateProtocol_err : (s.violateProtocol).err = s.err := rfl
@[simp] theorem State.violateProtocol_errcode : (s.violateProtocol).errcode = s.errcode := rfl
@[simp] theorem State.violateProtocol_keyValid : (s.violateProtocol).keyValid = s.keyValid := rfl
@[simp] theorem State.violateProtocol_nk : (s.violateProtocol).nk = s.nk := rfl
@[simp] theorem State.violateProtocol_nr : (s.violateProtocol).nr = s.nr := rfl
@[simp] theorem State.violateProtocol_rk : (s.violateProtocol).rk = s.rk := rfl
@[simp] theorem State.violateProtocol_keyLen : (s.violateProtocol).keyLen = s.keyLen := rfl
@[simp] theorem State.violateProtocol_ivLen : (s.violateProtocol).ivLen = s.ivLen := rfl
@[simp] theorem State.violateProtocol_dinLen : (s.violateProtocol).dinLen = s.dinLen := rfl
@[simp] theorem State.violateProtocol_pwLen : (s.violateProtocol).pwLen = s.pwLen := rfl
@[simp] theorem State.violateProtocol_workload : (s.violateProtocol).workload = s.workload := rfl
@[simp] theorem State.violateProtocol_doutLen : (s.violateProtocol).doutLen = s.doutLen := rfl
@[simp] theorem State.violateProtocol_mem : (s.violateProtocol).mem = s.mem := rfl
@[simp] theorem State.violateProtocol_fault : (s.violateProtocol).fault = some .hostProtocolViolation := rfl
@[simp] theorem State.violateProtocol_resetHeld : (s.violateProtocol).resetHeld = s.resetHeld := rfl
@[simp] theorem State.violateProtocol_bus : (s.violateProtocol).bus = s.bus := rfl
@[simp] theorem State.violateProtocol_response : (s.violateProtocol).response = .idle := rfl
@[simp] theorem State.violateProtocol_rngPort : (s.violateProtocol).rngPort = s.rngPort := rfl
@[simp] theorem State.violateProtocol_draws : (s.violateProtocol).draws = s.draws := rfl

/-! the reset input -/

@[simp] theorem State.resetInput_params : (s.resetInput).params = s.params := rfl
@[simp] theorem State.resetInput_cmd : (s.resetInput).cmd = 0 := rfl
@[simp] theorem State.resetInput_busy : (s.resetInput).busy = false := rfl
@[simp] theorem State.resetInput_done : (s.resetInput).done = false := rfl
@[simp] theorem State.resetInput_err : (s.resetInput).err = false := rfl
@[simp] theorem State.resetInput_errcode : (s.resetInput).errcode = 0 := rfl
@[simp] theorem State.resetInput_keyValid : (s.resetInput).keyValid = false := rfl
@[simp] theorem State.resetInput_nk : (s.resetInput).nk = 0 := rfl
@[simp] theorem State.resetInput_nr : (s.resetInput).nr = 0 := rfl
@[simp] theorem State.resetInput_rk : (s.resetInput).rk = Vector.replicate 15 (Block.ofFn fun _ _ => 0) := rfl
@[simp] theorem State.resetInput_keyLen : (s.resetInput).keyLen = 0 := rfl
@[simp] theorem State.resetInput_ivLen : (s.resetInput).ivLen = 0 := rfl
@[simp] theorem State.resetInput_dinLen : (s.resetInput).dinLen = 0 := rfl
@[simp] theorem State.resetInput_pwLen : (s.resetInput).pwLen = 0 := rfl
@[simp] theorem State.resetInput_workload : (s.resetInput).workload = 0 := rfl
@[simp] theorem State.resetInput_doutLen : (s.resetInput).doutLen = 0 := rfl
@[simp] theorem State.resetInput_mem : (s.resetInput).mem = [] := rfl
@[simp] theorem State.resetInput_fault : (s.resetInput).fault = s.fault := rfl
@[simp] theorem State.resetInput_resetHeld : (s.resetInput).resetHeld = false := rfl
@[simp] theorem State.resetInput_bus : (s.resetInput).bus = s.bus := rfl
@[simp] theorem State.resetInput_response : (s.resetInput).response = .idle := rfl
@[simp] theorem State.resetInput_rngPort : (s.resetInput).rngPort = s.rngPort := rfl
@[simp] theorem State.resetInput_draws : (s.resetInput).draws = s.draws := rfl

/-! asserting reset, and an access while it is held -/

@[simp] theorem State.assertReset_params : (s.assertReset).params = s.params := rfl
@[simp] theorem State.assertReset_cmd : (s.assertReset).cmd = s.cmd := rfl
@[simp] theorem State.assertReset_busy : (s.assertReset).busy = s.busy := rfl
@[simp] theorem State.assertReset_done : (s.assertReset).done = s.done := rfl
@[simp] theorem State.assertReset_err : (s.assertReset).err = s.err := rfl
@[simp] theorem State.assertReset_errcode : (s.assertReset).errcode = s.errcode := rfl
@[simp] theorem State.assertReset_keyValid : (s.assertReset).keyValid = s.keyValid := rfl
@[simp] theorem State.assertReset_nk : (s.assertReset).nk = s.nk := rfl
@[simp] theorem State.assertReset_nr : (s.assertReset).nr = s.nr := rfl
@[simp] theorem State.assertReset_rk : (s.assertReset).rk = s.rk := rfl
@[simp] theorem State.assertReset_keyLen : (s.assertReset).keyLen = s.keyLen := rfl
@[simp] theorem State.assertReset_ivLen : (s.assertReset).ivLen = s.ivLen := rfl
@[simp] theorem State.assertReset_dinLen : (s.assertReset).dinLen = s.dinLen := rfl
@[simp] theorem State.assertReset_pwLen : (s.assertReset).pwLen = s.pwLen := rfl
@[simp] theorem State.assertReset_workload : (s.assertReset).workload = s.workload := rfl
@[simp] theorem State.assertReset_doutLen : (s.assertReset).doutLen = s.doutLen := rfl
@[simp] theorem State.assertReset_mem : (s.assertReset).mem = s.mem := rfl
@[simp] theorem State.assertReset_fault : (s.assertReset).fault = s.fault := rfl
@[simp] theorem State.assertReset_resetHeld : (s.assertReset).resetHeld = true := rfl
@[simp] theorem State.assertReset_bus : (s.assertReset).bus = s.bus := rfl
@[simp] theorem State.assertReset_response : (s.assertReset).response = s.response := rfl
@[simp] theorem State.assertReset_rngPort : (s.assertReset).rngPort = s.rngPort := rfl
@[simp] theorem State.assertReset_draws : (s.assertReset).draws = s.draws := rfl

@[simp] theorem State.unanswered_params : (s.unanswered).params = s.params := rfl
@[simp] theorem State.unanswered_cmd : (s.unanswered).cmd = s.cmd := rfl
@[simp] theorem State.unanswered_busy : (s.unanswered).busy = s.busy := rfl
@[simp] theorem State.unanswered_done : (s.unanswered).done = s.done := rfl
@[simp] theorem State.unanswered_err : (s.unanswered).err = s.err := rfl
@[simp] theorem State.unanswered_errcode : (s.unanswered).errcode = s.errcode := rfl
@[simp] theorem State.unanswered_keyValid : (s.unanswered).keyValid = s.keyValid := rfl
@[simp] theorem State.unanswered_nk : (s.unanswered).nk = s.nk := rfl
@[simp] theorem State.unanswered_nr : (s.unanswered).nr = s.nr := rfl
@[simp] theorem State.unanswered_rk : (s.unanswered).rk = s.rk := rfl
@[simp] theorem State.unanswered_keyLen : (s.unanswered).keyLen = s.keyLen := rfl
@[simp] theorem State.unanswered_ivLen : (s.unanswered).ivLen = s.ivLen := rfl
@[simp] theorem State.unanswered_dinLen : (s.unanswered).dinLen = s.dinLen := rfl
@[simp] theorem State.unanswered_pwLen : (s.unanswered).pwLen = s.pwLen := rfl
@[simp] theorem State.unanswered_workload : (s.unanswered).workload = s.workload := rfl
@[simp] theorem State.unanswered_doutLen : (s.unanswered).doutLen = s.doutLen := rfl
@[simp] theorem State.unanswered_mem : (s.unanswered).mem = s.mem := rfl
@[simp] theorem State.unanswered_fault : (s.unanswered).fault = s.fault := rfl
@[simp] theorem State.unanswered_resetHeld : (s.unanswered).resetHeld = s.resetHeld := rfl
@[simp] theorem State.unanswered_bus : (s.unanswered).bus = s.bus := rfl
@[simp] theorem State.unanswered_response : (s.unanswered).response = .idle := rfl
@[simp] theorem State.unanswered_rngPort : (s.unanswered).rngPort = s.rngPort := rfl
@[simp] theorem State.unanswered_draws : (s.unanswered).draws = s.draws := rfl

/-- A release is the state after reset if reset was asserted, and nothing otherwise (R260). -/
theorem State.releaseReset_of_held (h : s.resetHeld = true) : s.releaseReset = s.resetInput := by simp [State.releaseReset, h]

theorem State.releaseReset_of_not_held (h : s.resetHeld = false) : s.releaseReset = s := by simp [State.releaseReset, h]

/-! The reset state. -/

theorem State.reset_eq : State.reset = State.resetWith Params.default := rfl

/-- A finished command is a completion or an error. -/
@[simp] theorem State.finish_ok (out : List Byte) : s.finish (.ok out) = s.complete out := rfl

/-- A finished command is a completion or an error. -/
@[simp] theorem State.finish_error (e : ErrorCode) : s.finish (.error e) = s.raise e := rfl

end Sys2Proof.Machine
end

