-- ==== Sys2Proof/Laws/Ops.lean ====
section
/-! SUPPORT. What each shared operation of the commands can do, and how any command can end: the lemmas later proofs cite
instead of unfolding `exec` (10_state.md R30 to R33, R36; 60_exceptions.md R231, R232). -/

namespace Sys2Proof.Machine

/-- A command's checks end it with their first failure, or its body runs (R231). -/
theorem afterChecks_cases (checks : List Check) (s body : State) :
    (∃ e, firstFailure checks = some e ∧ afterChecks checks s body = s.raise e) ∨
      (firstFailure checks = none ∧ afterChecks checks s body = body) := by
  unfold afterChecks
  split
  · rename_i e h; exact .inl ⟨e, h, rfl⟩
  · rename_i h; exact .inr ⟨h, rfl⟩

theorem afterChecks_of_none {checks : List Check} (h : firstFailure checks = none) (s body : State) :
    afterChecks checks s body = body := by simp [afterChecks, h]

theorem afterChecks_of_some {checks : List Check} {e : ErrorCode} (h : firstFailure checks = some e) (s body : State) :
    afterChecks checks s body = s.raise e := by simp [afterChecks, h]

/-- Reading an operand gives its bytes to the rest of the command, or records `UninitialisedOperand` (R36). -/
theorem withOperand_cases (s : State) (b : Buffer) (n : Nat) (body : List Byte → State) :
    (∃ x, operand s b n = some x ∧ withOperand s b n body = body x) ∨
      (operand s b n = none ∧ withOperand s b n body = s.recordFault .uninitialisedOperand) := by
  unfold withOperand
  split
  · rename_i x h; exact .inl ⟨x, h, rfl⟩
  · rename_i h; exact .inr ⟨h, rfl⟩

theorem withOperand_of_some {s : State} {b : Buffer} {n : Nat} {x : List Byte} (h : operand s b n = some x)
    (body : List Byte → State) : withOperand s b n body = body x := by simp [withOperand, h]

theorem withOperand_of_none {s : State} {b : Buffer} {n : Nat} (h : operand s b n = none) (body : List Byte → State) :
    withOperand s b n body = s.recordFault .uninitialisedOperand := by simp [withOperand, h]

/-- An operand has the length asked for. -/
theorem length_of_operand {s : State} {b : Buffer} {n : Nat} {x : List Byte} (h : operand s b n = some x) :
    x.length = n := Memory.length_of_getRange h

/-- What passing checks say. -/
@[simp] theorem firstFailure_nil : firstFailure [] = none := rfl

theorem firstFailure_cons (c : Check) (cs : List Check) :
    firstFailure (c :: cs) = if c.1 then some c.2 else firstFailure cs := rfl

theorem firstFailure_eq_none {cs : List Check} : firstFailure cs = none ↔ ∀ c ∈ cs, c.1 = false := by
  induction cs with
  | nil => simp
  | cons c cs ih =>
    rw [firstFailure_cons]
    cases h : c.1 <;> simp [h, ih]

/-- A mode command ends with an error of its checks, with `UninitialisedOperand`, or with what the mode gives for the IV
and the message read (R180). -/
theorem modeCommand_cases (checks : List Check) (s : State)
    (mode : List Byte → List Byte → Except ErrorCode (List Byte)) :
    (∃ e, firstFailure checks = some e ∧ modeCommand checks s mode = s.raise e) ∨
      (firstFailure checks = none ∧ modeCommand checks s mode = s.recordFault .uninitialisedOperand) ∨
      (firstFailure checks = none ∧ ∃ iv x, operand s .iv 16 = some iv ∧ operand s .din s.dinLen.toNat = some x ∧
        modeCommand checks s mode = s.finish (mode iv x)) := by
  unfold modeCommand
  rcases afterChecks_cases checks s _ with ⟨e, he, h⟩ | ⟨hn, h⟩
  · exact .inl ⟨e, he, h⟩
  · rw [h]
    rcases withOperand_cases s .iv 16 _ with ⟨iv, hiv, h⟩ | ⟨_, h⟩
    · rw [h]
      rcases withOperand_cases s .din s.dinLen.toNat _ with ⟨x, hx, h⟩ | ⟨_, h⟩
      · exact .inr (.inr ⟨hn, iv, x, hiv, hx, h⟩)
      · exact .inr (.inl ⟨hn, h⟩)
    · exact .inr (.inl ⟨hn, h⟩)

/-- An envelope command ends with an error of its checks, with `UninitialisedOperand`, or with its body on the password
and the input read (R214, R215). -/
theorem envelopeCommand_cases (checks : List Check) (s : State) (body : List Byte → List Byte → State) :
    (∃ e, firstFailure checks = some e ∧ envelopeCommand checks s body = s.raise e) ∨
      (firstFailure checks = none ∧ envelopeCommand checks s body = s.recordFault .uninitialisedOperand) ∨
      (firstFailure checks = none ∧ ∃ pw x, operand s .pw s.pwLen.toNat = some pw ∧
        operand s .din s.dinLen.toNat = some x ∧ envelopeCommand checks s body = body pw x) := by
  unfold envelopeCommand
  rcases afterChecks_cases checks s _ with ⟨e, he, h⟩ | ⟨hn, h⟩
  · exact .inl ⟨e, he, h⟩
  · rw [h]
    rcases withOperand_cases s .pw s.pwLen.toNat _ with ⟨pw, hpw, h⟩ | ⟨_, h⟩
    · rw [h]
      rcases withOperand_cases s .din s.dinLen.toNat _ with ⟨x, hx, h⟩ | ⟨_, h⟩
      · exact .inr (.inr ⟨hn, pw, x, hpw, hx, h⟩)
      · exact .inr (.inl ⟨hn, h⟩)
    · exact .inr (.inl ⟨hn, h⟩)

/-- How a command `i` can end from `s`: with an error; with the recorded fault; or with `Complete(out)`, for `KEYEXP`
after loading an instance of a legal size, for `ENV_ENC` after its draw. -/
inductive Ending (i : Instr) (s : State) : State → Prop where
  | error (e : ErrorCode) : Ending i s (s.raise e)
  | unread : Ending i s (s.recordFault .uninitialisedOperand)
  | output (out : List Byte) (hi : i ≠ .keyexp) (he : i ≠ .envEnc)
      (hl : out.length ≤ s.params.dinMax + 31) : Ending i s (s.complete out)
  | loaded (key : List Byte) (nk nr : Nat) (hi : i = .keyexp) (hs : keySize s.keyLen.toNat = some (nk, nr))
      (hk : operand s .key s.keyLen.toNat = some key) : Ending i s ((s.loadInstance key nk nr).complete [])
  | sealed (out : List Byte) (hi : i = .envEnc) (hl : out.length ≤ s.params.prefixLen + s.params.dinMax + 16) :
      Ending i s ((s.drawn 32).complete out)

/-- A passing capacity check bounds the input. -/
theorem dinLen_le_of_capacity {s : State} (h : (dinCapacityCheck s).1 = false) : s.dinLen.toNat ≤ s.params.dinMax := by
  simpa [dinCapacityCheck] using h

theorem Ending.of_finish {i : Instr} {s : State} (hi : i ≠ .keyexp) (he : i ≠ .envEnc)
    {r : Except ErrorCode (List Byte)} (hr : ∀ out, r = .ok out → out.length ≤ s.params.dinMax + 31) :
    Ending i s (s.finish r) := by
  cases r with
  | ok out => exact .output out hi he (hr out rfl)
  | error e => exact .error e

/-- The ending of a mode command whose checks bound the input and whose mode lengthens it by at most 31 bytes. -/
theorem Ending.of_modeCommand {i : Instr} {s : State} (hi : i ≠ .keyexp) (he : i ≠ .envEnc) {checks : List Check}
    (hc : dinCapacityCheck s ∈ checks) {mode : List Byte → List Byte → Except ErrorCode (List Byte)}
    (hm : ∀ iv x out, mode iv x = .ok out → out.length ≤ x.length + 31) : Ending i s (modeCommand checks s mode) := by
  rcases modeCommand_cases checks s mode with ⟨e, _, h⟩ | ⟨_, h⟩ | ⟨hn, iv, x, _, hx, h⟩
  · rw [h]; exact .error e
  · rw [h]; exact .unread
  · rw [h]
    refine .of_finish hi he fun out ho => ?_
    have h1 := hm iv x out ho
    have h2 := dinLen_le_of_capacity (firstFailure_eq_none.mp hn _ hc)
    rw [length_of_operand hx] at h1
    omega

theorem Ending.of_blockCommand {i : Instr} {s : State} (hi : i ≠ .keyexp) (he : i ≠ .envEnc) (f : BlockFn) :
    Ending i s (blockCommand s f) := by
  unfold blockCommand
  rcases afterChecks_cases [noKeyCheck s, oneBlockCheck s] s _ with ⟨e, _, h⟩ | ⟨_, h⟩
  · rw [h]; exact .error e
  · rw [h]
    rcases withOperand_cases s .din 16 _ with ⟨x, _, h⟩ | ⟨_, h⟩
    · rw [h]; exact .output _ hi he (by simp)
    · rw [h]; exact .unread

/-- A command whose only check is the capacity of its input. -/
theorem Ending.of_dinCommand {i : Instr} {s : State} (hi : i ≠ .keyexp) (he : i ≠ .envEnc)
    {f : List Byte → Except ErrorCode (List Byte)} (hf : ∀ x out, f x = .ok out → out.length ≤ x.length + 31) :
    Ending i s (afterChecks [dinCapacityCheck s] s <| withOperand s .din s.dinLen.toNat fun x => s.finish (f x)) := by
  rcases afterChecks_cases [dinCapacityCheck s] s _ with ⟨e, _, h⟩ | ⟨hn, h⟩
  · rw [h]; exact .error e
  · rw [h]
    rcases withOperand_cases s .din s.dinLen.toNat _ with ⟨x, hx, h⟩ | ⟨_, h⟩
    · rw [h]
      refine .of_finish hi he fun out ho => ?_
      have h1 := hf x out ho
      have h2 := dinLen_le_of_capacity (firstFailure_eq_none.mp hn (dinCapacityCheck s) (by simp))
      rw [length_of_operand hx] at h1
      omega
    · rw [h]; exact .unread

theorem dinLen_le_of_envelopeCapacity {s : State} (h : (envelopeCapacityCheck s).1 = false) :
    s.dinLen.toNat ≤ s.params.dinMax := by
  simp only [envelopeCapacityCheck, decide_eq_false_iff_not] at h
  omega

/-- EVERY COMMAND, from every state, answers a next state, and that state is one of the endings (R30, R33). -/
theorem exec_ending (i : Instr) (s : State) : ∃ t, exec i s = .next t ∧ Ending i s t := by
  cases i
  case keyexp =>
    refine ⟨_, rfl, ?_⟩
    split
    · exact .error _
    · rename_i nk nr h
      rcases withOperand_cases s .key s.keyLen.toNat _ with ⟨x, hx, h'⟩ | ⟨_, h'⟩
      · rw [h']; exact .loaded x nk nr rfl h hx
      · rw [h']; exact .unread
  case encBlk => exact ⟨_, rfl, .of_blockCommand (by decide) (by decide) _⟩
  case decBlk => exact ⟨_, rfl, .of_blockCommand (by decide) (by decide) _⟩
  case encCbc =>
    refine ⟨_, rfl, .of_modeCommand (by decide) (by decide) (by simp [modeChecks]) fun iv x out h => ?_⟩
    obtain rfl := Except.ok.inj h
    simp; omega
  case decCbc =>
    refine ⟨_, rfl, .of_modeCommand (by decide) (by decide) (by simp [alignedModeChecks]) fun iv x out h => ?_⟩
    have := length_cbcDecrypt h; omega
  case encPcbc =>
    refine ⟨_, rfl, .of_modeCommand (by decide) (by decide) (by simp [modeChecks]) fun iv x out h => ?_⟩
    obtain rfl := Except.ok.inj h
    simp; omega
  case decPcbc =>
    refine ⟨_, rfl, .of_modeCommand (by decide) (by decide) (by simp [alignedModeChecks]) fun iv x out h => ?_⟩
    have := length_pcbcDecrypt h; omega
  case encCfb =>
    refine ⟨_, rfl, .of_modeCommand (by decide) (by decide) (by simp [modeChecks]) fun iv x out h => ?_⟩
    obtain rfl := Except.ok.inj h
    simp
  case decCfb =>
    refine ⟨_, rfl, .of_modeCommand (by decide) (by decide) (by simp [modeChecks]) fun iv x out h => ?_⟩
    obtain rfl := Except.ok.inj h
    simp
  case encOfb =>
    refine ⟨_, rfl, .of_modeCommand (by decide) (by decide) (by simp [modeChecks]) fun iv x out h => ?_⟩
    obtain rfl := Except.ok.inj h
    simp
  case decOfb =>
    refine ⟨_, rfl, .of_modeCommand (by decide) (by decide) (by simp [modeChecks]) fun iv x out h => ?_⟩
    obtain rfl := Except.ok.inj h
    simp
  case encCtr =>
    refine ⟨_, rfl, .of_modeCommand (by decide) (by decide) (by simp [modeChecks]) fun iv x out h => ?_⟩
    obtain rfl := Except.ok.inj h
    simp
  case decCtr =>
    refine ⟨_, rfl, .of_modeCommand (by decide) (by decide) (by simp [modeChecks]) fun iv x out h => ?_⟩
    obtain rfl := Except.ok.inj h
    simp
  case pad =>
    refine ⟨_, rfl, .of_dinCommand (f := fun x => .ok (pkcsPad x)) (by decide) (by decide) fun x out h => ?_⟩
    obtain rfl := Except.ok.inj h
    simp; omega
  case unpad =>
    refine ⟨_, rfl, .of_dinCommand (f := pkcsUnpad) (by decide) (by decide) fun x out h => ?_⟩
    have := length_pkcsUnpad h; omega
  case envEnc =>
    refine ⟨_, rfl, ?_⟩
    rcases envelopeCommand_cases [envelopeCapacityCheck s, workloadCheck s] s _ with
      ⟨e, _, h⟩ | ⟨_, h⟩ | ⟨hn, pw, x, _, hx, h⟩
    · rw [h]; exact .error e
    · rw [h]; exact .unread
    · rw [h]
      refine .sealed _ rfl ?_
      have h2 := dinLen_le_of_envelopeCapacity (firstFailure_eq_none.mp hn (envelopeCapacityCheck s) (by simp))
      have h3 := length_of_operand hx
      rw [length_sealEnvelope]
      simp [randomBytes, Params.prefixLen]
      omega
  case envDec =>
    refine ⟨_, rfl, ?_⟩
    rcases envelopeCommand_cases [envelopeCapacityCheck s, workloadCheck s, prefixCheck s] s _ with
      ⟨e, _, h⟩ | ⟨_, h⟩ | ⟨hn, pw, x, _, hx, h⟩
    · rw [h]; exact .error e
    · rw [h]; exact .unread
    · rw [h]
      refine .of_finish (by decide) (by decide) fun out ho => ?_
      have h1 := length_openEnvelope ho
      have h2 := dinLen_le_of_envelopeCapacity (firstFailure_eq_none.mp hn (envelopeCapacityCheck s) (by simp))
      rw [length_of_operand hx] at h1
      omega

end Sys2Proof.Machine
end

