-- ==== Sys2Proof/Laws/Step.lean ====
section
/-! SUPPORT. What one step can do (10_state.md R30; 60_exceptions.md R236), and what one host access can do (20_memory.md
R44 to R46): the inversion lemmas every invariant is derived from. -/

namespace Sys2Proof.Machine

/-- The state with the first event of the schedule taken. -/
def State.popped (s : State) : State := { s with bus := s.bus.tail }

/-- Taking an event off the schedule changes the schedule alone. -/
theorem State.popped_of_nil {s : State} (h : s.bus = []) : s.popped = s := by
  obtain ⟨⟩ := s
  simp_all [State.popped]

/-- A host read is refused, violates the protocol, or changes the response and the count of free values alone (R46, R51). -/
theorem hostRead_cases (s : State) (addr n : Nat) :
    hostRead s addr n = s.refuseAccess ∨ hostRead s addr n = s.violateProtocol ∨
      ∃ r d, hostRead s addr n = { s with response := r, draws := d } := by
  unfold hostRead
  split
  · exact .inl rfl
  · split
    · exact .inr (.inl rfl)
    · split
      · exact .inr (.inr ⟨_, _, rfl⟩)
      · exact .inr (.inr ⟨_, _, rfl⟩)

/-- A legal access of bytes lies in its buffer (R40, R42). -/
theorem targetAt_bytes {p : Params} {off n k : Nat} {b : Buffer} (h : targetAt p off n = some (.bytes b k)) :
    off = b.base + k ∧ k + n ≤ b.size p := by
  unfold targetAt at h
  split at h
  · split at h
    · cases hr : regAt off <;> simp [hr] at h
    · simp at h
  · split at h
    · simp at h
    · rename_i c hc
      have hin := List.find?_some hc
      simp only [inBuffer, Bool.and_eq_true, decide_eq_true_eq] at hin
      split at h
      · rename_i hn
        injection h with h; injection h with h1 h2; subst h1 h2; subst hn
        omega
      · split at h
        · injection h with h; injection h with h1 h2; subst h1 h2
          omega
        · simp at h

theorem target_bytes {p : Params} {addr n k : Nat} {b : Buffer} (h : target p addr n = some (.bytes b k)) :
    k + n ≤ b.size p := by
  unfold target at h
  obtain ⟨off, -, h⟩ := Option.bind_eq_some_iff.mp h
  exact (targetAt_bytes h).2

/-- A host write is refused, violates the protocol, writes a register while idle, or stores bytes of an input buffer while
idle (R44, R45). -/
theorem hostWrite_cases (s : State) (addr n : Nat) (v : Word) :
    hostWrite s addr n v = s.refuseAccess ∨ hostWrite s addr n v = s.violateProtocol ∨
      (s.busy = false ∧ ∃ r, target s.params addr n = some (.reg r) ∧
        hostWrite s addr n v = { s.writeReg v r with response := .written }) ∨
      (s.busy = false ∧ ∃ b k, b ≠ .dout ∧ k + n ≤ b.size s.params ∧ target s.params addr n = some (.bytes b k) ∧
        hostWrite s addr n v =
          { s with mem := s.mem.setRange (b.base + k) (laneBytes n v), response := .written }) := by
  unfold hostWrite
  split
  · exact .inl rfl
  · rename_i t ht
    split
    · exact .inl rfl
    · rename_i hro
      split
      · exact .inr (.inl rfl)
      · rename_i hb
        have hb : s.busy = false := by simpa using hb
        split
        · exact .inr (.inr (.inl ⟨hb, _, ht, rfl⟩))
        · rename_i b k
          refine .inr (.inr (.inr ⟨hb, b, k, ?_, target_bytes ht, ht, rfl⟩))
          rintro rfl
          exact hro rfl

/-- What a core's turn can do: nothing while idle or while reset is held; else an illegal word ends, or a command does. -/
theorem coreTurn_cases {u t : State} (h : coreTurn u = .next t) :
    ((u.busy = false ∨ u.resetHeld = true) ∧ t = u) ∨
      (u.busy = true ∧ u.resetHeld = false ∧
        ((∃ e, decode u.cmd = .error e ∧ t = u.raise .illegalCommand) ∨
          ∃ i, decode u.cmd = .ok i ∧ exec i u = .next t ∧ Ending i u t)) := by
  unfold coreTurn at h
  split at h <;> rename_i hrun
  · simp only [Bool.and_eq_true, Bool.not_eq_true'] at hrun
    refine .inr ⟨hrun.1, hrun.2, ?_⟩
    unfold executeWord at h
    split at h
    · rename_i i hi
      obtain ⟨t', ht', he⟩ := exec_ending i u
      obtain rfl : t' = t := by rw [ht'] at h; injection h
      exact .inr ⟨i, hi, ht', he⟩
    · rename_i e he
      injection h with h
      exact .inl ⟨e, he, h.symm⟩
  · injection h with h
    refine .inl ⟨?_, h.symm⟩
    simp only [Bool.and_eq_true, Bool.not_eq_true'] at hrun
    cases hb : u.busy <;> cases hr : u.resetHeld <;> simp_all

/-- What one step can do: no fault is recorded, and it is a host access that reset lets through, one that it leaves
unanswered, a change of the reset input, or the core's turn. -/
theorem step_cases {s t : State} (h : step s = .next t) :
    s.fault = none ∧
      ((∃ addr n, s.bus.head? = some (.read addr n) ∧ s.resetHeld = false ∧ t = hostRead s.popped addr n) ∨
        (∃ addr n v, s.bus.head? = some (.write addr n v) ∧ s.resetHeld = false ∧ t = hostWrite s.popped addr n v) ∨
        (((∃ addr n, s.bus.head? = some (.read addr n)) ∨ ∃ addr n v, s.bus.head? = some (.write addr n v)) ∧
          s.resetHeld = true ∧ t = s.popped.unanswered) ∨
        (s.bus.head? = some .assertReset ∧ t = s.popped.assertReset) ∨
        (s.bus.head? = some .releaseReset ∧ t = s.popped.releaseReset) ∨
        ((s.bus = [] ∨ s.bus.head? = some .core) ∧ coreTurn s.popped = .next t)) := by
  unfold step at h
  split at h
  · exact absurd h (by simp)
  · rename_i hf
    refine ⟨hf, ?_⟩
    unfold runNext at h
    split at h
    · rename_i hbus
      rw [State.popped_of_nil hbus]
      exact .inr (.inr (.inr (.inr (.inr ⟨.inl hbus, h⟩))))
    · rename_i e rest hbus
      have hp : { s with bus := rest } = s.popped := by simp [State.popped, hbus]
      have hr : s.popped.resetHeld = s.resetHeld := rfl
      have hh : s.bus.head? = some e := by simp [hbus]
      rw [hp] at h
      cases e with
      | read addr n =>
        injection h with h
        rw [hr] at h
        split at h <;> rename_i hx
        · exact .inr (.inr (.inl ⟨.inl ⟨addr, n, hh⟩, hx, h.symm⟩))
        · exact .inl ⟨addr, n, hh, by simpa using hx, h.symm⟩
      | write addr n v =>
        injection h with h
        rw [hr] at h
        split at h <;> rename_i hx
        · exact .inr (.inr (.inl ⟨.inr ⟨addr, n, v, hh⟩, hx, h.symm⟩))
        · exact .inr (.inl ⟨addr, n, v, hh, by simpa using hx, h.symm⟩)
      | assertReset => injection h with h; exact .inr (.inr (.inr (.inl ⟨hh, h.symm⟩)))
      | releaseReset => injection h with h; exact .inr (.inr (.inr (.inr (.inl ⟨hh, h.symm⟩))))
      | core => exact .inr (.inr (.inr (.inr (.inr ⟨.inr hh, h⟩))))

end Sys2Proof.Machine
end

