-- ==== Sys2Proof/Laws/Bus.lean ====
section
/-! SUPPORT. The address map under legal parameters (00_scope.md R5; 20_memory.md R40, R42), and a step that takes an event off
the schedule (log 8). -/

namespace Sys2Proof.Machine

/-- What legal parameters bound (R5). -/
theorem Params.bounds_of_wf {p : Params} (h : p.wf = true) :
    p.dinMax % 16 = 0 ∧ 16 ≤ p.dinMax ∧ p.dinMax ≤ 65280 ∧ p.pwMax % 4 = 0 ∧ p.pwMax ≤ 4096 ∧
      (p.tagLen = 16 ∨ p.tagLen = 32) ∧ (p.envKeyLen = 16 ∨ p.envKeyLen = 24 ∨ p.envKeyLen = 32) := by
  simp only [Params.wf, Params.dinMaxLegal, Params.pwMaxLegal, Params.tagLenLegal, Params.keyLensLegal,
    Bool.and_eq_true, Bool.or_eq_true, beq_iff_eq, decide_eq_true_eq] at h
  omega

theorem inBuffer_iff (p : Params) (b : Buffer) (off : Nat) :
    inBuffer p b off = true ↔ b.base ≤ off ∧ off < b.base + b.size p := by
  simp [inBuffer]

/-- No offset lies in two buffers (R40). -/
theorem inBuffer_unique {p : Params} (h : p.wf = true) {b c : Buffer} {off : Nat} (hb : inBuffer p b off = true)
    (hc : inBuffer p c off = true) : b = c := by
  have := Params.bounds_of_wf h
  rw [inBuffer_iff] at hb hc
  cases b <;> cases c <;>
    first
    | rfl
    | exfalso; simp only [Buffer.base, Buffer.size, Params.doutMax] at hb hc; omega

/-- The buffer found at an offset is the one the offset lies in (R40). -/
theorem bufferAt_iff {p : Params} (h : p.wf = true) (b : Buffer) (off : Nat) :
    bufferAt p off = some b ↔ inBuffer p b off = true := by
  unfold bufferAt
  constructor
  · intro hf
    exact List.find?_some (p := fun b => inBuffer p b off) hf
  · intro hb
    cases hf : List.find? (fun b => inBuffer p b off) [Buffer.key, .iv, .pw, .din, .dout] with
    | none =>
      rw [List.find?_eq_none] at hf
      exact absurd hb (hf b (by cases b <;> simp))
    | some c => rw [inBuffer_unique h (List.find?_some (p := fun b => inBuffer p b off) hf) hb]

theorem Buffer.base_ge (b : Buffer) : 0x100 ≤ b.base := by cases b <;> decide

theorem Buffer.base_aligned (b : Buffer) : b.base % 4 = 0 := by cases b <;> decide

/-- Every buffer lies in the window (R40). -/
theorem Buffer.end_le_window {p : Params} (h : p.wf = true) (b : Buffer) : b.base + b.size p ≤ windowSize := by
  have := Params.bounds_of_wf h
  cases b <;> simp only [Buffer.base, Buffer.size, Params.doutMax, windowSize] <;> omega

/-- An access of one byte, or of four aligned bytes, inside a buffer is to that buffer (R42). -/
theorem target_buffer {p : Params} (h : p.wf = true) {b : Buffer} {k n : Nat} (hn : n = 1 ∨ (n = 4 ∧ k % 4 = 0))
    (hk : k + n ≤ b.size p) : target p (p.coreBase + (b.base + k)) n = some (.bytes b k) := by
  have hb := b.base_ge
  have hm := b.base_aligned
  have he := Buffer.end_le_window h b
  have hin : inBuffer p b (b.base + k) = true := by rw [inBuffer_iff]; omega
  unfold target windowOffset
  rw [if_pos (by omega), Option.bind_some, Nat.add_sub_cancel_left]
  unfold targetAt
  rw [if_neg (by omega), (bufferAt_iff h b _).mpr hin]
  simp only [Nat.add_sub_cancel_left]
  rcases hn with rfl | ⟨rfl, h4⟩
  · simp
  · rw [if_neg (by decide), if_pos (by omega)]

/-- An access of four bytes at a control register is to that register (R42). -/
theorem target_register (p : Params) {off : Nat} {r : ControlReg} (hr : regAt off = some r) (ho : off < 0x24) :
    target p (p.coreBase + off) 4 = some (.reg r) := by
  unfold target windowOffset
  rw [if_pos (by unfold windowSize; omega), Option.bind_some, Nat.add_sub_cancel_left]
  unfold targetAt
  rw [if_pos ho, if_pos rfl, hr]
  rfl

/-- A fault-free step takes the first event off the schedule and runs it (log 8). -/
theorem step_of_event {s : State} {e : BusEvent} {rest : List BusEvent} (hf : s.fault = none) (hb : s.bus = e :: rest) :
    step s = runEvent { s with bus := rest } e := by
  have h : step s = runNext s := by unfold step; rw [hf]
  rw [h]
  unfold runNext
  rw [hb]

/-- With nothing scheduled a fault-free step is the core's turn (log 8). -/
theorem step_of_no_event {s : State} (hf : s.fault = none) (hb : s.bus = []) : step s = coreTurn s := by
  have h : step s = runNext s := by unfold step; rw [hf]
  rw [h]
  unfold runNext
  rw [hb]

end Sys2Proof.Machine
end

