-- ==== Sys2Proof/Laws/Claims.lean ====
section
/-! SUPPORT. The vocabulary of the claims over the shared operations: what `Complete(out)` and `raise E(code)` leave
(10_state.md R31; 60_exceptions.md R232), how a written buffer is read, and a message's blocks by index. -/

namespace Sys2Proof.Claims

open Sys2Proof.Machine

/-- Rewriting the output and the flags keeps what the host wrote (R33). -/
theorem hostStateKept_complete (s : State) (out : List Byte) : HostStateKept s (s.complete out) where
  params := rfl
  cmd := rfl
  keyLen := rfl
  ivLen := rfl
  dinLen := rfl
  pwLen := rfl
  workload := rfl
  fault := rfl
  resetHeld := rfl
  bus := rfl
  response := rfl
  inputs := fun _ ha => Memory.get_setOutput_low _ _ ha

/-- The output of `Complete(out)` is `out` (R31). -/
theorem output_complete (s : State) {out : List Byte} (h : out.length < 2 ^ 32) : Output (s.complete out) out where
  length := by
    show (BitVec.ofNat 32 out.length).toNat = _
    rw [BitVec.toNat_ofNat, Nat.mod_eq_of_lt h]
  bytes := fun k => Memory.get_setOutput_dout s.mem out k

/-- `Complete(out)` is a successful end with output `out` (R31). -/
theorem completes_complete (s : State) {out : List Byte} (h : out.length < 2 ^ 32) :
    Completes s (s.complete out) out where
  host := hostStateKept_complete s out
  cipherInstance := ⟨rfl, rfl, rfl, rfl⟩
  source := ⟨rfl, rfl⟩
  status := ⟨rfl, rfl, rfl, rfl⟩
  output := output_complete s h

/-- `raise E(code)` is a precise error (R232). -/
theorem fails_raise (s : State) (e : ErrorCode) : Fails s (s.raise e) e.code where
  host :=
    { params := rfl, cmd := rfl, keyLen := rfl, ivLen := rfl, dinLen := rfl, pwLen := rfl, workload := rfl, fault := rfl,
      resetHeld := rfl, bus := rfl, response := rfl, inputs := fun _ ha => Memory.get_setOutput_low _ _ ha }
  cipherInstance := ⟨rfl, rfl, rfl, rfl⟩
  source := ⟨rfl, rfl⟩
  status := ⟨rfl, rfl, rfl, rfl⟩
  output := ⟨rfl, fun k => Memory.get_setOutput_dout s.mem [] k⟩

/-- An operand is a string exactly when the buffer holds it (R36). -/
theorem operand_eq_some {s : State} {b : Buffer} {n : Nat} {x : List Byte} :
    operand s b n = some x ↔ x.length = n ∧ Holds s b x := by
  unfold operand
  rw [Memory.getRange_eq_some]
  constructor
  · rintro ⟨rfl, h⟩; exact ⟨rfl, h⟩
  · rintro ⟨rfl, h⟩; exact ⟨rfl, h⟩

/-- The store after a `KEYEXP` holds the schedule up to `RK[NR]` (R20, R127). -/
theorem storeSchedule_getD {ks : Schedule} {r : Nat} (hr : r ≤ ks.nr) (h15 : ks.nr < 15) (d : Nat) :
    (storeSchedule ks d).toList.getD r default = ks.key r := by
  simp [storeSchedule, List.getD_eq_getElem?_getD, show r < 15 by omega, hr]

/-- So two expansions of one key agree on all that commands read, whatever the free entries beyond (R20). -/
theorem storeSchedule_agree {ks : Schedule} {r : Nat} (hr : r ≤ ks.nr) (h15 : ks.nr < 15) (d e : Nat) :
    (storeSchedule ks d).toList.getD r default = (storeSchedule ks e).toList.getD r default := by
  rw [storeSchedule_getD hr h15, storeSchedule_getD hr h15]

/-- Outputs are determined by the state. -/
theorem Output.unique {t : State} {x y : List Byte} (hx : Output t x) (hy : Output t y) : x = y := by
  have hl : x.length = y.length := hx.length.symm.trans hy.length
  refine List.ext_getElem hl fun k h1 h2 => ?_
  have h := (hx.bytes k).symm.trans (hy.bytes k)
  simpa [List.getD_eq_getElem?_getD, h1, h2] using h

/-- The blocks of a string by index (R180). -/
theorem splitBlocks_eq_chunks (n : Nat) (x : List Byte) : splitBlocks n x = (List.range n).map (chunk x) := by
  induction n generalizing x with
  | zero => rfl
  | succ n ih =>
    rw [splitBlocks, ih, List.range_succ_eq_map, List.map_cons, List.map_map]
    congr 1
    refine List.map_congr_left fun i _ => ?_
    simp only [Function.comp_apply, chunk, List.drop_drop]
    congr 2
    omega

theorem chunk_drop (x : List Byte) (i : Nat) : chunk (x.drop 16) i = chunk x (i + 1) := by
  simp only [chunk, List.drop_drop]
  congr 2
  omega

theorem joined_succ (n : Nat) (C : Nat → Block) : joined (n + 1) C = store (C 0) ++ joined n (fun i => C (i + 1)) := by
  simp [joined, List.range_succ_eq_map, List.flatMap_map]

@[simp] theorem length_joined (n : Nat) (C : Nat → Block) : (joined n C).length = 16 * n := by
  simp [joined]; omega

end Sys2Proof.Claims
end

