-- ==== Sys2Proof/Laws/Field.lean ====
section
/-! SUPPORT. Small laws of the field operations of 40_gf_tables.md: `xtime` is linear, and `gmul` is the sum of the doubled
multiples of its first argument that the bits of its second pick. -/

namespace Sys2Proof.Machine

/-- Doubling is linear over XOR (R102). -/
theorem xtime_xor (a b : Byte) : xtime (a ^^^ b) = xtime a ^^^ xtime b := by
  have same : ∀ x y z : Byte, x ^^^ y ^^^ 0x00 = (x ^^^ z) ^^^ (y ^^^ z) := by
    intro x y z; ext i hi; simp only [BitVec.getElem_xor]; cases x[i] <;> cases y[i] <;> cases z[i] <;> simp
  unfold xtime
  rw [BitVec.shiftLeft_xor_distrib]
  simp only [BitVec.getLsbD_xor]
  cases a.getLsbD 7 <;> cases b.getLsbD 7
  · simp
  · simp [BitVec.xor_assoc]
  · simp [BitVec.xor_assoc, BitVec.xor_comm 27#8]
  · simpa using same (a <<< 1) (b <<< 1) 0x1B

/-- `a` where a bit is 1, else 0x00. -/
def pick (c : Bool) (a : Byte) : Byte := if c then a else 0x00

/-- The loop of R103 unrolled: each bit of the second argument picks a doubled multiple of the first. -/
theorem gmul_bits (a b : Byte) : gmul a b =
    pick (b.getLsbD 0) a ^^^ pick (b.getLsbD 1) (xtime a) ^^^ pick (b.getLsbD 2) (xtime (xtime a)) ^^^
      pick (b.getLsbD 3) (xtime (xtime (xtime a))) ^^^ pick (b.getLsbD 4) (xtime (xtime (xtime (xtime a)))) ^^^
      pick (b.getLsbD 5) (xtime (xtime (xtime (xtime (xtime a))))) ^^^
      pick (b.getLsbD 6) (xtime (xtime (xtime (xtime (xtime (xtime a)))))) ^^^
      pick (b.getLsbD 7) (xtime (xtime (xtime (xtime (xtime (xtime (xtime a))))))) := by
  have hstep : ∀ (x p : Byte) (i : Nat), gmulStep b (x, p) i = (xtime x, p ^^^ pick (b.getLsbD i) x) := by
    intro x p i; unfold gmulStep pick; cases b.getLsbD i <;> simp
  unfold gmul
  rw [show List.range 8 = [0, 1, 2, 3, 4, 5, 6, 7] from rfl]
  simp only [List.foldl, hstep]
  simp

theorem pick_xor (c : Bool) (a b : Byte) : pick c (a ^^^ b) = pick c a ^^^ pick c b := by cases c <;> simp [pick]

theorem pick_bxor (c d : Bool) (a : Byte) : pick (c ^^ d) a = pick c a ^^^ pick d a := by
  cases c <;> cases d <;> simp [pick]

theorem xtime_pick (c : Bool) (a : Byte) : xtime (pick c a) = pick c (xtime a) := by
  cases c
  · exact show xtime 0x00 = 0x00 by decide
  · rfl

/-- Multiplication is linear in its first argument. -/
theorem gmul_xor_left (a b c : Byte) : gmul (a ^^^ b) c = gmul a c ^^^ gmul b c := by
  simp only [gmul_bits, xtime_xor, pick_xor]; ac_rfl

/-- Multiplication is linear in its second argument. -/
theorem gmul_xor_right (a b c : Byte) : gmul a (b ^^^ c) = gmul a b ^^^ gmul a c := by
  simp only [gmul_bits, BitVec.getLsbD_xor, pick_bxor]; ac_rfl

/-- Doubling commutes with multiplication. -/
theorem gmul_xtime_left (a b : Byte) : gmul (xtime a) b = xtime (gmul a b) := by
  simp only [gmul_bits, xtime_xor, xtime_pick]

theorem gmul_pick_left (c : Bool) (a b : Byte) : gmul (pick c a) b = pick c (gmul a b) := by
  cases c
  · have := gmul_xor_left 0 0 b; simpa [pick] using this
  · rfl

end Sys2Proof.Machine
end

