-- ==== Sys2Proof/Laws/PerInstr.lean ====
section
/-! SUPPORT. One family of statements made for every command by itself: its fields are legal, its word is eight bits wide and
carries exactly its fields (30_encoding.md R70, R72, R73). -/

namespace Sys2Proof.Laws.Encodable

/-- A command's fields are legal, its word needs no bit above `GROUP`, and the word's fields are the command's. -/
def Statement (i : Instr) : Prop := i.wf = true ∧ (encode i).toNat < 256 ∧ fieldsOf (encode i) = i.fields

theorem keyexp : Statement .keyexp := by unfold Statement; decide
theorem encBlk : Statement .encBlk := by unfold Statement; decide
theorem decBlk : Statement .decBlk := by unfold Statement; decide
theorem encCbc : Statement .encCbc := by unfold Statement; decide
theorem decCbc : Statement .decCbc := by unfold Statement; decide
theorem encPcbc : Statement .encPcbc := by unfold Statement; decide
theorem decPcbc : Statement .decPcbc := by unfold Statement; decide
theorem encCfb : Statement .encCfb := by unfold Statement; decide
theorem decCfb : Statement .decCfb := by unfold Statement; decide
theorem encOfb : Statement .encOfb := by unfold Statement; decide
theorem decOfb : Statement .decOfb := by unfold Statement; decide
theorem encCtr : Statement .encCtr := by unfold Statement; decide
theorem decCtr : Statement .decCtr := by unfold Statement; decide
theorem pad : Statement .pad := by unfold Statement; decide
theorem unpad : Statement .unpad := by unfold Statement; decide
theorem envEnc : Statement .envEnc := by unfold Statement; decide
theorem envDec : Statement .envDec := by unfold Statement; decide

end Sys2Proof.Laws.Encodable
end

