-- ==== Sys2Proof/Tests/Slice0.lean ====
section
/-! SUPPORT. The model's own tests: words written out from the encoding tables, ill-formed terms, one step of each command
on the vectors of spec/95_test_vectors.md, host accesses, and witnesses that the hypotheses of the statements can be met. -/

namespace Sys2Proof.Tests

open Sys2Proof.Machine Sys2Proof.Claims

-- One theorem at a time: many kernel evaluations at once take too much memory.
set_option Elab.async false

/-! Helpers. -/

/-- The `len` bytes of a number written in hexadecimal, first byte first. -/
def hex (len n : Nat) : List Byte := (List.range len).map fun k => BitVec.ofNat 8 (n / 256 ^ (len - 1 - k))

/-- A state whose command has been started, with `DIN` and `DIN_LEN` written. -/
def withDin (x : List Byte) (s : State) : State :=
  { s with busy := true, dinLen := BitVec.ofNat 32 x.length, mem := s.mem.setRange 0x10000 x }

/-- The same with `IV` and `IV_LEN` written. -/
def withIv (x : List Byte) (s : State) : State :=
  { s with ivLen := BitVec.ofNat 32 x.length, mem := s.mem.setRange 0x120 x }

/-- The same with `KEY` and `KEY_LEN` written. -/
def withKey (x : List Byte) (s : State) : State :=
  { s with busy := true, keyLen := BitVec.ofNat 32 x.length, mem := s.mem.setRange 0x100 x }

/-- The same with `PW`, `PW_LEN` and `WORKLOAD` written. -/
def withPw (x : List Byte) (w : Word) (s : State) : State :=
  { s with pwLen := BitVec.ofNat 32 x.length, workload := w, mem := s.mem.setRange 0x1000 x }

/-- A cipher instance loaded by hand. -/
def loaded (key : List Byte) (nk nr : Nat) : State :=
  { State.reset with keyValid := true, nk := nk, nr := nr, rk := storeSchedule (expandKey key nk nr) 0 }

/-- The schedule K-1 (95_test_vectors.md K-1). -/
def k1 : State := loaded (hex 16 0x2b7e151628aed2a6abf7158809cf4f3c) 4 10

/-- The IV of the mode vectors (95_test_vectors.md M-SP). -/
def iv0 : List Byte := hex 16 0x000102030405060708090a0b0c0d0e0f

/-- K-1 loaded, the IV of M-SP, and an input. -/
def modeState (x : List Byte) : State := withDin x (withIv iv0 k1)

/-- The machine of the envelope vectors: the EXAMPLE suite (R220), the draw of E-1 at the port. -/
def envState : State :=
  { State.reset with
    params := { Params.default with suite := .exampleR220 },
    rngPort := hex 32 0x000102030405060708090a0b0c0d0e0f101112131415161718191a1b1c1d1e1f }

/-- `envState` with the password and workload factor of E-1, and an input. -/
def envInput (x : List Byte) : State := withPw (hex 8 0x70617373776f7264) 3 (withDin x envState)

/-- What a host reads after a command: `STATUS`, `DOUT_LEN`, and `DOUT[0..DOUT_LEN)` as a number; none where the command
gives no next state or records a fault. -/
def result (r : Result) : Option (Nat × Nat × Nat) :=
  match r with
  | .next t =>
    match t.fault, t.mem.getRange 0x20000 t.doutLen.toNat with
    | none, some x => some ((statusWord t).toNat, t.doutLen.toNat, intBE x)
    | _, _ => none
  | _ => none

/-- The fault a step records, if any. -/
def recorded (r : Result) : Option Fault :=
  match r with
  | .next t => t.fault
  | _ => none

/-- The fault recorded and the bus's answer after a step. -/
def answer (r : Result) : Option (Option Fault × Response) :=
  match r with
  | .next t => some (t.fault, t.response)
  | _ => none

/-- The machine of 95_test_vectors.md D-2 with one access pending. -/
def pending (e : BusEvent) (busy : Bool) : State := { k1 with bus := [e], busy := busy }

/-! Decoding: words written out field by field from R70 and R72. -/

theorem test_decode_key : decode (0#24 ++ 0b0000#4 ++ 0b0#1 ++ 0b001#3) = .ok .keyexp := by decide

theorem test_decode_block : decode (0#24 ++ 0b0001#4 ++ 0b0#1 ++ 0b000#3) = .ok .encBlk ∧
    decode (0#24 ++ 0b0001#4 ++ 0b1#1 ++ 0b000#3) = .ok .decBlk := by decide

theorem test_decode_chained : decode (0#24 ++ 0b0001#4 ++ 0b0#1 ++ 0b001#3) = .ok .encCbc ∧
    decode (0#24 ++ 0b0001#4 ++ 0b1#1 ++ 0b001#3) = .ok .decCbc ∧
    decode (0#24 ++ 0b0001#4 ++ 0b0#1 ++ 0b010#3) = .ok .encPcbc ∧
    decode (0#24 ++ 0b0001#4 ++ 0b1#1 ++ 0b010#3) = .ok .decPcbc := by decide

theorem test_decode_stream : decode (0#24 ++ 0b0001#4 ++ 0b0#1 ++ 0b011#3) = .ok .encCfb ∧
    decode (0#24 ++ 0b0001#4 ++ 0b1#1 ++ 0b011#3) = .ok .decCfb ∧
    decode (0#24 ++ 0b0001#4 ++ 0b0#1 ++ 0b100#3) = .ok .encOfb ∧
    decode (0#24 ++ 0b0001#4 ++ 0b1#1 ++ 0b100#3) = .ok .decOfb ∧
    decode (0#24 ++ 0b0001#4 ++ 0b0#1 ++ 0b101#3) = .ok .encCtr ∧
    decode (0#24 ++ 0b0001#4 ++ 0b1#1 ++ 0b101#3) = .ok .decCtr := by decide

theorem test_decode_padding : decode (0#24 ++ 0b0010#4 ++ 0b0#1 ++ 0b000#3) = .ok .pad ∧
    decode (0#24 ++ 0b0010#4 ++ 0b1#1 ++ 0b000#3) = .ok .unpad := by decide

theorem test_decode_envelope : decode (0#24 ++ 0b0011#4 ++ 0b0#1 ++ 0b000#3) = .ok .envEnc ∧
    decode (0#24 ++ 0b0011#4 ++ 0b1#1 ++ 0b000#3) = .ok .envDec := by decide

/-- The illegal words of 95_test_vectors.md D-1, at the edges of each reserved range. -/
theorem test_decode_illegal :
    ([0x00000000#32, 0x00000002#32, 0x0000000F#32, 0x00000016#32, 0x00000017#32, 0x0000001E#32, 0x0000001F#32,
      0x00000021#32, 0x00000029#32, 0x00000031#32, 0x00000039#32, 0x00000040#32, 0x000000FF#32, 0x00000110#32,
      0x80000001#32, 0xFFFFFFFF#32].all fun v => (decode v).toOption == none) = true := by decide

theorem test_decodeTableWord : decodeTableWord 32 0x19 = some .decCbc ∧ decodeTableWord 32 0x16 = none ∧
    decodeTableWord 32 (2 ^ 32 + 0x19) = some .decCbc := by decide

/-! Ill-formed terms the checks refuse. -/

theorem smoke_rsvd : (CommandFields.mk 1 1 0 0).wf = false ∧ (CommandFields.mk 1 1 0 0).rsvdZero = false := by decide
theorem smoke_group : (CommandFields.mk 0 4 0 0).wf = false ∧ (CommandFields.mk 0 4 0 0).groupDefined = false := by decide
theorem smoke_dir : (CommandFields.mk 0 0 1 1).wf = false ∧ (CommandFields.mk 0 0 1 1).dirDefined = false := by decide
theorem smoke_sel : (CommandFields.mk 0 1 0 6).wf = false ∧ (CommandFields.mk 0 1 0 6).selDefined = false ∧
    (CommandFields.mk 0 0 0 0).selDefined = false ∧ (CommandFields.mk 0 2 0 1).selDefined = false ∧
    (CommandFields.mk 0 3 1 7).selDefined = false := by decide
theorem smoke_dinMax : ({ Params.default with dinMax := 24 } : Params).wf = false ∧
    ({ Params.default with dinMax := 0 } : Params).wf = false ∧
    ({ Params.default with dinMax := 65296 } : Params).wf = false := by decide
theorem smoke_pwMax : ({ Params.default with pwMax := 63 } : Params).wf = false ∧
    ({ Params.default with pwMax := 4100 } : Params).wf = false := by decide
theorem smoke_tagLen : ({ Params.default with tagLen := 20 } : Params).wf = false := by decide
theorem smoke_keyLens : ({ Params.default with envKeyLen := 20 } : Params).wf = false ∧
    ({ Params.default with hmacKeyLen := 0 } : Params).wf = false := by decide
theorem smoke_suite : ({ Params.default with suite := .exampleR220, envKeyLen := 32 } : Params).wf = false := by decide

/-! Tables and transforms (95_test_vectors.md G-1 to G-6, B-T). -/

theorem test_field : xtime 0x57 = 0xae ∧ xtime 0x80 = 0x1b ∧ gmul 0x03 0x6e = 0xb2 ∧ ginv 0xff = 0x1c ∧
    sbox 0x53 = 0xed ∧ invSbox 0xff = 0x7d := by decide +kernel

theorem test_shiftRows : (intBE (store (shiftRows (load iv0))) == 0x00050a0f04090e03080d02070c01060b) = true ∧
    (intBE (store (invShiftRows (load iv0))) == 0x000d0a0704010e0b0805020f0c090603) = true := by decide +kernel

theorem test_mixColumns :
    (intBE (store (mixColumns (load (hex 16 0xdb135345f20a225cd4d4d4d52d26314c)))) ==
      0x8e4da1bc9fdc589dd5d5d7d64d7ebdf8) = true := by decide +kernel

theorem test_counterBlock :
    counterBlock .big (hex 16 0x00000000000000ffffffffffffffffff) 1 = hex 16 0x00000000000001000000000000000000 ∧
    counterBlock .little (hex 16 0xff000000000000000000000000000000) 1 = hex 16 0x00010000000000000000000000000000 := by
  decide +kernel

/-- The primes below a bound of at most 324, by trial division. -/
def primesBelow (n : Nat) : List Nat :=
  (List.range n).filter fun p => 2 ≤ p && (List.range 18).all fun d => d < 2 || p ≤ d || p % d != 0

/-- The round constants of SHA-256 are cut from cube roots as its definition says: with an integer part `r`, the 32 bits `k`
satisfy `(r + k/2^32)^3 <= p < (r + (k+1)/2^32)^3` for the first 64 primes `p` in order (log 3). -/
theorem test_sha_constants : shaRoundConstants.length = 64 ∧ (primesBelow 312).length = 64 ∧
    ((shaRoundConstants.zip (primesBelow 312)).all fun (k, p) => (List.range 7).any fun r =>
      (r * 2 ^ 32 + k.toNat) ^ 3 ≤ p * 2 ^ 96 && p * 2 ^ 96 < (r * 2 ^ 32 + k.toNat + 1) ^ 3) = true := by decide +kernel

/-! One step of each command. -/

/-- Round keys 1 and 10 of K-1, `CFG` and `STATUS` after `KEYEXP`. -/
theorem test_keyexp_k1 : (match exec .keyexp (withKey (hex 16 0x2b7e151628aed2a6abf7158809cf4f3c) State.reset) with
    | .next t => intBE (store (roundKeyOf t 1)) == 0xa0fafe1788542cb123a339392a6c7605 &&
        intBE (store (roundKeyOf t 10)) == 0xd014f9a8c9ee2589e13f0cc8b6630ca6 && cfgWord t == 0xA04 && statusWord t == 0xA
    | _ => false) = true := by decide +kernel

/-- K-3: `KEY_LEN = 33` fails, `KEY_VALID` stays. -/
theorem test_keyexp_length : (result (exec .keyexp (withKey (List.replicate 33 0) k1)) == some (0x10E, 0, 0)) = true := by
  decide +kernel

theorem test_encBlk_fips197 : (result (exec .encBlk (withDin (hex 16 0x3243f6a8885a308d313198a2e0370734) k1)) ==
    some (0xA, 16, 0x3925841d02dc09fbdc118597196a0b32)) = true := by decide +kernel

/-- B-3. -/
theorem test_encBlk_aes192 : (result (exec .encBlk (withDin (hex 16 0x00112233445566778899aabbccddeeff)
    (loaded (hex 24 0x000102030405060708090a0b0c0d0e0f1011121314151617) 6 12))) ==
    some (0xA, 16, 0xdda97ca4864cdfe06eaf70a0ec0d7191)) = true := by decide +kernel

theorem test_decBlk_fips197 : (result (exec .decBlk (withDin (hex 16 0x3925841d02dc09fbdc118597196a0b32) k1)) ==
    some (0xA, 16, 0x3243f6a8885a308d313198a2e0370734)) = true := by decide +kernel

/-- B-4. -/
theorem test_decBlk_aes256 : (result (exec .decBlk (withDin (hex 16 0x8ea2b7ca516745bfeafc49904b496089)
    (loaded (hex 32 0x000102030405060708090a0b0c0d0e0f101112131415161718191a1b1c1d1e1f) 8 14))) ==
    some (0xA, 16, 0x00112233445566778899aabbccddeeff)) = true := by decide +kernel

/-- M-LEN, L = 16. -/
theorem test_encCbc_16 : (result (exec .encCbc (modeState iv0)) ==
    some (0xA, 32, 0x7df76b0c1ab899b33e42f047b91b546fd41865c709967b7be12a33cc2251d389)) = true := by decide +kernel

/-- M-LEN, L = 17, decrypted. -/
theorem test_decCbc_17 :
    (result (exec .decCbc (modeState (hex 32 0x7df76b0c1ab899b33e42f047b91b546fd57997d82e386c960d98a99ad7d62e0a))) ==
      some (0xA, 17, 0x000102030405060708090a0b0c0d0e0f10)) = true := by decide +kernel

/-- R184's example with its last byte changed. -/
theorem test_decCbc_padding : (result (exec .decCbc (modeState (hex 16 0xc84af0b613435d5d9182801a9bd9320a))) ==
    some (0x40E, 0, 0)) = true := by decide +kernel

/-- M-LEN, L = 17. -/
theorem test_encPcbc_17 : (result (exec .encPcbc (modeState (hex 17 0x000102030405060708090a0b0c0d0e0f10))) ==
    some (0xA, 32, 0x7df76b0c1ab899b33e42f047b91b546f5dda7712eefa643415e2a296dbea9266)) = true := by decide +kernel

/-- M-LEN, L = 16, decrypted. -/
theorem test_decPcbc_16 :
    (result (exec .decPcbc (modeState (hex 32 0x7df76b0c1ab899b33e42f047b91b546f1caa8018c80b15b8e7aea82794adcb00))) ==
      some (0xA, 16, 0x000102030405060708090a0b0c0d0e0f)) = true := by decide +kernel

/-- M-LEN, L = 17. -/
theorem test_encCfb_17 : (result (exec .encCfb (modeState (hex 17 0x000102030405060708090a0b0c0d0e0f10))) ==
    some (0xA, 17, 0x50ff65cf9d6834b1d2003de297a2e26f73)) = true := by decide +kernel

/-- M-LEN, L = 20, decrypted. -/
theorem test_decCfb_20 : (result (exec .decCfb (modeState (hex 20 0x50ff65cf9d6834b1d2003de297a2e26f73b15dd3))) ==
    some (0xA, 20, 0x000102030405060708090a0b0c0d0e0f10111213)) = true := by decide +kernel

/-- M-LEN, L = 17. -/
theorem test_encOfb_17 : (result (exec .encOfb (modeState (hex 17 0x000102030405060708090a0b0c0d0e0f10))) ==
    some (0xA, 17, 0x50ff65cf9d6834b1d2003de297a2e26fc9)) = true := by decide +kernel

/-- M-LEN, L = 20, decrypted. -/
theorem test_decOfb_20 : (result (exec .decOfb (modeState (hex 20 0x50ff65cf9d6834b1d2003de297a2e26fc9b5c8c9))) ==
    some (0xA, 20, 0x000102030405060708090a0b0c0d0e0f10111213)) = true := by decide +kernel

/-- P4: the counter wraps inside one command. -/
theorem test_encCtr_wrap : (result (exec .encCtr (withDin (hex 20 0) (withIv (List.replicate 16 0xff) k1))) ==
    some (0xA, 20, 0x8af2860142f786f409307c1a3f7eaaac7df76b0c)) = true := by decide +kernel

/-- M-CTR, byte order: the little-endian reading. -/
theorem test_encCtr_little : (result (exec .encCtr (withDin (hex 32 0)
    (withIv (hex 16 0xff000000000000000000000000000000) { k1 with params := { Params.default with ctrEndian := .little } }))) ==
    some (0xA, 32, 0xb543914dc339e00ecb9bea4773b60f8cfdf3d9dfcd52350d21d5dcda578f3228)) = true := by decide +kernel

/-- M-LEN, L = 17, decrypted. -/
theorem test_decCtr_17 : (result (exec .decCtr (modeState (hex 17 0x50ff65cf9d6834b1d2003de297a2e26fbf))) ==
    some (0xA, 17, 0x000102030405060708090a0b0c0d0e0f10)) = true := by decide +kernel

/-- PD-1, 17 bytes, with no key loaded. -/
theorem test_pad_17 : (result (exec .pad (withDin (List.replicate 17 0x41) State.reset)) ==
    some (0x2, 32, 0x41414141414141414141414141414141410f0f0f0f0f0f0f0f0f0f0f0f0f0f0f)) = true := by decide +kernel

/-- PD-1, empty. -/
theorem test_pad_empty : (result (exec .pad (withDin [] State.reset)) ==
    some (0x2, 16, 0x10101010101010101010101010101010)) = true := by decide +kernel

/-- PD-2. -/
theorem test_unpad_mismatch : (result (exec .unpad (withDin [0x03, 0x02] State.reset)) == some (0x406, 0, 0)) = true := by
  decide +kernel

/-- PD-2: a whole block of padding leaves the empty string, with success. -/
theorem test_unpad_block : (result (exec .unpad (withDin (List.replicate 16 0x10) k1)) == some (0xA, 0, 0)) = true := by
  decide +kernel

/-- E-1. -/
theorem test_envEnc_e1 : (result (exec .envEnc (envInput (hex 14 0x61747461636b206174206461776e))) ==
    some (0x2, 64, 0x000102030405060708090a0b0c0d0e0f101112131415161718191a1b1c1d1e1f3c10f7c63aca2985e087e42ee802e46d193967e4ae0cbae2d4a2b55ff83ef4d6)) =
    true := by decide +kernel

/-- E-6: the capacity check comes before the workload check. -/
theorem test_envEnc_order : (result (exec .envEnc { envInput [] with pwLen := 65, workload := 0 }) ==
    some (0x1306, 0, 0)) = true := by decide +kernel

/-- The envelope of E-1. -/
def envelope1 : List Byte := hex 64
  0x000102030405060708090a0b0c0d0e0f101112131415161718191a1b1c1d1e1f3c10f7c63aca2985e087e42ee802e46d193967e4ae0cbae2d4a2b55ff83ef4d6

/-- The first forged envelope of E-4: a right tag over 17 bytes of ciphertext. -/
def forged17 : List Byte :=
  hex 48 0x000102030405060708090a0b0c0d0e0f101112131415161718191a1b1c1d1e1fb37415f53267ba701e06c2d5a59ce9d7 ++ hex 17 0

/-- E-2. -/
theorem test_envDec_e2 : (result (exec .envDec (envInput envelope1)) ==
    some (0x2, 14, 0x61747461636b206174206461776e)) = true := by decide +kernel

/-- E-3: one bit of the tag flipped. -/
theorem test_envDec_tamper : (result (exec .envDec (envInput (envelope1.set 47 0xed))) ==
    some (0x606, 0, 0)) = true := by decide +kernel

/-! Unwritten operands, host accesses and reset (95_test_vectors.md K-3, B-E, D-2, D-3). -/

theorem test_unwritten_key : recorded (exec .keyexp { withKey (hex 9 0x000102030405060708) State.reset with keyLen := 16 }) =
    some .uninitialisedOperand := by decide +kernel

theorem test_unwritten_din : recorded (exec .encBlk { k1 with busy := true, dinLen := 16 }) =
    some .uninitialisedOperand := by decide +kernel

theorem test_write_iv_word : (match step (pending (.write 0x120 4 0x03020100) false) with
    | .next t => t.mem.getRange 0x120 4 == some [0x00, 0x01, 0x02, 0x03]
    | _ => false) = true := by decide +kernel

theorem test_read_key_is_zero :
    answer (step { withKey (hex 16 5) k1 with busy := false, bus := [.read 0x100 4] }) = some (none, .data 0) := by
  decide +kernel

theorem test_refused_accesses :
    ([BusEvent.write 0x000 1 1, .write 0x122 4 0, .read 0x024 4, .write 0x004 4 0, .write 0x020 4 0, .write 0x01C 4 0,
      .write 0x20000 1 0, .write 0x10100 1 0, .read 0x30000 4].all fun e =>
      answer (step (pending e false)) == some (some .busError, .busError)) = true := by decide +kernel

theorem test_allowed_accesses :
    ([BusEvent.write 0x12C 4 0, .write 0x100FC 4 0].all fun e =>
      answer (step (pending e false)) == some (none, .written)) = true := by decide +kernel

theorem test_busy_accesses :
    answer (step (pending (.read 0x004 4) true)) = some (none, .data 0x9) ∧
    ([BusEvent.read 0x20000 4, .write 0x10000 4 0, .write 0x000 4 0x10].all fun e =>
      answer (step (pending e true)) == some (some .hostProtocolViolation, .idle)) = true := by decide +kernel

/-- Held, the core answers no access and runs no command; released, it is in the state of R261 (R260). -/
theorem test_reset_held : answer (step { pending (.read 0x004 4) true with resetHeld := true }) = some (none, .idle) ∧
    answer (step { pending (.write 0x122 4 0) false with resetHeld := true }) = some (none, .idle) ∧
    (match step { pending .core true with resetHeld := true } with
    | .next t => t.busy && t.resetHeld
    | _ => false) = true := by decide +kernel

theorem test_reset : (match Sys2Proof.core.run 3 { modeState iv0 with bus := [.assertReset, .core, .releaseReset] } with
    | .next t => statusWord t == 0 && cfgWord t == 0 && t.ivLen == 0 && t.mem == [] && t.busy == false && t.resetHeld == false
    | _ => false) = true := by decide +kernel

theorem test_illegal_word : (match step (k1.withFetchWord 32 0x16) with
    | .next t => statusWord t == 0x100E && t.cmd == 0x16 && t.doutLen == 0
    | _ => false) = true := by decide +kernel

/-- The expansion of `LOAD KEY` for nine bytes (95_test_vectors.md P3). -/
theorem test_load_expansion : loadKey (hex 9 0x000102030405060708) =
    [.wr32 0x100 0x03020100, .wr32 0x104 0x07060504, .wr8 0x108 0x08, .wr32 0x008 9] := by decide +kernel

/-! Witnesses: for each statement with hypotheses, a concrete state and operands that meet them, and each clause at the
edges of its range. -/

/-- A stored string is what its buffer holds. -/
theorem holds_setRange {m : Memory} (hm : m.wf) (b : Buffer) (x : List Byte) :
    ∀ k, k < x.length → (m.setRange b.base x).get (b.base + k) = some (x.getD k 0) := fun k hk => by
  rw [Memory.get_setRange hm, if_pos (by omega)]; simp [hk]

/-- Storing a string elsewhere leaves what a buffer holds. -/
theorem holds_setRange_other {m : Memory} (hm : m.wf) {b : Buffer} {x : List Byte} {a : Nat} {y : List Byte}
    (h : ∀ k, k < x.length → m.get (b.base + k) = some (x.getD k 0)) (ha : a + y.length ≤ b.base ∨ b.base + x.length ≤ a) :
    ∀ k, k < x.length → (m.setRange a y).get (b.base + k) = some (x.getD k 0) := fun k hk => by
  rw [Memory.get_setRange hm, if_neg (by omega)]; exact h k hk

theorem inputReady_withDin {s : State} (hp : s.params.wf = true) (hm : s.mem.wf) {x : List Byte}
    (hx : x.length ≤ s.params.dinMax) : InputReady (withDin x s) x where
  params := hp
  length := by
    have := Params.bounds_of_wf hp
    show (BitVec.ofNat 32 x.length).toNat = _
    rw [BitVec.toNat_ofNat, Nat.mod_eq_of_lt (by omega)]
  fits := hx
  bytes := holds_setRange (b := .din) hm x

/-- `modeState` meets `ModeReady` for every input that fits, 0 and `DIN_MAX` bytes included. -/
theorem modeReady_modeState {x : List Byte} (hx : x.length ≤ 256) : ModeReady (modeState x) iv0 x where
  keyValid := rfl
  ivLen := rfl
  iv := ⟨by decide, holds_setRange_other (b := .iv) (Memory.wf_setRange Memory.wf_nil _ _)
    (holds_setRange (b := .iv) Memory.wf_nil iv0)
    (.inr (by simp [Buffer.base, iv0, hex]))⟩
  input := inputReady_withDin (s := withIv iv0 k1) (by decide) (Memory.wf_setRange Memory.wf_nil _ _) hx

/-- `envInput` meets `EnvelopeReady` for every input that fits. -/
theorem envelopeReady_envInput {x : List Byte} (hx : x.length ≤ 256) :
    EnvelopeReady (envInput x) (hex 8 0x70617373776f7264) x where
  workload := by show (3#32).toNat ≠ 0; decide
  pwLen := rfl
  pwFits := by show 8 ≤ 64; decide
  pw := holds_setRange (b := .pw) (Memory.wf_setRange Memory.wf_nil _ _) _
  input :=
    let h := inputReady_withDin (s := envState) (by decide) Memory.wf_nil hx
    { params := h.params, length := h.length, fits := h.fits,
      bytes := holds_setRange_other (b := .din) (Memory.wf_setRange Memory.wf_nil _ _) h.bytes (.inl (by decide)) }

/-- A mode command on a state that meets `ModeReady` and passes its checks ends with what the mode gives. -/
theorem modeCommand_ready {s : State} {iv x : List Byte} (h : ModeReady s iv x) {checks : List Check}
    (hc : firstFailure checks = none) (mode : List Byte → List Byte → Except ErrorCode (List Byte)) :
    modeCommand checks s mode = s.finish (mode iv x) := by
  unfold modeCommand
  rw [afterChecks_of_none hc, withOperand_of_some (operand_eq_some.mpr h.iv),
    withOperand_of_some (operand_eq_some.mpr ⟨h.input.length.symm, h.input.bytes⟩)]

theorem modeChecks_ready {s : State} {iv x : List Byte} (h : ModeReady s iv x) : firstFailure (modeChecks s) = none := by
  have h1 := h.keyValid; have h2 := h.ivLen; have h3 := h.input.length; have h4 := h.input.fits
  rw [firstFailure_eq_none]
  simp [modeChecks, noKeyCheck, ivLenCheck, dinCapacityCheck, h1, h2, h3]
  exact h4

/-- Each encryption completes on such a state, with at most 16 bytes more than its input. -/
theorem encrypts {i : Instr} (hi : i ∈ [Instr.encCbc, .encPcbc, .encCfb, .encOfb, .encCtr]) {s : State} {iv x : List Byte}
    (h : ModeReady s iv x) : ∃ t c, exec i s = .next t ∧ Output t c ∧ c.length ≤ x.length + 16 := by
  have hb := Params.bounds_of_wf h.input.params
  have hf := h.input.fits
  have done : ∀ c : List Byte, c.length ≤ x.length + 16 → Output (s.complete c) c :=
    fun c hc => output_complete s (by omega)
  simp only [List.mem_cons, List.not_mem_nil, or_false] at hi
  rcases hi with rfl | rfl | rfl | rfl | rfl <;>
    refine ⟨_, _, congrArg Host.Outcome.next (modeCommand_ready h (modeChecks_ready h) _), done _ ?_, ?_⟩ <;> simp <;> omega

/-- An envelope command on a state that meets `EnvelopeReady` and passes its checks runs its body. -/
theorem envelopeCommand_ready {s : State} {pw x : List Byte} (h : EnvelopeReady s pw x) {checks : List Check}
    (hc : firstFailure checks = none) (body : List Byte → List Byte → State) :
    envelopeCommand checks s body = body pw x := by
  unfold envelopeCommand
  rw [afterChecks_of_none hc, withOperand_of_some (operand_eq_some.mpr ⟨h.pwLen.symm, h.pw⟩),
    withOperand_of_some (operand_eq_some.mpr ⟨h.input.length.symm, h.input.bytes⟩)]

/-- `ENV_ENC` completes on such a state. -/
theorem seals {s : State} {pw m : List Byte} (h : EnvelopeReady s pw m) : ∃ t env, exec .envEnc s = .next t ∧
    Output t env ∧ env.length = s.params.prefixLen + 16 * (m.length / 16 + 1) := by
  have hb := Params.bounds_of_wf h.input.params
  have hf := h.input.fits
  have h1 := h.workload; have h2 := h.pwLen; have h3 := h.pwFits; have h4 := h.input.length
  have hc : firstFailure [envelopeCapacityCheck s, workloadCheck s] = none := by
    rw [firstFailure_eq_none]
    simp only [List.mem_cons, List.not_mem_nil, or_false, forall_eq_or_imp, forall_eq, envelopeCapacityCheck,
      workloadCheck, decide_eq_false_iff_not]
    omega
  have hl : (sealEnvelope s.params pw m ((randomBytes s 32).take 16) ((randomBytes s 32).drop 16) s.workload.toNat).length
      = s.params.prefixLen + 16 * (m.length / 16 + 1) := by
    rw [length_sealEnvelope]; simp [randomBytes, Params.prefixLen]
  refine ⟨_, _, congrArg Host.Outcome.next (envelopeCommand_ready h hc _), output_complete _ ?_, hl⟩
  rw [hl]; simp only [Params.prefixLen]; omega

/-- Whether a result is a next state of which a check holds. -/
def ends (r : Result) (p : State → Bool) : Bool :=
  match r with
  | .next t => p t
  | _ => false

theorem exists_of_ends {r : Result} {p : State → Bool} (h : ends r p = true) : ∃ t, r = .next t ∧ p t = true := by
  unfold ends at h
  split at h
  · exact ⟨_, rfl, h⟩
  · exact absurd h (by decide)

/-- A state with a given schedule. -/
def sched (bus : List BusEvent) (s : State) : State := { s with bus := bus }

/-- What the statements about accesses ask of an idle core, and of a busy one. -/
def IdleReady (s : State) : Prop :=
  s.FaultFree ∧ s.resetHeld = false ∧ s.busy = false ∧ s.params.wf = true ∧ s.MemoryLegal

def BusyReady (s : State) : Prop := s.FaultFree ∧ s.resetHeld = false ∧ s.busy = true ∧ s.params.wf = true

theorem idle_ready (bus : List BusEvent) : IdleReady (sched bus k1) :=
  ⟨rfl, rfl, rfl, by show Params.default.wf = true; decide, Memory.wf_nil⟩

theorem busy_ready (bus : List BusEvent) : BusyReady (sched bus (k1.start 0x10)) :=
  ⟨rfl, rfl, rfl, by show Params.default.wf = true; decide⟩

/-- A legal state with a given schedule. -/
theorem legal_reset (bus : List BusEvent) : (sched bus State.reset).Legal where
  left := by show Params.default.wf = true; decide
  right := by
    refine ⟨⟨by simp [sched, State.reset, State.resetWith], by simp [sched, State.reset, State.resetWith],
      by simp [sched, State.reset, State.resetWith, legalErrorCodes]⟩, .inl ⟨rfl, rfl, rfl⟩, Memory.wf_nil,
      (fun c hc => nomatch hc), by show (0 : Nat) ≤ 336; decide, fun k _ => unlisted_ge (by omega)⟩

theorem witness_DecodeInvertsEncode : Instr.keyexp.wf = true ∧ Instr.decCtr.wf = true ∧ Instr.envDec.wf = true := by decide

theorem witness_IllegalWordsFail : decode 0x00000100#32 = .error .reservedBits ∧
    decode 0x80000001#32 = .error .reservedBits ∧ decode 0x00000009#32 = .error .reservedKeyCommand ∧
    decode 0x0000001E#32 = .error .reservedMode ∧ decode 0x00000029#32 = .error .reservedPadding ∧
    decode 0x00000037#32 = .error .reservedEnvelope ∧ decode 0x00000040#32 = .error .reservedGroup ∧
    decode 0x000000FF#32 = .error .reservedGroup := by decide

/-- Each clause: a legal word and an illegal one, with nothing scheduled and with the core's turn scheduled; an idle core, and one whose
reset is held. -/
theorem witness_StepRunsTheDecodedCommand :
    (k1.start 0x10).fault = none ∧ (k1.start 0x10).resetHeld = false ∧ (k1.start 0x10).busy = true ∧ decode (k1.start 0x10).cmd = .ok .encBlk ∧
    (k1.start 0x10).bus = [] ∧ (sched [.core, .assertReset] (k1.start 0x10)).bus = .core :: [.assertReset] ∧
    decode (k1.start 0x16).cmd = .error .reservedMode ∧ k1.busy = false ∧ k1.fault = none ∧
    (k1.start 0x10).assertReset.resetHeld = true ∧ (k1.start 0x10).assertReset.fault = none := by
  refine ⟨rfl, rfl, rfl, ?_, rfl, rfl, ?_, rfl, rfl, rfl, rfl⟩ <;> decide

theorem witness_RecordedFaultIsStuck : (k1.recordFault .busError).fault = some .busError ∧
    (k1.recordFault .uninitialisedOperand).fault = some .uninitialisedOperand := ⟨rfl, rfl⟩

theorem witness_FaultFreeStepsAnswer : State.reset.FaultFree ∧ (k1.start 0x38).FaultFree := ⟨rfl, rfl⟩

/-- The hypotheses of the three invariants of a step, met by a host write to `CMD`. -/
theorem witness_StepKeepsLegal : ∃ t, (sched [.write 0 4 0x20] State.reset).Legal ∧
    step (sched [.write 0 4 0x20] State.reset) = .next t := ⟨_, legal_reset _, rfl⟩

theorem witness_StepKeepsStatusLegal : ∃ t, (sched [.write 0 4 0x20] State.reset).StatusLegal ∧
    step (sched [.write 0 4 0x20] State.reset) = .next t := ⟨_, (legal_reset _).2.1, rfl⟩

theorem witness_StepKeepsMemoryCanonical : ∃ t, (sched [.write 0x1003F 1 0] State.reset).MemoryLegal ∧
    step (sched [.write 0x1003F 1 0] State.reset) = .next t := ⟨_, Memory.wf_nil, rfl⟩

/-- The default parameters, and the smallest and largest ones. -/
theorem witness_ResetIsLegal : Params.default.wf = true ∧
    ({ Params.default with dinMax := 16, pwMax := 0, tagLen := 32, hmacKeyLen := 1 } : Params).wf = true ∧
    ({ Params.default with dinMax := 65280, pwMax := 4096, envKeyLen := 32, coreBase := 0x40000000 } : Params).wf = true := by
  decide

/-- A step that loads an instance, one that clears it, and one that keeps it. -/
theorem witness_OnlyKeyexpOrResetChangesTheInstance :
    (∃ t, step { withKey (hex 16 5) State.reset with cmd := 1 } = .next t ∧ (t.keyValid && t.nk == 4) = true) ∧
    (∃ t, step (sched [.releaseReset] k1.assertReset) = .next t ∧ (!t.keyValid) = true) ∧
    ∃ t, step (sched [.read 0x004 4] k1) = .next t ∧ t.keyValid = true :=
  ⟨exists_of_ends (by decide +kernel), exists_of_ends (by decide +kernel), exists_of_ends (by decide +kernel)⟩

/-- A mark that is set at the last byte of `DIN`, one that stays set, one that a reset clears. -/
theorem witness_WrittenMarksChangeByWritesAndReset :
    (∃ t, step (sched [.write 0x100FF 1 7] k1) = .next t ∧ (t.mem.get 0x100FF == some 7) = true) ∧
    (sched [.write 0x100FF 1 7] k1).mem.get 0x100FF = none ∧
    (∃ t, step (sched [.write 0x10000 1 7] (withIv iv0 k1)) = .next t ∧ (t.mem.get 0x12F == some 0x0F) = true) ∧
    (∃ t, step (sched [.releaseReset] (withIv iv0 k1).assertReset) = .next t ∧ (t.mem.get 0x12F == none) = true) ∧
    (∃ t, step (sched [.releaseReset] (withIv iv0 k1)) = .next t ∧ (t.mem.get 0x12F == some 0x0F) = true) ∧
    (withIv iv0 k1).assertReset.MemoryLegal ∧ (withIv iv0 k1).mem.get 0x12F = some 0x0F :=
  ⟨exists_of_ends (by decide +kernel), rfl, exists_of_ends (by decide +kernel), exists_of_ends (by decide +kernel),
    exists_of_ends (by decide +kernel), Memory.wf_setRange Memory.wf_nil _ _, by decide +kernel⟩

/-- A reset while a command is in flight: held and about to be released, about to be asserted, held with an access pending. -/
theorem witness_ResetClearsTheCore : (sched [.releaseReset, .core] (k1.start 0x11).assertReset).FaultFree ∧
    (sched [.releaseReset, .core] (k1.start 0x11).assertReset).resetHeld = true ∧ (k1.start 0x11).assertReset.busy = true ∧
    (sched [.assertReset] (k1.start 0x11)).FaultFree ∧ (sched [.releaseReset] (k1.start 0x11)).resetHeld = false ∧
    (sched [.write 0x000 4 1] (k1.start 0x11).assertReset).FaultFree := ⟨rfl, rfl, rfl, rfl, rfl, rfl⟩

theorem witness_CmdWriteStartsACommand : IdleReady (sched [.write k1.params.coreBase 4 0x16] k1) ∧
    (sched [.write k1.params.coreBase 4 0x16] k1).bus = .write k1.params.coreBase 4 0x16 :: [] := ⟨idle_ready _, rfl⟩

/-- Each of the five registers. -/
theorem witness_RegisterWritesStore : ∀ off ∈ [0x008, 0x00C, 0x010, 0x014, 0x018],
    IdleReady (sched [.write (k1.params.coreBase + off) 4 0xFFFFFFFF] k1) ∧
    (sched [.write (k1.params.coreBase + off) 4 0xFFFFFFFF] k1).bus =
      .write (k1.params.coreBase + off) 4 0xFFFFFFFF :: [] := fun _ _ => ⟨idle_ready _, rfl⟩

/-- First and last accesses of the input buffers. -/
def inputEdges : List (Buffer × Nat × Nat) :=
  [(.key, 0, 1), (.key, 28, 4), (.key, 31, 1), (.iv, 12, 4), (.iv, 15, 1), (.pw, 60, 4), (.pw, 63, 1), (.din, 0, 4),
    (.din, 252, 4), (.din, 255, 1)]

theorem witness_BufferWritesStoreLanes : ∀ e ∈ inputEdges,
    IdleReady (sched [.write (k1.params.coreBase + (e.1.base + e.2.1)) e.2.2 0xA5A55A5A] k1) ∧
    (e.1 ≠ .dout ∧ (e.2.2 = 1 ∨ (e.2.2 = 4 ∧ e.2.1 % 4 = 0)) ∧ e.2.1 + e.2.2 ≤ e.1.size k1.params) := fun e he =>
  ⟨idle_ready _, (by decide : ∀ e ∈ inputEdges, e.1 ≠ .dout ∧ (e.2.2 = 1 ∨ (e.2.2 = 4 ∧ e.2.1 % 4 = 0)) ∧
    e.2.1 + e.2.2 ≤ e.1.size Params.default) e he⟩

/-- The same accesses and the last ones of `DOUT`, with stored bytes and without. -/
theorem witness_BufferReadsGiveLanes : ∀ e ∈ (Buffer.dout, 332, 4) :: (.dout, 335, 1) :: inputEdges,
    IdleReady (sched [.read (k1.params.coreBase + (e.1.base + e.2.1)) e.2.2] k1) ∧
    ((e.2.2 = 1 ∨ (e.2.2 = 4 ∧ e.2.1 % 4 = 0)) ∧ e.2.1 + e.2.2 ≤ e.1.size k1.params) := fun e he =>
  ⟨idle_ready _, (by decide : ∀ e ∈ (Buffer.dout, 332, 4) :: (.dout, 335, 1) :: inputEdges,
    (e.2.2 = 1 ∨ (e.2.2 = 4 ∧ e.2.1 % 4 = 0)) ∧ e.2.1 + e.2.2 ≤ e.1.size Params.default) e he⟩

/-- A stored byte for the last clause. -/
theorem witness_BufferReadsGiveLanes_stored : (withIv iv0 k1).mem.get (Buffer.iv.base + 15 + 0) = some 0x0F ∧
    k1.mem.get (Buffer.dout.base + 335 + 0) = some 0 := by decide +kernel

/-- `STATUS` while busy, the last register while idle. -/
theorem witness_RegisterReadsGiveValues : BusyReady (sched [.read (k1.params.coreBase + 0x004) 4] (k1.start 0x10)) ∧
    IdleReady (sched [.read (k1.params.coreBase + 0x020) 4] k1) ∧
    (0x020, cfgWord k1) ∈ [(0x000, k1.cmd), (0x004, statusWord k1), (0x008, k1.keyLen), (0x00C, k1.ivLen),
      (0x010, k1.dinLen), (0x014, k1.pwLen), (0x018, k1.workload), (0x01C, k1.doutLen), (0x020, cfgWord k1)] :=
  ⟨busy_ready _, idle_ready _, by simp⟩

/-- The last words of `IV` and `DIN` for the first two clauses, the last register and the first for the third. -/
theorem witness_MixedWidthViewsAgree : ∀ e ∈ [(Buffer.iv, 12), (.din, 252), (.din, 0)],
    let a := k1.params.coreBase + (e.1.base + e.2)
    IdleReady (sched [.write a 1 1, .write (a + 1) 1 2, .write (a + 2) 1 3, .write (a + 3) 1 4, .read a 4] k1) ∧
    IdleReady (sched [.write a 4 0x04030201, .read (a + 3) 1] k1) ∧
    (e.1 = .iv ∨ e.1 = .din) ∧ e.2 % 4 = 0 ∧ e.2 + 4 ≤ e.1.size k1.params := fun e he =>
  ⟨idle_ready _, idle_ready _, (by decide : ∀ e ∈ [(Buffer.iv, 12), (.din, 252), (.din, 0)],
    (e.1 = .iv ∨ e.1 = .din) ∧ e.2 % 4 = 0 ∧ e.2 + 4 ≤ e.1.size Params.default) e he⟩

theorem witness_MixedWidthViewsAgree_registers : IdleReady (sched [.read (k1.params.coreBase + 0x000) 1] k1) ∧
    BusyReady (sched [.write (k1.params.coreBase + 0x023) 1 0] (k1.start 0x10)) ∧ 0x023 < 0x24 :=
  ⟨idle_ready _, busy_ready _, by decide⟩

/-- Illegal accesses at the edges: a half word, a misaligned word, past `CFG`, past each buffer, past the window. -/
theorem illegal_edges : ∀ e ∈ [(0x000, 1), (0x002, 4), (0x000, 2), (0x024, 4), (0x0FF, 1), (0x122, 4), (0x130, 1), (0x140, 1),
    (0x1040, 1), (0x10100, 4), (0x100FD, 4), (0x20150, 1), (0x2014E, 4), (0x2FFFF, 1), (0x30000, 4)],
    ¬ LegalAccess Params.default e.1 e.2 := by
  intro e he
  simp only [List.mem_cons, List.not_mem_nil, or_false] at he
  rintro (⟨h1, h2, h3⟩ | ⟨b, h1, h2, h3⟩)
  · rcases he with rfl | rfl | rfl | rfl | rfl | rfl | rfl | rfl | rfl | rfl | rfl | rfl | rfl | rfl | rfl <;> simp_all
  · rcases he with rfl | rfl | rfl | rfl | rfl | rfl | rfl | rfl | rfl | rfl | rfl | rfl | rfl | rfl | rfl <;> revert h1 h2 h3 <;>
      cases b <;> decide

/-- Legal accesses at the edges. -/
def legalEdges : List (Nat × Nat) :=
  [(0x000, 4), (0x004, 4), (0x020, 4), (0x100, 1), (0x11C, 4), (0x11F, 1), (0x120, 4), (0x12C, 4), (0x12F, 1), (0x1000, 4),
    (0x103F, 1), (0x10000, 1), (0x100FC, 4), (0x100FF, 1), (0x20000, 1), (0x2014C, 4), (0x2014F, 1)]

theorem legal_edges : ∀ e ∈ legalEdges, LegalAccess Params.default e.1 e.2 := by
  intro e he
  have h : ∀ e ∈ legalEdges, (e.2 = 4 ∧ e.1 % 4 = 0 ∧ e.1 < 0x24) ∨
      ∃ b ∈ [Buffer.key, .iv, .pw, .din, .dout], b.base ≤ e.1 ∧ (e.2 = 1 ∨ (e.2 = 4 ∧ e.1 % 4 = 0)) ∧
        e.1 + e.2 ≤ b.base + b.size Params.default := by decide
  rcases h e he with h | ⟨b, _, h⟩
  · exact .inl h
  · exact .inr ⟨b, h⟩

/-- Places the host may not write, and their neighbours, which it may. -/
theorem read_only_edges : (∀ off ∈ [0x004, 0x01C, 0x020, 0x20000, 0x2014F], ReadOnlyAt Params.default off) ∧
    ∀ off ∈ [0x000, 0x018, 0x100, 0x12F, 0x103F, 0x100FF], ¬ ReadOnlyAt Params.default off := by
  unfold ReadOnlyAt; decide

/-- Refused reads and writes at the edges, refused writes to read-only places, and accepted accesses. -/
theorem witness_RefusedAccessesAreBusErrors :
    IdleReady (sched [.read (k1.params.coreBase + 0x30000) 4] k1) ∧
    (¬ ∃ off, k1.params.coreBase + 0x30000 = k1.params.coreBase + off ∧ LegalAccess k1.params off 4) ∧
    (¬ ∃ off, k1.params.coreBase + 0x100FD = k1.params.coreBase + off ∧ LegalAccess k1.params off 4 ∧
      ¬ ReadOnlyAt k1.params off) ∧
    (¬ ∃ off, k1.params.coreBase + 0x2014F = k1.params.coreBase + off ∧ LegalAccess k1.params off 1 ∧
      ¬ ReadOnlyAt k1.params off) ∧
    (∃ off, k1.params.coreBase + 0x2014F = k1.params.coreBase + off ∧ LegalAccess k1.params off 1) ∧
    ∃ off, k1.params.coreBase + 0x100FF = k1.params.coreBase + off ∧ LegalAccess k1.params off 1 ∧
      ¬ ReadOnlyAt k1.params off := by
  refine ⟨idle_ready _, ?_, ?_, ?_, ⟨_, rfl, legal_edges (_, _) (by decide)⟩,
    ⟨_, rfl, legal_edges (_, _) (by decide), read_only_edges.2 _ (by decide)⟩⟩
  · rintro ⟨off, h, hl⟩
    obtain rfl := Nat.add_left_cancel h
    exact illegal_edges (_, _) (by decide) hl
  · rintro ⟨off, h, hl, -⟩
    obtain rfl := Nat.add_left_cancel h
    exact illegal_edges (_, _) (by decide) hl
  · rintro ⟨off, h, -, hl⟩
    obtain rfl := Nat.add_left_cancel h
    exact hl (read_only_edges.1 _ (by decide))

/-- Each clause: a read elsewhere, a read of `STATUS`, a write to a writable place, while a command runs. -/
theorem witness_BusyAccessesViolateTheProtocol :
    BusyReady (sched [.read (k1.params.coreBase + 0x000) 4] (k1.start 0x10)) ∧
    BusyReady (sched [.read (k1.params.coreBase + 0x004) 4] (k1.start 0x10)) ∧
    BusyReady (sched [.write (k1.params.coreBase + 0x100FF) 1 0] (k1.start 0x10)) ∧
    LegalAccess Params.default 0x000 4 ∧ LegalAccess Params.default 0x004 4 ∧ LegalAccess Params.default 0x100FF 1 ∧
    ¬ ReadOnlyAt Params.default 0x100FF :=
  ⟨busy_ready _, busy_ready _, busy_ready _, legal_edges (_, _) (by decide), legal_edges (_, _) (by decide),
    legal_edges (_, _) (by decide), read_only_edges.2 _ (by decide)⟩

/-- A read that takes no free value, a read that takes one, and a write to the last word of `DIN`. -/
theorem witness_AccessesAreIdempotent :
    (∃ t, step (sched [.read 0x12C 4] (withIv iv0 k1)) = .next t ∧ (t.fault == none && t.draws == k1.draws) = true) ∧
    (∃ t, step (sched [.read 0x12C 4] k1) = .next t ∧ (t.fault == none && t.draws != k1.draws) = true) ∧
    (sched [.write 0x100FC 4 7] k1).MemoryLegal ∧ (0x100FC : Nat) ≠ k1.params.coreBase ∧
    ∃ t, step (sched [.write 0x100FC 4 7] k1) = .next t ∧ (t.fault == none) = true :=
  ⟨exists_of_ends (by decide +kernel), exists_of_ends (by decide +kernel), Memory.wf_nil, by decide,
    exists_of_ends (by decide +kernel)⟩

/-- Two states that differ in a key byte, a password byte and the round keys. -/
theorem witness_HostReadsHideSecrets : (sched [.read 0x11F 1] k1).FaultFree ∧ (sched [.read 0x11F 1] k1).params.wf = true ∧
    (sched [.read 0x11F 1] k1).bus = .read 0x11F 1 :: [] ∧
    ∀ a, ¬ (0x100 ≤ a ∧ a < 0x120) → ¬ (0x1000 ≤ a ∧ a < 0x1000 + k1.params.pwMax) →
      Memory.get [(0x11F, 9), (0x103F, 9)] a = k1.mem.get a := by
  refine ⟨rfl, (idle_ready []).2.2.2.1, rfl, fun a h1 h2 => ?_⟩
  have h3 : k1.params.pwMax = 64 := rfl
  have h4 : k1.mem = [] := rfl
  rw [h3] at h2
  rw [h4, Memory.get_cons, Memory.get_cons, if_neg (by omega), if_neg (by omega)]

/-- Each key length, and the lengths beside them. -/
theorem witness_KeyexpLoadsTheSchedule : (∀ e ∈ keySizes, (withKey (hex e.1 5) State.reset).keyLen.toNat = (hex e.1 5).length ∧
    ((hex e.1 5).length, e.2.1, e.2.2) ∈ keySizes ∧ Holds (withKey (hex e.1 5) State.reset) .key (hex e.1 5)) ∧
    ∀ n ∈ [0, 15, 17, 23, 25, 31, 33, 2 ^ 32 - 1], let s := { k1 with keyLen := BitVec.ofNat 32 n };
      s.keyLen.toNat ≠ 16 ∧ s.keyLen.toNat ≠ 24 ∧ s.keyLen.toNat ≠ 32 := by
  refine ⟨fun e he => ⟨?_, ?_, holds_setRange (b := .key) Memory.wf_nil _⟩, by decide⟩
  · revert e; decide
  · revert e; decide

/-- A loaded instance of each size and a written block. -/
theorem witness_block_commands : ∀ e ∈ keySizes, let s := withDin iv0 (loaded (hex e.1 5) e.2.1 e.2.2)
    s.InstanceLegal ∧ s.keyValid = true ∧ s.dinLen.toNat = 16 ∧ iv0.length = 16 ∧ Holds s .din iv0 := by
  refine fun e he => ⟨.inr ⟨rfl, ?_⟩, rfl, rfl, rfl, holds_setRange (b := .din) Memory.wf_nil _⟩
  show (e.2.1 = 4 ∧ e.2.2 = 10) ∨ (e.2.1 = 6 ∧ e.2.2 = 12) ∨ (e.2.1 = 8 ∧ e.2.2 = 14)
  revert e; decide

theorem witness_BlockCommandChecks : State.reset.keyValid = false ∧ k1.keyValid = true ∧ k1.dinLen.toNat ≠ 16 ∧
    ({ k1 with dinLen := 17 } : State).dinLen.toNat ≠ 16 := ⟨rfl, rfl, by decide, by decide⟩

/-- Inputs of no block, one whole block, a block and a byte, and all of `DIN`; the two unchaining commands take the first,
second and last. -/
theorem witness_mode_commands : ∀ n ∈ [0, 16, 17, 256], ModeReady (modeState (List.replicate n 7)) iv0 (List.replicate n 7) :=
  fun n hn => modeReady_modeState (by rw [List.length_replicate]; revert n; decide)

theorem witness_DecCbcUnchains : ∀ n ∈ [0, 16, 256], (List.replicate n (7 : Byte)).length % 16 = 0 :=
  fun n hn => by rw [List.length_replicate]; revert n; decide

/-- Each check, at the first value that fails it and with the ones before it passed. -/
theorem witness_ModeCommandChecks : (State.reset.keyValid = false) ∧
    (k1.keyValid = true ∧ k1.ivLen.toNat ≠ 16) ∧
    (let s := { k1 with ivLen := 16, dinLen := 17 };
      s.keyValid = true ∧ s.ivLen.toNat = 16 ∧ s.dinLen.toNat % 16 ≠ 0) ∧
    (let s := { k1 with ivLen := 16, dinLen := 257 };
      s.keyValid = true ∧ s.ivLen.toNat = 16 ∧ s.params.dinMax < s.dinLen.toNat) ∧
    let s := { k1 with ivLen := 16, dinLen := 272 };
      s.keyValid = true ∧ s.ivLen.toNat = 16 ∧ s.dinLen.toNat % 16 = 0 ∧ s.params.dinMax < s.dinLen.toNat :=
  ⟨rfl, ⟨rfl, by show (0 : Nat) ≠ 16; decide⟩, ⟨rfl, rfl, by show 17 % 16 ≠ 0; decide⟩,
    ⟨rfl, rfl, by show 256 < 257; decide⟩, rfl, rfl, by show 272 % 16 = 0; decide, by show 256 < 272; decide⟩

/-- `modeState` after a second `KEYEXP` of the same key: the entries beyond `RK[NR]` are other free values. -/
def modeStateAgain (x : List Byte) : State :=
  { modeState x with rk := storeSchedule (expandKey (hex 16 0x2b7e151628aed2a6abf7158809cf4f3c) 4 10) 1 }

/-- Each pair, on a message of 17 bytes and on the empty one: the output decrypts after the key is expanded again. -/
theorem witness_ModesRoundTrip : ∀ i ∈ [Instr.encCbc, .encPcbc, .encCfb, .encOfb, .encCtr], ∀ n ∈ [0, 17],
    ∃ t c, ModeReady (modeState (List.replicate n 7)) iv0 (List.replicate n 7) ∧
      exec i (modeState (List.replicate n 7)) = .next t ∧ Output t c ∧
      (modeStateAgain c).params = (modeState (List.replicate n 7)).params ∧
      SameSchedule (modeState (List.replicate n 7)) (modeStateAgain c) ∧ ModeReady (modeStateAgain c) iv0 c := by
  intro i hi n hn
  have hl : n ≤ 17 := by revert n; decide
  have h := modeReady_modeState (x := List.replicate n 7) (by rw [List.length_replicate]; omega)
  obtain ⟨t, c, ht, ho, hc⟩ := encrypts hi h
  rw [List.length_replicate] at hc
  have hu := modeReady_modeState (x := c) (by omega)
  exact ⟨t, c, h, ht, ho, rfl, ⟨rfl, rfl, fun r hr => storeSchedule_agree hr (by decide) 1 0⟩,
    { keyValid := hu.keyValid, ivLen := hu.ivLen, iv := hu.iv,
      input := { params := hu.input.params, length := hu.input.length, fits := hu.input.fits, bytes := hu.input.bytes } }⟩

/-- Two IVs that differ, with the same schedule and the empty message; and a stream mode on it. -/
theorem witness_DistinctIvsDistinctChainedOutputs : ∀ i ∈ [Instr.encCbc, .encPcbc],
    ∃ t t' c c', ModeReady (modeState []) iv0 [] ∧ ModeReady (withDin [] (withIv (hex 16 1) k1)) (hex 16 1) [] ∧
      SameSchedule (modeState []) (withDin [] (withIv (hex 16 1) k1)) ∧ iv0 ≠ hex 16 1 ∧ exec i (modeState []) = .next t ∧
      exec i (withDin [] (withIv (hex 16 1) k1)) = .next t' ∧ Output t c ∧ Output t' c' := by
  intro i hi
  have hi' : i ∈ [Instr.encCbc, .encPcbc, .encCfb, .encOfb, .encCtr] := by revert i; decide
  have h := modeReady_modeState (x := []) (by decide)
  have h' : ModeReady (withDin [] (withIv (hex 16 1) k1)) (hex 16 1) [] :=
    { keyValid := rfl, ivLen := rfl, iv := ⟨rfl, holds_setRange (b := .iv) Memory.wf_nil _⟩,
      input := inputReady_withDin (by show Params.default.wf = true; decide) (Memory.wf_setRange Memory.wf_nil _ _) (by simp) }
  obtain ⟨t, c, ht, ho, -⟩ := encrypts hi' h
  obtain ⟨t', c', ht', ho', -⟩ := encrypts hi' h'
  exact ⟨t, t', c, c', h, h', ⟨rfl, rfl, fun _ _ => rfl⟩, by decide, ht, ht', ho, ho'⟩

/-- Inputs of 0, 15, 16 and 256 bytes; lengths beyond the buffer. -/
theorem witness_padding_commands : (∀ n ∈ [0, 15, 16, 256],
    InputReady (withDin (List.replicate n 7) State.reset) (List.replicate n 7)) ∧
    ∀ n ∈ [257, 2 ^ 32 - 1], State.reset.params.dinMax < ({ State.reset with dinLen := BitVec.ofNat 32 n } : State).dinLen.toNat :=
  ⟨fun n hn => inputReady_withDin (by show Params.default.wf = true; decide) Memory.wf_nil
    (by rw [List.length_replicate]; show n ≤ 256; revert n; decide), by decide⟩

/-- Both ends of `unpad`, on the strings of PD-2: one and sixteen bytes of padding, and none. -/
theorem witness_UnpadStripsPadding : ([0x01] : List Byte) = appended [] 1 ∧
    List.replicate 16 (0x10 : Byte) = appended [] 16 ∧ ∀ x b, 1 ≤ b → b ≤ 16 → ([] : List Byte) ≠ appended x b := by
  refine ⟨rfl, rfl, fun x b h _ he => ?_⟩
  have := congrArg List.length he
  simp [appended] at this
  omega

/-- Messages of 0 and 15 bytes, with both suites. -/
theorem witness_EnvEncSealsTheMessage : EnvelopeReady (envInput []) (hex 8 0x70617373776f7264) [] ∧
    EnvelopeReady (envInput (hex 15 3)) (hex 8 0x70617373776f7264) (hex 15 3) :=
  ⟨envelopeReady_envInput (by decide), envelopeReady_envInput (by decide)⟩

/-- Whether the tag of an envelope is the one its password and workload factor give. -/
def tagMatches (s : State) (pw env : List Byte) : Bool :=
  macTag s.params (kdfMac s.params (pw ++ env.take 16) s.workload.toNat)
    ((env.drop 16).take 16 ++ env.drop (32 + s.params.tagLen)) == (env.drop 32).take s.params.tagLen

/-- The second forged envelope of E-4: a right tag over an empty ciphertext, which no padding ends. -/
def forged0 : List Byte :=
  hex 48 0x000102030405060708090a0b0c0d0e0f101112131415161718191a1b1c1d1e1f0269d757fa06b5cf25f723f963dc6bd6

/-- The three cases of `ENV_DEC` and the shortest envelope: E-3, E-4, E-2. -/
theorem witness_EnvDecOpensTheEnvelope :
    EnvelopeReady (envInput (envelope1.set 47 0xed)) (hex 8 0x70617373776f7264) (envelope1.set 47 0xed) ∧
    tagMatches (envInput (envelope1.set 47 0xed)) (hex 8 0x70617373776f7264) (envelope1.set 47 0xed) = false ∧
    EnvelopeReady (envInput forged17) (hex 8 0x70617373776f7264) forged17 ∧
    tagMatches (envInput forged17) (hex 8 0x70617373776f7264) forged17 = true ∧ (forged17.drop 48).length % 16 ≠ 0 ∧
    EnvelopeReady (envInput forged0) (hex 8 0x70617373776f7264) forged0 ∧
    tagMatches (envInput forged0) (hex 8 0x70617373776f7264) forged0 = true ∧ (forged0.drop 48).length % 16 = 0 ∧
    (envInput forged0).params.prefixLen = forged0.length :=
  ⟨envelopeReady_envInput (by decide), by decide +kernel, envelopeReady_envInput (by decide), by decide +kernel, by decide,
    envelopeReady_envInput (by decide), by decide +kernel, by decide, rfl⟩

/-- Each check at the first value that fails it, the ones before it passed. -/
theorem witness_EnvelopeCommandChecks : (let s := { State.reset with dinLen := 257 }; s.params.dinMax < s.dinLen.toNat) ∧
    (let s := { State.reset with pwLen := 65 }; s.params.pwMax < s.pwLen.toNat) ∧
    (let s := { State.reset with dinLen := 256, pwLen := 64 };
      s.dinLen.toNat ≤ s.params.dinMax ∧ s.pwLen.toNat ≤ s.params.pwMax ∧ s.workload.toNat = 0) ∧
    let s := { State.reset with dinLen := 47, workload := 1 };
      s.workload.toNat ≠ 0 ∧ s.dinLen.toNat < 32 + s.params.tagLen := by decide

/-- Envelopes whose tag matches and that fail behind it (E-4). -/
theorem witness_VerificationPrecedesDecryption :
    (∃ t, exec .envDec (envInput forged17) = .next t ∧ (!t.busy && t.errcode == 0x02) = true) ∧
    (∃ t, exec .envDec (envInput forged0) = .next t ∧ (!t.busy && t.errcode == 0x04) = true) ∧
    (envInput forged17).busy = true ∧ (envInput forged0).busy = true :=
  ⟨exists_of_ends (by decide +kernel), exists_of_ends (by decide +kernel), rfl, rfl⟩

theorem witness_EnvelopeRoundTrip : ∃ t env, EnvelopeReady (envInput (hex 15 3)) (hex 8 0x70617373776f7264) (hex 15 3) ∧
    exec .envEnc (envInput (hex 15 3)) = .next t ∧ Output t env ∧
    (envInput env).params = (envInput (hex 15 3)).params ∧ (envInput env).workload = (envInput (hex 15 3)).workload ∧
    EnvelopeReady (envInput env) (hex 8 0x70617373776f7264) env := by
  have h := envelopeReady_envInput (x := hex 15 3) (by decide)
  obtain ⟨t, env, ht, ho, hl⟩ := seals h
  have hl : env.length = 48 + 16 * (15 / 16 + 1) := hl
  exact ⟨t, env, h, ht, ho, rfl, rfl, envelopeReady_envInput (by omega)⟩

/-- The same message sealed with two draws. -/
theorem witness_DifferentDrawsDifferentEnvelopes : ∃ t t' env env', let s' := { envInput [] with rngPort := hex 32 1 }
    EnvelopeReady (envInput []) (hex 8 0x70617373776f7264) [] ∧ EnvelopeReady s' (hex 8 0x70617373776f7264) [] ∧
    randomBytes (envInput []) 32 ≠ randomBytes s' 32 ∧ exec .envEnc (envInput []) = .next t ∧ exec .envEnc s' = .next t' ∧
    Output t env ∧ Output t' env' := by
  have h := envelopeReady_envInput (x := []) (by decide)
  have h' : EnvelopeReady { envInput [] with rngPort := hex 32 1 } (hex 8 0x70617373776f7264) [] :=
    { workload := h.workload, pwLen := h.pwLen, pwFits := h.pwFits, pw := h.pw,
      input := { params := h.input.params, length := h.input.length, fits := h.input.fits, bytes := h.input.bytes } }
  obtain ⟨t, env, ht, ho, -⟩ := seals h
  obtain ⟨t', env', ht', ho', -⟩ := seals h'
  exact ⟨t, t', env, env', h, h', fun he => absurd (congrArg (fun x => x.getD 31 0) he) (by decide), ht, ht', ho, ho'⟩

/-- A success, and an operand that was never written. -/
theorem witness_CommandsWriteOnlyTheirOutput : (∃ t, exec .pad (withDin [] State.reset) = .next t ∧ t.done = true) ∧
    ∃ t, exec .encBlk { k1 with dinLen := 16 } = .next t ∧ (t.fault == some .uninitialisedOperand) = true :=
  ⟨exists_of_ends (by decide +kernel), exists_of_ends (by decide +kernel)⟩

theorem witness_ErrorsArePrecise : ((State.reset.start 0x10).StatusLegal) ∧ (State.reset.start 0x10).busy = true ∧
    ∃ t, exec .encBlk (State.reset.start 0x10) = .next t ∧ t.err = true := by
  refine ⟨⟨fun _ => ⟨rfl, rfl, rfl⟩, ?_, ?_⟩, rfl, exists_of_ends (by decide +kernel)⟩
  · show (false = true ↔ (0 : Byte) ≠ 0); decide
  · show (0 : Byte) ∈ legalErrorCodes; decide

/-- `NoKey`, raised again by the command started again. -/
theorem witness_FailedCommandsFailAgain : ∃ t, State.reset.params.wf = true ∧ (State.reset.start 0x10).busy = true ∧
    exec .encBlk (State.reset.start 0x10) = .next t ∧ Fails (State.reset.start 0x10) t 0x11 :=
  ⟨_, by decide, rfl, rfl, fails_raise _ .noKey⟩

/-- The last operand byte unwritten, a failing check, and all operand bytes written. -/
theorem witness_UnwrittenOperandsFault :
    (let s := { withDin (hex 15 1) k1 with dinLen := 16 };
      RegisterChecksPass .encBlk s ∧ (Buffer.din, 16) ∈ operandsOf .encBlk s ∧ s.mem.get (Buffer.din.base + 15) = none) ∧
    ¬ RegisterChecksPass .envDec { State.reset with dinLen := 47, workload := 1 } ∧
    ∀ p ∈ operandsOf .encCtr (modeState iv0), ∀ k, k < p.2 → (modeState iv0).mem.get (p.1.base + k) ≠ none := by
  refine ⟨⟨⟨rfl, rfl⟩, by simp [operandsOf], by decide +kernel⟩, ?_, by decide +kernel⟩
  simp only [RegisterChecksPass]
  decide

/-- Two polls before the core's turn. -/
theorem witness_StartedCommandsComplete : (sched (List.replicate 2 (.read (k1.params.coreBase + 0x004) 4)) (k1.start 0x38)).FaultFree ∧
    (k1.start 0x38).resetHeld = false ∧ (sched (List.replicate 2 (.read (k1.params.coreBase + 0x004) 4)) (k1.start 0x38)).busy = true :=
  ⟨rfl, rfl, rfl⟩

/-- Two states that agree on what `ENC_CTR` reads and differ in the key, the error and the last output; and two for `ENV_ENC`
that differ in the cipher instance. -/
theorem witness_OperandsDetermineTheResult :
    (∃ t t', let s' := { modeState [7] with err := true, mem := (modeState [7]).mem.setRange 0x100 [9] }
      s'.FaultFree ∧ (modeState [7]).FaultFree ∧ ReadsAgree .encCtr (modeState [7]) s' ∧
        exec .encCtr (modeState [7]) = .next t ∧ exec .encCtr s' = .next t') ∧
    ∃ t t', let s' := { envInput [] with keyValid := true }
      s'.FaultFree ∧ (envInput []).FaultFree ∧ ReadsAgree .envEnc (envInput []) s' ∧
        exec .envEnc (envInput []) = .next t ∧ exec .envEnc s' = .next t' :=
  ⟨⟨_, _, rfl, rfl, ⟨rfl, by decide +kernel, ⟨rfl, rfl, fun _ _ => rfl⟩, rfl, rfl⟩, rfl, rfl⟩,
    ⟨_, _, rfl, rfl, ⟨rfl, fun _ _ _ _ => rfl, rfl, rfl, rfl, rfl⟩, rfl, rfl⟩⟩

end Sys2Proof.Tests
end

section
/-! PROOFS. Legal states (10_state.md R14, R20 to R24; 20_memory.md R40): every operation a step is made of keeps them, so
every step does. -/

namespace Sys2Proof.Machine

/-! What a step is made of. -/

/-- `t` has every field of `s` that `State.Legal` speaks of. -/
def State.AgreesOnLegality (s t : State) : Prop :=
  t = { t with
    params := s.params, busy := s.busy, done := s.done, err := s.err, errcode := s.errcode, keyValid := s.keyValid,
    nk := s.nk, nr := s.nr, doutLen := s.doutLen, mem := s.mem }

/-- A string stored in a buffer from byte `k` on, as an accepted host write leaves it (R44). -/
def State.storeBytes (s : State) (b : Buffer) (k : Nat) (x : List Byte) : State :=
  { s with mem := s.mem.setRange (b.base + k) x }

/-- A property of states that each operation a step can perform keeps: the fields outside `State.Legal` changed, a start
(R30), a host write of bytes (R44), an error (R232), a completion (R31), a loaded schedule (R20), a released
reset (R261). -/
structure KeptByOperations (P : State → Prop) : Prop where
  agree : ∀ {s t : State}, P s → s.AgreesOnLegality t → P t
  start : ∀ {s : State} (v : Word), P s → P (s.start v)
  store : ∀ {s : State} {b : Buffer} {k : Nat} {x : List Byte}, b ≠ .dout → k + x.length ≤ b.size s.params → P s →
    P (s.storeBytes b k x)
  raise : ∀ {s : State} (e : ErrorCode), P s → P (s.raise e)
  complete : ∀ {s : State} {out : List Byte}, out.length ≤ s.params.prefixLen + s.params.dinMax + 16 → P s →
    P (s.complete out)
  load : ∀ {s : State} (key : List Byte) {n nk nr : Nat}, keySize n = some (nk, nr) → P s →
    P (s.loadInstance key nk nr)
  reset : ∀ {s : State}, P s → P s.resetInput

section Kept

variable {P : State → Prop} (hP : KeptByOperations P) {s t : State}
include hP

theorem hostRead_keeps (addr n : Nat) (h : P s) : P (hostRead s addr n) := by
  rcases hostRead_cases s addr n with hr | hr | ⟨r, d, hr⟩ <;> rw [hr] <;> exact hP.agree h rfl

theorem writeReg_keeps (v : Word) (r : ControlReg) (h : P s) : P (s.writeReg v r) := by
  cases r
  case cmd => exact hP.start v h
  all_goals exact hP.agree h rfl

theorem hostWrite_keeps (addr n : Nat) (v : Word) (h : P s) : P (hostWrite s addr n v) := by
  rcases hostWrite_cases s addr n v with hw | hw | ⟨-, r, -, hw⟩ | ⟨-, b, k, hb, hk, -, hw⟩ <;> rw [hw]
  · exact hP.agree h rfl
  · exact hP.agree h rfl
  · exact hP.agree (writeReg_keeps hP v r h) rfl
  · exact hP.agree (hP.store (x := laneBytes n v) hb (by simpa [laneBytes] using hk) h) rfl

theorem ending_keeps {i : Instr} (he : Ending i s t) (h : P s) : P t := by
  cases he with
  | error e => exact hP.raise e h
  | unread => exact hP.agree h rfl
  | output out _ _ hl => exact hP.complete (by unfold Params.prefixLen; omega) h
  | loaded key nk nr _ hs _ => exact hP.complete (by simp) (hP.load key hs h)
  | sealed out _ hl => exact hP.complete hl (hP.agree h rfl)

theorem coreTurn_keeps (ht : coreTurn s = .next t) (h : P s) : P t := by
  rcases coreTurn_cases ht with ⟨-, rfl⟩ | ⟨-, -, ⟨-, -, rfl⟩ | ⟨i, -, -, he⟩⟩
  · exact h
  · exact hP.raise _ h
  · exact ending_keeps hP he h

theorem releaseReset_keeps (h : P s) : P s.releaseReset := by
  cases hr : s.resetHeld with
  | false => rw [s.releaseReset_of_not_held hr]; exact h
  | true => rw [s.releaseReset_of_held hr]; exact hP.reset h

/-- What every operation keeps, every step keeps. -/
theorem step_keeps (hst : step s = .next t) (h : P s) : P t := by
  have hp : P s.popped := hP.agree h rfl
  obtain ⟨-, hc⟩ := step_cases hst
  rcases hc with ⟨addr, n, -, -, rfl⟩ | ⟨addr, n, v, -, -, rfl⟩ | ⟨-, -, rfl⟩ | ⟨-, rfl⟩ | ⟨-, rfl⟩ | ⟨-, ht⟩
  · exact hostRead_keeps hP addr n hp
  · exact hostWrite_keeps hP addr n v hp
  · exact hP.agree hp rfl
  · exact hP.agree hp rfl
  · exact releaseReset_keeps hP hp
  · exact coreTurn_keeps hP ht hp

end Kept

/-- Every operation keeps the parameters (R5). -/
theorem params_kept (p : Params) : KeptByOperations (fun s => s.params = p) where
  agree h e := by rw [e]; exact h
  start _ h := h
  store _ _ h := h
  raise _ h := h
  complete _ h := h
  load _ _ _ _ _ h := h
  reset h := h

/-! The flags (R14). -/

theorem ErrorCode.code_ne_zero (e : ErrorCode) : e.code ≠ 0 := by cases e <;> decide

theorem ErrorCode.code_mem_legal (e : ErrorCode) : e.code ∈ legalErrorCodes := by cases e <;> decide

theorem statusLegal_start (s : State) (v : Word) : (s.start v).StatusLegal := by
  simp [State.StatusLegal, legalErrorCodes]

theorem statusLegal_raise (s : State) (e : ErrorCode) : (s.raise e).StatusLegal := by
  simpa [State.StatusLegal, e.code_mem_legal] using e.code_ne_zero

theorem statusLegal_complete (s : State) (out : List Byte) : (s.complete out).StatusLegal := by
  simp [State.StatusLegal, legalErrorCodes]

theorem statusLegal_resetWith (p : Params) : (State.resetWith p).StatusLegal := by
  simp [State.StatusLegal, State.resetWith, legalErrorCodes]

/-- Every operation keeps the flags legal (R14, R230). -/
theorem statusLegal_kept : KeptByOperations State.StatusLegal where
  agree h e := by rw [e]; exact h
  start v _ := statusLegal_start _ v
  store _ _ h := h
  raise e _ := statusLegal_raise _ e
  complete _ _ := statusLegal_complete _ _
  load _ _ _ _ _ h := h
  reset {s} _ := statusLegal_resetWith s.params

/-! The loaded schedule (R20, R22). -/

/-- The three sizes of a schedule (R120). -/
theorem keySize_sizes {n nk nr : Nat} (h : keySize n = some (nk, nr)) :
    (nk = 4 ∧ nr = 10) ∨ (nk = 6 ∧ nr = 12) ∨ (nk = 8 ∧ nr = 14) := by
  unfold keySize at h
  split at h <;> simp at h <;> omega

theorem instanceLegal_resetWith (p : Params) : (State.resetWith p).InstanceLegal := .inl ⟨rfl, rfl, rfl⟩

/-- Every operation keeps the loaded schedule legal (R20, R22). -/
theorem instanceLegal_kept : KeptByOperations State.InstanceLegal where
  agree h e := by rw [e]; exact h
  start _ h := h
  store _ _ h := h
  raise _ h := h
  complete _ h := h
  load _ _ _ _ hs _ := .inr ⟨rfl, keySize_sizes hs⟩
  reset {s} _ := instanceLegal_resetWith s.params

/-! The storage, its place in the address map, and the output (R21, R24, R40). -/

/-- Every operation keeps the storage in canonical form (log 21). -/
theorem memoryLegal_kept : KeptByOperations State.MemoryLegal where
  agree h e := by rw [e]; exact h
  start _ h := h
  store _ _ h := Memory.wf_setRange h _ _
  raise _ h := Memory.wf_setOutput h _
  complete _ h := Memory.wf_setOutput h _
  load _ _ _ _ _ h := h
  reset _ := Memory.wf_nil

/-- Every input buffer ends before `DOUT` (R40). -/
theorem Buffer.end_le_dout {p : Params} (hp : p.wf = true) {b : Buffer} (hb : b ≠ .dout) :
    b.base + b.size p ≤ Buffer.dout.base := by
  have := Params.bounds_of_wf hp
  cases b
  case dout => exact absurd rfl hb
  all_goals simp only [Buffer.base, Buffer.size]; omega

/-- The longest output a command gives, an envelope of a whole `DIN`, fits in `DOUT` (R5, R213). -/
theorem Params.envelope_le_doutMax {p : Params} (hp : p.wf = true) : p.prefixLen + p.dinMax + 16 ≤ p.doutMax := by
  have := Params.bounds_of_wf hp
  unfold Params.prefixLen Params.doutMax
  omega

theorem inWindow_store {s : State} {b : Buffer} {k : Nat} {x : List Byte} (hk : k + x.length ≤ b.size s.params)
    (h : s.InWindow) : (s.storeBytes b k x).InWindow := by
  intro c hc
  rcases Memory.mem_setRange hc with hx | hm
  · exact ⟨b, by omega, show c.1 < b.base + b.size s.params by omega⟩
  · exact h c hm

theorem inWindow_setOutput {s : State} {out : List Byte} (hl : out.length ≤ s.params.doutMax) (h : s.InWindow) :
    (s.setOutput out).InWindow := by
  intro c hc
  rcases Memory.mem_setOutput hc with ⟨hm, -⟩ | ⟨hlo, hhi⟩
  · exact h c hm
  · exact ⟨.dout, hlo, Nat.lt_of_lt_of_le hhi (Nat.add_le_add_left hl _)⟩

/-- A host write ends before `DOUT`, so the output stays (R40, R44). -/
theorem outputLegal_store {s : State} {b : Buffer} {k : Nat} {x : List Byte} (hp : s.params.wf = true) (hb : b ≠ .dout)
    (hk : k + x.length ≤ b.size s.params) (hm : s.MemoryLegal) (h : s.OutputLegal) :
    (s.storeBytes b k x).OutputLegal := by
  obtain ⟨hlen, hzero⟩ := h
  have hend := Buffer.end_le_dout hp hb
  refine ⟨hlen, fun j hj => ?_⟩
  show (s.mem.setRange (b.base + k) x).get (Buffer.dout.base + j) = some 0
  rw [Memory.get_setRange hm, if_neg (by omega)]
  exact hzero j hj

theorem outputLegal_setOutput {s : State} {out : List Byte} (hp : s.params.wf = true)
    (hl : out.length ≤ s.params.doutMax) : (s.setOutput out).OutputLegal := by
  have hlen : (s.setOutput out).doutLen.toNat = out.length := by
    have := Params.bounds_of_wf hp
    unfold Params.doutMax at hl
    rw [State.setOutput_doutLen, BitVec.toNat_ofNat, Nat.mod_eq_of_lt (by omega)]
  refine ⟨hlen ▸ hl, fun k hk => ?_⟩
  rw [State.setOutput_mem, Memory.get_setOutput_dout, List.getD_eq_default _ _ (hlen ▸ hk)]

/-- The parts of `State.Legal` that speak of the parameters, the storage and the output. -/
def State.StorageLegal (s : State) : Prop := s.params.wf = true ∧ s.MemoryLegal ∧ s.InWindow ∧ s.OutputLegal

theorem State.legal_iff {s : State} : s.Legal ↔ s.StatusLegal ∧ s.InstanceLegal ∧ s.StorageLegal := by
  unfold State.Legal State.StorageLegal
  tauto

theorem storageLegal_setOutput {s : State} {out : List Byte} (hl : out.length ≤ s.params.prefixLen + s.params.dinMax + 16)
    (h : s.StorageLegal) : (s.setOutput out).StorageLegal := by
  obtain ⟨hp, hm, hw, -⟩ := h
  have hl := hl.trans (Params.envelope_le_doutMax hp)
  exact ⟨hp, Memory.wf_setOutput hm out, inWindow_setOutput hl hw, outputLegal_setOutput hp hl⟩

theorem storageLegal_resetWith {p : Params} (hp : p.wf = true) : (State.resetWith p).StorageLegal :=
  ⟨hp, Memory.wf_nil, fun _ hc => absurd hc List.not_mem_nil, Nat.zero_le _, fun _ _ => unlisted_ge (Nat.le_add_right _ _)⟩

/-- Every operation keeps the storage and the output legal under legal parameters. -/
theorem storageLegal_kept : KeptByOperations State.StorageLegal where
  agree h e := by rw [e]; exact h
  start _ h := h
  store hb hk h := by
    obtain ⟨hp, hm, hw, ho⟩ := h
    exact ⟨hp, memoryLegal_kept.store hb hk hm, inWindow_store hk hw, outputLegal_store hp hb hk hm ho⟩
  raise _ h := storageLegal_setOutput (Nat.zero_le _) h
  complete hl h := storageLegal_setOutput hl h
  load _ _ _ _ _ h := h
  reset h := storageLegal_resetWith h.1

/-- Settles O11: each part of `State.Legal`, and the parameters, are kept by every operation and so by every step. -/
theorem stepKeepsLegal : Obligations.StepKeepsLegal := by
  intro s t hs hst
  obtain ⟨hstatus, hinstance, hstorage⟩ := State.legal_iff.mp hs
  exact ⟨State.legal_iff.mpr ⟨step_keeps statusLegal_kept hst hstatus, step_keeps instanceLegal_kept hst hinstance,
    step_keeps storageLegal_kept hst hstorage⟩, step_keeps (params_kept s.params) hst rfl⟩

/-- Settles O12: at reset every register is 0, no schedule is loaded and no cell is stored. -/
theorem resetIsLegal : Obligations.ResetIsLegal :=
  ⟨fun p hp => ⟨State.legal_iff.mpr ⟨statusLegal_resetWith p, instanceLegal_resetWith p, storageLegal_resetWith hp⟩, rfl⟩,
    State.reset_eq, by decide⟩

end Sys2Proof.Machine
end

section
/-! PROOFS. One step at a time (10_state.md R28, R30; 20_memory.md R40 to R46; 60_exceptions.md R236): what a host access, an
event and the core's turn do to a fault-free state, and the statements about single steps. -/

namespace Sys2Proof.Machine

open Claims

/-! Every event and every command has a next state. -/

theorem coreTurn_next (s : State) : ∃ t, coreTurn s = .next t := by
  unfold coreTurn executeWord
  split
  · split
    · obtain ⟨t, ht, -⟩ := exec_ending _ s
      exact ⟨t, ht⟩
    · exact ⟨_, rfl⟩
  · exact ⟨s, rfl⟩

theorem runEvent_next (s : State) (e : BusEvent) : ∃ t, runEvent s e = .next t := by
  cases e
  case core => exact coreTurn_next s
  all_goals exact ⟨_, rfl⟩

theorem step_next {s : State} (hf : s.FaultFree) : ∃ t, step s = .next t := by
  cases hb : s.bus with
  | nil => rw [step_of_no_event hf hb]; exact coreTurn_next s
  | cons e rest => rw [step_of_event hf hb]; exact runEvent_next _ e

theorem step_of_fault {s : State} {f : Fault} (hf : s.fault = some f) : step s = .fault f := by
  unfold step
  rw [hf]

/-- Settles O7: a recorded fault is answered by that fault, and everything else has a next state. -/
theorem faultFreeStepsAnswer : Obligations.FaultFreeStepsAnswer := by
  refine ⟨fun s => step_next, fun s r h => ?_⟩
  cases hf : s.fault with
  | none =>
    obtain ⟨t, ht⟩ := step_next hf
    rw [ht] at h
    exact nomatch h
  | some f =>
    rw [step_of_fault hf] at h
    exact nomatch h

/-! Invariants of the state, each kept by every operation. -/

/-- Settles O9: every operation leaves the flags in a legal combination. -/
theorem stepKeepsStatusLegal : Obligations.StepKeepsStatusLegal :=
  fun _ _ hs hst => step_keeps statusLegal_kept hst hs

/-- Settles O10: every operation leaves the storage canonical. -/
theorem stepKeepsMemoryCanonical : Obligations.StepKeepsMemoryCanonical :=
  fun _ _ hs hst => step_keeps memoryLegal_kept hst hs

/-! The core's turn (R30, R243, R260). -/

theorem decode_encode (i : Instr) : decode (encode i) = .ok i := by
  cases i <;> decide

theorem executeWord_of_ok {v : Word} {i : Instr} (h : decode v = .ok i) (s : State) : executeWord v s = exec i s := by
  unfold executeWord
  rw [h]

theorem coreTurn_running {s : State} (hr : s.resetHeld = false) (hb : s.busy = true) :
    coreTurn s = executeWord s.cmd s := by
  simp [coreTurn, hr, hb]

theorem coreTurn_standing {s : State} (h : s.busy = false ∨ s.resetHeld = true) : coreTurn s = .next s := by
  unfold coreTurn
  rcases h with h | h <;> simp [h]

theorem step_of_core {s : State} {rest : List BusEvent} (hf : s.fault = none) (hb : s.bus = .core :: rest) :
    step s = coreTurn (popped s rest) := step_of_event hf hb

/-- Settles O5: the core's turn while a command runs is `exec` of the decoded word, else nothing. -/
theorem stepRunsTheDecodedCommand : Obligations.StepRunsTheDecodedCommand := by
  refine ⟨fun s i hf hr hb hi => ⟨fun hbus => ?_, fun rest hbus => ?_⟩,
    fun s _ hf hr hb _ => ⟨fun hbus => ?_, fun rest hbus => ?_⟩,
    fun s hf h => ⟨fun hbus => ?_, fun rest hbus => ?_⟩, fun s i => ?_⟩
  · rw [step_of_no_event hf hbus, coreTurn_running hr hb, executeWord_of_ok hi]
  · exact ((step_of_core hf hbus).trans (coreTurn_running hr hb)).trans (executeWord_of_ok hi _)
  · rw [step_of_no_event hf hbus, coreTurn_running hr hb]
  · exact (step_of_core hf hbus).trans (coreTurn_running hr hb)
  · rw [step_of_no_event hf hbus, coreTurn_standing h]
  · exact (step_of_core hf hbus).trans (coreTurn_standing h)
  · have hcmd : (s.withFetchWord 32 (encode i).toNat).cmd = encode i := by
      show BitVec.ofNat 32 ((encode i).toNat % 2 ^ 32) = encode i
      rw [Nat.mod_eq_of_lt (encode i).isLt, BitVec.ofNat_toNat, BitVec.setWidth_eq]
    rw [step_of_no_event rfl rfl, coreTurn_running rfl rfl, hcmd]
    exact executeWord_of_ok (decode_encode i) _

/-! The words `STATUS` and `CFG` (R14, R22). -/

theorem toNat_append_eq_add {m n : Nat} (x : BitVec m) (y : BitVec n) : (x ++ y).toNat = 2 ^ n * x.toNat + y.toNat := by
  rw [BitVec.toNat_append, ← Nat.shiftLeft_add_eq_or_of_lt y.isLt, Nat.shiftLeft_eq, Nat.mul_comm]

/-- Settles O8: an appended field weighs two to the number of bits below it. -/
theorem statusAndCfgWords : Obligations.StatusAndCfgWords := by
  intro s
  constructor
  · simp only [statusWord, toNat_append_eq_add, BitVec.toNat_ofBool, BitVec.toNat_ofNat]
    omega
  · simp only [cfgWord, toNat_append_eq_add, BitVec.toNat_ofNat]
    omega

/-! Host accesses (R42 to R46). -/

section Access

variable {s : State} {rest : List BusEvent} {addr n : Nat} {v : Word}

theorem step_of_read {t : State} (hf : s.FaultFree) (hr : s.resetHeld = false) (hb : s.bus = .read addr n :: rest)
    (ht : hostRead (popped s rest) addr n = t) : step s = .next t := by
  subst ht
  rw [step_of_event hf hb]
  simp [runEvent, popped, hr]

theorem step_of_write {t : State} (hf : s.FaultFree) (hr : s.resetHeld = false) (hb : s.bus = .write addr n v :: rest)
    (ht : hostWrite (popped s rest) addr n v = t) : step s = .next t := by
  subst ht
  rw [step_of_event hf hb]
  simp [runEvent, popped, hr]

theorem step_of_held_read (hf : s.FaultFree) (hr : s.resetHeld = true) (hb : s.bus = .read addr n :: rest) :
    step s = .next (popped s rest).unanswered := by
  rw [step_of_event hf hb]
  simp [runEvent, popped, hr]

theorem hostRead_status (ht : target s.params addr n = some (.reg .status)) :
    hostRead s addr n = { s with response := .data (statusWord s) } := by
  simp [hostRead, ht, State.readReg]

theorem hostRead_busy {t : Target} (ht : target s.params addr n = some t) (hs : t ≠ .reg .status) (hb : s.busy = true) :
    hostRead s addr n = s.violateProtocol := by
  simp [hostRead, ht, hs, hb]

theorem hostWrite_busy {t : Target} (ht : target s.params addr n = some t) (hw : t.readOnly = false)
    (hb : s.busy = true) : hostWrite s addr n v = s.violateProtocol := by
  simp [hostWrite, ht, hw, hb]

theorem hostWrite_register {r : ControlReg} (ht : target s.params addr n = some (.reg r))
    (hw : (Target.reg r).readOnly = false) (hb : s.busy = false) :
    hostWrite s addr n v = { s.writeReg v r with response := .written } := by
  simp [hostWrite, ht, hw, hb]

theorem readOnly_bytes {b : Buffer} (hb : b ≠ .dout) (k : Nat) : (Target.bytes b k).readOnly = false := by
  cases b
  case dout => exact absurd rfl hb
  all_goals rfl

theorem hostWrite_buffer {b : Buffer} {k : Nat} (ht : target s.params addr n = some (.bytes b k)) (hd : b ≠ .dout)
    (hb : s.busy = false) :
    hostWrite s addr n v = { s with mem := s.mem.setRange (b.base + k) (laneBytes n v), response := .written } := by
  simp [hostWrite, ht, readOnly_bytes hd, hb]

end Access

/-! The control registers by their offsets (R12). -/

/-- The window offset of a register (R12). -/
def ControlReg.offset : ControlReg → Nat
  | .cmd => 0x000
  | .status => 0x004
  | .keyLen => 0x008
  | .ivLen => 0x00C
  | .dinLen => 0x010
  | .pwLen => 0x014
  | .workload => 0x018
  | .doutLen => 0x01C
  | .cfg => 0x020

theorem regAt_offset (r : ControlReg) : regAt r.offset = some r := by cases r <;> rfl

theorem ControlReg.offset_lt (r : ControlReg) : r.offset < 0x24 := by cases r <;> decide

theorem target_offset (p : Params) (r : ControlReg) : target p (p.coreBase + r.offset) 4 = some (.reg r) :=
  target_register p (regAt_offset r) r.offset_lt

theorem exists_register_at {off : Nat} (h4 : off % 4 = 0) (h : off < 0x24) : ∃ r : ControlReg, off = r.offset := by
  obtain ⟨q, rfl⟩ : ∃ q, off = 4 * q := ⟨off / 4, by omega⟩
  have hq : q < 9 := by omega
  interval_cases q
  · exact ⟨.cmd, rfl⟩
  · exact ⟨.status, rfl⟩
  · exact ⟨.keyLen, rfl⟩
  · exact ⟨.ivLen, rfl⟩
  · exact ⟨.dinLen, rfl⟩
  · exact ⟨.pwLen, rfl⟩
  · exact ⟨.workload, rfl⟩
  · exact ⟨.doutLen, rfl⟩
  · exact ⟨.cfg, rfl⟩

/-- A host write of a register while idle stores the value and is answered (R44). -/
theorem step_write_register {s : State} {rest : List BusEvent} {v : Word} (hf : s.FaultFree) (hr : s.resetHeld = false)
    (hb : s.busy = false) (r : ControlReg) (hw : (Target.reg r).readOnly = false)
    (hbus : s.bus = .write (s.params.coreBase + r.offset) 4 v :: rest) :
    step s = .next { (popped s rest).writeReg v r with response := .written } :=
  step_of_write hf hr hbus (hostWrite_register (target_offset s.params r) hw hb)

/-- Settles O16: `CMD` is the register at offset 0, and writing it is a start. -/
theorem cmdWriteStartsACommand : Obligations.CmdWriteStartsACommand :=
  fun _ _ _ hf hr hb hbus => step_write_register hf hr hb .cmd rfl hbus

/-- Settles O17: each of the five registers, by its offset. -/
theorem registerWritesStore : Obligations.RegisterWritesStore :=
  fun _ _ _ hf hr hb =>
    ⟨step_write_register hf hr hb .keyLen rfl, step_write_register hf hr hb .ivLen rfl,
      step_write_register hf hr hb .dinLen rfl, step_write_register hf hr hb .pwLen rfl,
      step_write_register hf hr hb .workload rfl⟩

/-! Writes of input buffers (R28, R43, R44). -/

@[simp] theorem length_laneBytes (n : Nat) (v : Word) : (laneBytes n v).length = n := by simp [laneBytes]

theorem laneBytes_getElem? {n i : Nat} (h : i < n) (v : Word) : (laneBytes n v)[i]? = some (v.extractLsb' (8 * i) 8) := by
  simp [laneBytes, h]

/-- Settles O18: the lanes are stored from the byte addressed on, and a read after storing a string tells the rest. -/
theorem bufferWritesStoreLanes : Obligations.BufferWritesStoreLanes := by
  intro s rest b k n v hf hr hb hp hm hd hn hk hbus
  refine ⟨{ popped s rest with mem := s.mem.setRange (b.base + k) (laneBytes n v), response := .written }, ?_,
    fun i hi => ?_, fun a ha => ?_, rfl⟩
  · exact step_of_write hf hr hbus (hostWrite_buffer (target_buffer hp hn hk) hd hb)
  · rw [Memory.get_setRange hm, length_laneBytes, if_pos (by omega), Nat.add_sub_cancel_left, laneBytes_getElem? hi]
  · rw [Memory.get_setRange hm, length_laneBytes, if_neg (by omega)]

/-! Accesses while a command runs (R30, R44, R46). -/

/-- A legal access has a target; it is `STATUS` only at offset 4, and a read-only one only at a read-only place. -/
theorem target_of_legalAccess {p : Params} (hp : p.wf = true) {off n : Nat} (h : LegalAccess p off n) :
    ∃ t, target p (p.coreBase + off) n = some t ∧ (t = .reg .status → off = 0x004) ∧
      (t.readOnly = true → ReadOnlyAt p off) := by
  rcases h with ⟨rfl, h4, hoff⟩ | ⟨b, hbase, hn, hend⟩
  · obtain ⟨r, rfl⟩ := exists_register_at h4 hoff
    refine ⟨.reg r, target_offset p r, ?_, ?_⟩
    · rintro ⟨⟩
      rfl
    · cases r <;> simp [Target.readOnly, ControlReg.offset, ReadOnlyAt]
  · obtain ⟨k, rfl⟩ := Nat.exists_eq_add_of_le hbase
    have h4 := b.base_aligned
    refine ⟨.bytes b k, target_buffer hp (by omega) (by omega), nofun, fun hro => ?_⟩
    obtain rfl : b = .dout := by
      by_contra hd
      rw [readOnly_bytes hd] at hro
      exact nomatch hro
    change Buffer.dout.base + k + n ≤ 0x20000 + p.doutMax at hend
    exact .inr (.inr (.inr ⟨Nat.le_add_right _ _, by omega⟩))

/-- A legal access at the offset of `STATUS` is one of the whole register. -/
theorem width_of_legalAccess_status {p : Params} {n : Nat} (h : LegalAccess p 0x004 n) : n = 4 := by
  rcases h with ⟨rfl, -⟩ | ⟨b, hb, -⟩
  · rfl
  · have := b.base_ge
    omega

/-- A read of `STATUS` returns its word, whether a command runs or not (R46). -/
theorem step_read_status {s : State} {rest : List BusEvent} (hf : s.FaultFree) (hr : s.resetHeld = false)
    (hbus : s.bus = .read (s.params.coreBase + 0x004) 4 :: rest) :
    step s = .next { popped s rest with response := .data (statusWord s) } :=
  step_of_read hf hr hbus (hostRead_status (target_offset s.params .status))

/-- Settles O23: a legal access has a target, and only `STATUS` is answered while a command runs. -/
theorem busyAccessesViolateTheProtocol : Obligations.BusyAccessesViolateTheProtocol := by
  intro s rest off n v hf hr hp hb hlegal
  obtain ⟨t, ht, hstatus, hro⟩ := target_of_legalAccess hp hlegal
  refine ⟨fun hbus hoff => ?_, fun hbus hoff => ?_, fun hbus hnro => ?_⟩
  · exact step_of_read hf hr hbus (hostRead_busy ht (mt hstatus hoff) hb)
  · subst hoff
    obtain rfl := width_of_legalAccess_status hlegal
    exact step_read_status hf hr hbus
  · exact step_of_write hf hr hbus (hostWrite_busy ht (by simpa using mt hro hnro) hb)

/-! What a host read depends on (R23, R46). -/

/-- Two storages agree outside `KEY` and `PW` (R23, R40). -/
def AgreeOutsideSecrets (p : Params) (m m' : Memory) : Prop :=
  ∀ a, ¬ (0x100 ≤ a ∧ a < 0x120) → ¬ (0x1000 ≤ a ∧ a < 0x1000 + p.pwMax) → m'.get a = m.get a

/-- The state with other round keys and another storage. -/
def State.withSecrets (s : State) (rk : Vector Block 15) (m : Memory) : State := { s with rk := rk, mem := m }

theorem AgreeOutsideSecrets.get_eq {p : Params} (hp : p.wf = true) {m m' : Memory} (h : AgreeOutsideSecrets p m m')
    {b : Buffer} (hkey : b ≠ .key) (hpw : b ≠ .pw) {j : Nat} (hj : j < b.size p) :
    m'.get (b.base + j) = m.get (b.base + j) := by
  have := Params.bounds_of_wf hp
  cases b
  case key => exact absurd rfl hkey
  case pw => exact absurd rfl hpw
  all_goals
    simp only [Buffer.base, Buffer.size] at hj ⊢
    exact h _ (by omega) (by omega)

section Secrets

variable {s : State} {m : Memory} (hp : s.params.wf = true) (h : AgreeOutsideSecrets s.params s.mem m)
  (rk : Vector Block 15)

theorem readReg_withSecrets (m : Memory) (r : ControlReg) : (s.withSecrets rk m).readReg r = s.readReg r := by
  cases r <;> rfl

include hp h

theorem hostByte_withSecrets {b : Buffer} {j : Nat} (hj : j < b.size s.params) (i : Nat) :
    (s.withSecrets rk m).hostByte b j i = s.hostByte b j i := by
  cases b
  case key | pw => rfl
  all_goals exact congrArg (fun y : Option Byte => y.getD (Config.freeByte s.draws i)) (h.get_eq hp (by decide) (by decide) hj)

theorem hostBytes_withSecrets {b : Buffer} {k n : Nat} (hk : k + n ≤ b.size s.params) :
    (s.withSecrets rk m).hostBytes b k n = s.hostBytes b k n :=
  List.map_congr_left fun i hi => by
    have := List.mem_range.mp hi
    exact hostByte_withSecrets hp h rk (by omega) i

theorem readDraws_withSecrets {b : Buffer} {k n : Nat} (hk : k + n ≤ b.size s.params) :
    (s.withSecrets rk m).readDraws b k n = s.readDraws b k n := by
  have hget : b ≠ .key → b ≠ .pw → m.getRange (b.base + k) n = s.mem.getRange (b.base + k) n := fun hkey hpw =>
    Memory.getRange_congr fun i hi => by
      rw [Nat.add_assoc]
      exact h.get_eq hp hkey hpw (by omega)
  cases b
  case key | pw => rfl
  all_goals exact congrArg (·.isNone) (hget (by decide) (by decide))

/-- A host read of a state with other secrets is the same read, the secrets kept. -/
theorem hostRead_withSecrets (addr n : Nat) :
    hostRead (s.withSecrets rk m) addr n = (hostRead s addr n).withSecrets rk m := by
  have hparams : (s.withSecrets rk m).params = s.params := rfl
  have hbusy : (s.withSecrets rk m).busy = s.busy := rfl
  unfold hostRead
  rw [hparams, hbusy]
  split
  · rfl
  · rename_i t ht
    split
    · rfl
    · cases t with
      | reg r => simp only [readReg_withSecrets]; rfl
      | bytes b k =>
        have hk := target_bytes ht
        simp only [hostBytes_withSecrets hp h rk hk, readDraws_withSecrets hp h rk hk]
        rfl

end Secrets

/-- Settles O25: other round keys, keys and passwords leave the read as it is, refused or not, held or not. -/
theorem hostReadsHideSecrets : Obligations.HostReadsHideSecrets := by
  intro s rest addr n rk m hf hp hbus hm
  have hm : AgreeOutsideSecrets s.params s.mem m := hm
  show ∃ t t', _ ∧ step (s.withSecrets rk m) = .next t' ∧ _
  rcases Bool.eq_false_or_eq_true s.resetHeld with hr | hr
  · exact ⟨_, _, step_of_held_read hf hr hbus, step_of_held_read (s := s.withSecrets rk m) hf hr hbus, rfl, rfl, rfl⟩
  · exact ⟨_, _, step_of_read hf hr hbus rfl, step_of_read (s := s.withSecrets rk m) hf hr hbus
      (hostRead_withSecrets (s := popped s rest) hp hm rk addr n), rfl, rfl, rfl⟩

end Sys2Proof.Machine
end

section
/-! PROOFS. What a step changes and how a command ends (10_state.md R20, R28, R30, R33, R36; 45_envelope.md R212): the loaded
schedule, the written marks, the frame of a command, its unwritten operands, and polling until it completes. -/

namespace Sys2Proof.Machine

open Claims

/-! The loaded schedule and its sizes (R20, R128). -/

theorem instanceKept_of_popped {s t : State} (h : InstanceKept s.popped t) : InstanceKept s t :=
  ⟨h.keyValid, h.nk, h.nr, h.rk⟩

theorem hostRead_keeps_instance (s : State) (addr n : Nat) : InstanceKept s (hostRead s addr n) := by
  rcases hostRead_cases s addr n with h | h | ⟨r, d, h⟩ <;> rw [h] <;> exact ⟨rfl, rfl, rfl, rfl⟩

theorem hostWrite_keeps_instance (s : State) (addr n : Nat) (v : Word) : InstanceKept s (hostWrite s addr n v) := by
  rcases hostWrite_cases s addr n v with h | h | ⟨-, r, -, h⟩ | ⟨-, b, k, -, -, -, h⟩ <;> rw [h]
  case inr.inr.inl => cases r <;> exact ⟨rfl, rfl, rfl, rfl⟩
  all_goals exact ⟨rfl, rfl, rfl, rfl⟩

theorem keySize_mem_keySizes {n nk nr : Nat} (h : keySize n = some (nk, nr)) : (n, nk, nr) ∈ keySizes := by
  unfold keySize at h
  split at h
  case h_4 => exact nomatch h
  all_goals
    cases h
    decide

/-- A command keeps the schedule and its sizes, or it is a `KEYEXP` that loads a schedule of a legal size and succeeds. -/
theorem ending_instance {i : Instr} {s t : State} (he : Ending i s t) :
    InstanceKept s t ∨ (i = .keyexp ∧ (s.keyLen.toNat, t.nk, t.nr) ∈ keySizes ∧ t.keyValid = true ∧ Succeeded t) := by
  cases he with
  | loaded key nk nr hi hs hk => exact .inr ⟨hi, keySize_mem_keySizes hs, rfl, rfl, rfl, rfl, rfl⟩
  | error | unread | output | sealed => exact .inl ⟨rfl, rfl, rfl, rfl⟩

/-- Settles O13: of all a step can do, only `KEYEXP` and the release of a held reset write the loaded schedule. -/
theorem onlyKeyexpOrResetChangesTheInstance : Obligations.OnlyKeyexpOrResetChangesTheInstance := by
  intro s t hst
  obtain ⟨-, hc⟩ := step_cases hst
  rcases hc with ⟨addr, n, -, -, rfl⟩ | ⟨addr, n, v, -, -, rfl⟩ | ⟨-, -, rfl⟩ | ⟨-, rfl⟩ | ⟨hhead, rfl⟩ | ⟨-, ht⟩
  · exact .inl (instanceKept_of_popped (hostRead_keeps_instance s.popped addr n))
  · exact .inl (instanceKept_of_popped (hostWrite_keeps_instance s.popped addr n v))
  · exact .inl ⟨rfl, rfl, rfl, rfl⟩
  · exact .inl ⟨rfl, rfl, rfl, rfl⟩
  · rcases Bool.eq_false_or_eq_true s.resetHeld with hr | hr
    · rw [s.popped.releaseReset_of_held hr]
      exact .inr (.inr ⟨hhead, hr, rfl, rfl, rfl⟩)
    · rw [s.popped.releaseReset_of_not_held hr]
      exact .inl ⟨rfl, rfl, rfl, rfl⟩
  · rcases coreTurn_cases ht with ⟨-, rfl⟩ | ⟨hb, hr, ⟨-, -, rfl⟩ | ⟨i, hi, -, he⟩⟩
    · exact .inl ⟨rfl, rfl, rfl, rfl⟩
    · exact .inl ⟨rfl, rfl, rfl, rfl⟩
    · rcases ending_instance he with hk | ⟨rfl, hsize, hvalid, hdone⟩
      · exact .inl (instanceKept_of_popped hk)
      · exact .inr (.inl ⟨hr, hb, hi, ⟨t.nk, t.nr, hsize, rfl, rfl⟩, hvalid, hdone⟩)

/-! The written marks (R28). -/

theorem target_addr {p : Params} {addr n k : Nat} {b : Buffer} (h : target p addr n = some (.bytes b k)) :
    addr = p.coreBase + (b.base + k) := by
  unfold target windowOffset at h
  obtain ⟨off, hoff, h⟩ := Option.bind_eq_some_iff.mp h
  have hb := (targetAt_bytes h).1
  split at hoff
  · injection hoff
    omega
  · exact nomatch hoff

theorem hostRead_mem (s : State) (addr n : Nat) : (hostRead s addr n).mem = s.mem := by
  rcases hostRead_cases s addr n with h | h | ⟨r, d, h⟩ <;> rw [h] <;> rfl

/-- A host write leaves a byte as it is, or it marks a byte it covers, no command running. -/
theorem hostWrite_get {s : State} (hm : s.MemoryLegal) (addr n : Nat) (v : Word) (a : Nat) :
    (hostWrite s addr n v).mem.get a = s.mem.get a ∨
      ((hostWrite s addr n v).mem.get a ≠ none ∧ s.busy = false ∧ addr ≤ s.params.coreBase + a ∧
        s.params.coreBase + a < addr + n) := by
  rcases hostWrite_cases s addr n v with h | h | ⟨-, r, -, h⟩ | ⟨hb, b, k, -, -, ht, h⟩
  · exact .inl (by rw [h]; rfl)
  · exact .inl (by rw [h]; rfl)
  · refine .inl ?_
    rw [h]
    cases r <;> rfl
  · have haddr := target_addr ht
    have hget : (hostWrite s addr n v).mem.get a =
        if b.base + k ≤ a ∧ a < b.base + k + n then (laneBytes n v)[a - (b.base + k)]? else s.mem.get a := by
      have hset := Memory.get_setRange hm (b.base + k) a (laneBytes n v)
      rw [length_laneBytes] at hset
      rw [h]
      exact hset
    rw [hget]
    split
    · refine .inr ⟨?_, hb, by omega, by omega⟩
      rw [laneBytes_getElem? (by omega)]
      exact Option.some_ne_none _
    · exact .inl rfl

/-- A command leaves every byte of the input buffers as it is (R23, R33). -/
theorem ending_get {i : Instr} {s t : State} (he : Ending i s t) {a : Nat} (ha : a < Buffer.dout.base) :
    t.mem.get a = s.mem.get a := by
  cases he with
  | unread => rfl
  | error | output | loaded | sealed => exact Memory.get_setOutput_low _ _ ha

theorem coreTurn_get {s t : State} (ht : coreTurn s = .next t) {a : Nat} (ha : a < Buffer.dout.base) :
    t.mem.get a = s.mem.get a := by
  rcases coreTurn_cases ht with ⟨-, rfl⟩ | ⟨-, -, ⟨-, -, rfl⟩ | ⟨i, -, -, he⟩⟩
  · rfl
  · exact Memory.get_setOutput_low _ _ ha
  · exact ending_get he ha

/-- What a step can do to a byte of an input buffer: leave it, mark it by a host write that covers it, or clear its mark by
the release of a held reset. -/
theorem step_get {s t : State} (hst : step s = .next t) (hm : s.MemoryLegal) {a : Nat} (ha : a < Buffer.dout.base) :
    ((s.bus.head? ≠ some .releaseReset ∨ s.resetHeld = false) ∧ t.mem.get a = s.mem.get a) ∨
      (∃ addr n v, s.bus.head? = some (.write addr n v) ∧ s.resetHeld = false ∧ t.mem.get a ≠ none ∧ s.busy = false ∧
        addr ≤ s.params.coreBase + a ∧ s.params.coreBase + a < addr + n) ∨
      (s.bus.head? = some .releaseReset ∧ s.resetHeld = true ∧ t.mem.get a = none) := by
  obtain ⟨-, hc⟩ := step_cases hst
  rcases hc with ⟨addr, n, -, hr, rfl⟩ | ⟨addr, n, v, hhead, hr, rfl⟩ | ⟨hhead, -, rfl⟩ | ⟨hhead, rfl⟩ | ⟨hhead, rfl⟩ |
    ⟨hhead, ht⟩
  · exact .inl ⟨.inr hr, by rw [hostRead_mem]; rfl⟩
  · rcases hostWrite_get (s := s.popped) hm addr n v a with h | h
    · exact .inl ⟨.inr hr, h⟩
    · exact .inr (.inl ⟨addr, n, v, hhead, hr, h⟩)
  · refine .inl ⟨.inl ?_, rfl⟩
    rcases hhead with ⟨_, _, h⟩ | ⟨_, _, _, h⟩ <;> simp [h]
  · exact .inl ⟨.inl (by simp [hhead]), rfl⟩
  · rcases Bool.eq_false_or_eq_true s.resetHeld with hr | hr
    · rw [s.popped.releaseReset_of_held hr]
      exact .inr (.inr ⟨hhead, hr, unlisted_lt ha⟩)
    · rw [s.popped.releaseReset_of_not_held hr]
      exact .inl ⟨.inr hr, rfl⟩
  · refine .inl ⟨.inl ?_, coreTurn_get ht ha⟩
    rcases hhead with h | h <;> simp [h]

/-- Settles O14: a step leaves the byte, marks it by a host write, or clears it at the release of a held reset. -/
theorem writtenMarksChangeByWritesAndReset : Obligations.WrittenMarksChangeByWritesAndReset := by
  intro s t a hm ha hst
  rcases step_get hst hm ha with ⟨hno, hget⟩ | ⟨addr, n, v, hhead, hr, hset, hwrite⟩ | ⟨hhead, hr, hnone⟩
  · refine ⟨fun hs _ => hget ▸ hs, fun hs ht => absurd (hget.trans hs) ht, fun hhead hr => ?_⟩
    exact hno.elim (absurd hhead) fun h => by simp [hr] at h
  · refine ⟨fun _ _ => hset, fun _ _ => ⟨addr, n, v, hhead, hr, hwrite⟩, fun hrel _ => ?_⟩
    rw [hhead] at hrel
    exact nomatch hrel
  · refine ⟨fun _ hno => ?_, fun _ ht => absurd hnone ht, fun _ _ => hnone⟩
    exact hno.elim (absurd hhead) fun h => by simp [hr] at h

/-! The frame of a command (R33, R36, R212). -/

theorem ending_of_exec {i : Instr} {s t : State} (h : exec i s = .next t) : Ending i s t := by
  obtain ⟨u, hu, he⟩ := exec_ending i s
  rw [hu] at h
  injection h with h
  exact h ▸ he

theorem hostStateKept_trans {s u t : State} (h : HostStateKept s u) (h' : HostStateKept u t) : HostStateKept s t where
  params := h'.params.trans h.params
  cmd := h'.cmd.trans h.cmd
  keyLen := h'.keyLen.trans h.keyLen
  ivLen := h'.ivLen.trans h.ivLen
  dinLen := h'.dinLen.trans h.dinLen
  pwLen := h'.pwLen.trans h.pwLen
  workload := h'.workload.trans h.workload
  fault := h'.fault.trans h.fault
  resetHeld := h'.resetHeld.trans h.resetHeld
  bus := h'.bus.trans h.bus
  response := h'.response.trans h.response
  inputs := fun a ha => (h'.inputs a ha).trans (h.inputs a ha)

theorem hostStateKept_loadInstance (s : State) (key : List Byte) (nk nr : Nat) :
    HostStateKept s (s.loadInstance key nk nr) :=
  ⟨rfl, rfl, rfl, rfl, rfl, rfl, rfl, rfl, rfl, rfl, rfl, fun _ _ => rfl⟩

theorem hostStateKept_drawn (s : State) (n : Nat) : HostStateKept s (s.drawn n) :=
  ⟨rfl, rfl, rfl, rfl, rfl, rfl, rfl, rfl, rfl, rfl, rfl, fun _ _ => rfl⟩

/-- Under legal parameters the length of every output fits in `DOUT_LEN` (R5, R21). -/
theorem length_lt_of_output {p : Params} (hp : p.wf = true) {out : List Byte}
    (hl : out.length ≤ p.prefixLen + p.dinMax + 16) : out.length < 2 ^ 32 := by
  have hbounds := Params.bounds_of_wf hp
  have hmax := Params.envelope_le_doutMax hp
  unfold Params.doutMax at hmax
  omega

/-- Settles O55: the frame of each way a command can end. -/
theorem commandsWriteOnlyTheirOutput : Obligations.CommandsWriteOnlyTheirOutput := by
  intro i s t hst
  cases ending_of_exec hst with
  | error e =>
    have hf := fails_raise s e
    exact ⟨.inr ⟨hf.host, fun _ => ⟨[], hf.output⟩, .inl hf.cipherInstance, rfl, rfl⟩, fun _ => rfl, fun _ _ => rfl⟩
  | unread => exact ⟨.inl rfl, fun _ => rfl, fun _ _ => rfl⟩
  | output out _ _ hl =>
    have hlen : out.length ≤ s.params.prefixLen + s.params.dinMax + 16 := by
      unfold Params.prefixLen
      omega
    exact ⟨.inr ⟨hostStateKept_complete s out, fun hp => ⟨out, output_complete s (length_lt_of_output hp hlen)⟩,
      .inl ⟨rfl, rfl, rfl, rfl⟩, rfl, rfl⟩, fun _ => rfl, fun _ _ => rfl⟩
  | loaded key nk nr hi _ _ =>
    exact ⟨.inr ⟨hostStateKept_trans (hostStateKept_loadInstance s key nk nr) (hostStateKept_complete _ []),
      fun _ => ⟨[], output_complete _ (by simp)⟩, .inr ⟨hi, rfl, rfl, rfl, rfl⟩, rfl, rfl⟩, fun _ => rfl,
      fun _ hk => absurd hi hk⟩
  | sealed out hi hl =>
    exact ⟨.inr ⟨hostStateKept_trans (hostStateKept_drawn s 32) (hostStateKept_complete _ out),
      fun hp => ⟨out, output_complete _ (length_lt_of_output hp hl)⟩, .inl ⟨rfl, rfl, rfl, rfl⟩, rfl, rfl⟩,
      fun hn => absurd hi hn, fun hn => absurd hi hn⟩

/-! Unwritten operands (R30, R36). -/

/-- A command has ended, by a success or an error, and recorded no fault (R30, R31, R232). -/
def Ended (s t : State) : Prop := t.fault = s.fault ∧ t.busy = false ∧ t.done = true

/-- What reading operands in turn comes to: all can be read and the command ends, or one cannot and it records
`UninitialisedOperand` and nothing else (R36). -/
def EndsAfterReading (ops : List (Buffer × Nat)) (s t : State) : Prop :=
  ((∀ p ∈ ops, operand s p.1 p.2 ≠ none) ∧ Ended s t) ∨
    ((∃ p ∈ ops, operand s p.1 p.2 = none) ∧ t = s.recordFault .uninitialisedOperand)

/-- What a command comes to: its register checks fail and it ends, or they pass and it reads its operands (R231). -/
def EndsByChecks (pass : Prop) (ops : List (Buffer × Nat)) (s t : State) : Prop :=
  (¬ pass ∧ Ended s t) ∨ (pass ∧ EndsAfterReading ops s t)

theorem Memory.getRange_eq_none {m : Memory} {a n : Nat} :
    m.getRange a n = none ↔ ∃ k, k < n ∧ m.get (a + k) = none := by
  constructor
  · intro h
    by_contra hall
    have hread : m.getRange a n = some ((List.range n).map fun k => (m.get (a + k)).getD 0) := by
      refine Memory.getRange_eq_some.mpr ⟨by simp, fun k hk => ?_⟩
      obtain ⟨y, hy⟩ := Option.ne_none_iff_exists'.mp fun hnone => hall ⟨k, hk, hnone⟩
      simp [hy, hk]
    rw [h] at hread
    exact nomatch hread
  · rintro ⟨k, hk, hnone⟩
    by_contra h
    obtain ⟨x, hx⟩ := Option.ne_none_iff_exists'.mp h
    have hget := (Memory.getRange_eq_some.mp hx).2 k hk
    rw [hnone] at hget
    exact nomatch hget

theorem operand_eq_none {s : State} {b : Buffer} {n : Nat} :
    operand s b n = none ↔ ∃ k, k < n ∧ s.mem.get (b.base + k) = none := Memory.getRange_eq_none

theorem ended_complete (s : State) (out : List Byte) : Ended s (s.complete out) := ⟨rfl, rfl, rfl⟩

theorem ended_raise (s : State) (e : ErrorCode) : Ended s (s.raise e) := ⟨rfl, rfl, rfl⟩

theorem ended_finish (s : State) (r : Except ErrorCode (List Byte)) : Ended s (s.finish r) := by
  cases r with
  | ok out => exact ended_complete s out
  | error e => exact ended_raise s e

theorem endsAfterReading_nil {s t : State} (h : Ended s t) : EndsAfterReading [] s t := .inl ⟨by simp, h⟩

/-- Reading one operand before others (R36). -/
theorem endsAfterReading_withOperand {s : State} {b : Buffer} {n : Nat} {ops : List (Buffer × Nat)}
    {body : List Byte → State} (h : ∀ x, EndsAfterReading ops s (body x)) :
    EndsAfterReading ((b, n) :: ops) s (withOperand s b n body) := by
  rcases withOperand_cases s b n body with ⟨x, hx, hw⟩ | ⟨hnone, hw⟩ <;> rw [hw]
  · rcases h x with ⟨hall, hend⟩ | ⟨⟨p, hp, hnone⟩, hend⟩
    · exact .inl ⟨List.forall_mem_cons.mpr ⟨by simp [hx], hall⟩, hend⟩
    · exact .inr ⟨⟨p, List.mem_cons_of_mem _ hp, hnone⟩, hend⟩
  · exact .inr ⟨⟨(b, n), List.mem_cons_self, hnone⟩, rfl⟩

theorem endsByChecks_afterChecks {pass : Prop} {ops : List (Buffer × Nat)} {s body : State} {checks : List Check}
    (hc : firstFailure checks = none ↔ pass) (h : EndsAfterReading ops s body) :
    EndsByChecks pass ops s (afterChecks checks s body) := by
  rcases afterChecks_cases checks s body with ⟨e, hfail, he⟩ | ⟨hnone, he⟩ <;> rw [he]
  · exact .inl ⟨by rw [← hc, hfail]; simp, ended_raise s e⟩
  · exact .inr ⟨hc.mp hnone, h⟩

section Shapes

variable {pass : Prop} {checks : List Check} {s : State}

theorem endsByChecks_modeCommand (hc : firstFailure checks = none ↔ pass)
    (mode : List Byte → List Byte → Except ErrorCode (List Byte)) :
    EndsByChecks pass [(.iv, 16), (.din, s.dinLen.toNat)] s (modeCommand checks s mode) :=
  endsByChecks_afterChecks hc <| endsAfterReading_withOperand fun _ => endsAfterReading_withOperand fun _ =>
    endsAfterReading_nil (ended_finish s _)

theorem endsByChecks_envelopeCommand (hc : firstFailure checks = none ↔ pass) {body : List Byte → List Byte → State}
    (hb : ∀ pw x, Ended s (body pw x)) :
    EndsByChecks pass [(.pw, s.pwLen.toNat), (.din, s.dinLen.toNat)] s (envelopeCommand checks s body) :=
  endsByChecks_afterChecks hc <| endsAfterReading_withOperand fun _ => endsAfterReading_withOperand fun _ =>
    endsAfterReading_nil (hb _ _)

end Shapes

/-! What it is for the checks of each kind of command to pass (R231). -/

section Checks

variable (s : State)

theorem blockChecks_pass :
    firstFailure [noKeyCheck s, oneBlockCheck s] = none ↔ s.keyValid = true ∧ s.dinLen.toNat = 16 := by
  simp [firstFailure_eq_none, noKeyCheck, oneBlockCheck]

theorem modeChecks_pass :
    firstFailure (modeChecks s) = none ↔
      s.keyValid = true ∧ s.ivLen.toNat = 16 ∧ s.dinLen.toNat ≤ s.params.dinMax := by
  simp [firstFailure_eq_none, modeChecks, noKeyCheck, ivLenCheck, dinCapacityCheck]

theorem alignedModeChecks_pass :
    firstFailure (alignedModeChecks s) = none ↔
      s.keyValid = true ∧ s.ivLen.toNat = 16 ∧ s.dinLen.toNat % 16 = 0 ∧ s.dinLen.toNat ≤ s.params.dinMax := by
  simp [firstFailure_eq_none, alignedModeChecks, noKeyCheck, ivLenCheck, alignedCheck, dinCapacityCheck]

theorem dinCapacityCheck_pass :
    firstFailure [dinCapacityCheck s] = none ↔ s.dinLen.toNat ≤ s.params.dinMax := by
  simp [firstFailure_eq_none, dinCapacityCheck]

theorem envEncChecks_pass :
    firstFailure [envelopeCapacityCheck s, workloadCheck s] = none ↔
      s.dinLen.toNat ≤ s.params.dinMax ∧ s.pwLen.toNat ≤ s.params.pwMax ∧ s.workload.toNat ≠ 0 := by
  simp [firstFailure_eq_none, envelopeCapacityCheck, workloadCheck, and_assoc]

theorem envDecChecks_pass :
    firstFailure [envelopeCapacityCheck s, workloadCheck s, prefixCheck s] = none ↔
      s.dinLen.toNat ≤ s.params.dinMax ∧ s.pwLen.toNat ≤ s.params.pwMax ∧ s.workload.toNat ≠ 0 ∧
        s.params.prefixLen ≤ s.dinLen.toNat := by
  simp [firstFailure_eq_none, envelopeCapacityCheck, workloadCheck, prefixCheck, and_assoc]

theorem keySize_eq_none {n : Nat} : keySize n = none ↔ ¬ (n = 16 ∨ n = 24 ∨ n = 32) := by
  unfold keySize
  split <;> simp_all

end Checks

/-- EVERY COMMAND ends by its own register checks and operands (R36, R73, R231). -/
theorem exec_endsByChecks (i : Instr) (s : State) :
    ∃ t, exec i s = .next t ∧ EndsByChecks (RegisterChecksPass i s) (operandsOf i s) s t := by
  cases i
  case keyexp =>
    refine ⟨_, rfl, ?_⟩
    split
    · rename_i h
      exact .inl ⟨keySize_eq_none.mp h, ended_raise s _⟩
    · rename_i nk nr h
      refine .inr ⟨not_not.mp fun hn => ?_, endsAfterReading_withOperand fun _ => endsAfterReading_nil ⟨rfl, rfl, rfl⟩⟩
      rw [keySize_eq_none.mpr hn] at h
      exact nomatch h
  case encBlk | decBlk =>
    exact ⟨_, rfl, endsByChecks_afterChecks (blockChecks_pass s) <| endsAfterReading_withOperand fun _ =>
      endsAfterReading_nil (ended_complete s _)⟩
  case encCbc | encPcbc | encCfb | decCfb | encOfb | decOfb | encCtr | decCtr =>
    exact ⟨_, rfl, endsByChecks_modeCommand (modeChecks_pass s) _⟩
  case decCbc | decPcbc => exact ⟨_, rfl, endsByChecks_modeCommand (alignedModeChecks_pass s) _⟩
  case pad =>
    exact ⟨_, rfl, endsByChecks_afterChecks (dinCapacityCheck_pass s) <| endsAfterReading_withOperand fun _ =>
      endsAfterReading_nil (ended_complete s _)⟩
  case unpad =>
    exact ⟨_, rfl, endsByChecks_afterChecks (dinCapacityCheck_pass s) <| endsAfterReading_withOperand fun _ =>
      endsAfterReading_nil (ended_finish s _)⟩
  case envEnc => exact ⟨_, rfl, endsByChecks_envelopeCommand (envEncChecks_pass s) fun _ _ => ⟨rfl, rfl, rfl⟩⟩
  case envDec => exact ⟨_, rfl, endsByChecks_envelopeCommand (envDecChecks_pass s) fun _ _ => ended_finish s _⟩

/-- Settles O58: a command faults exactly when its checks pass and an operand cannot be read. -/
theorem unwrittenOperandsFault : Obligations.UnwrittenOperandsFault := by
  intro i s
  obtain ⟨t, ht, hends⟩ := exec_endsByChecks i s
  rcases hends with ⟨hfail, hend⟩ | ⟨hpass, ⟨hread, hend⟩ | ⟨⟨p, hp, hnone⟩, rfl⟩⟩
  · exact ⟨fun hpass => absurd hpass hfail, fun _ => ⟨t, ht, hend⟩⟩
  · exact ⟨fun _ ⟨p, hp, hk⟩ => absurd (operand_eq_none.mpr hk) (hread p hp), fun _ => ⟨t, ht, hend⟩⟩
  · refine ⟨fun _ _ => ht, fun h => ?_⟩
    obtain ⟨k, hk, hget⟩ := operand_eq_none.mp hnone
    rcases h with hfail | hall
    · exact absurd hpass hfail
    · exact absurd hget (hall p hp k hk)

/-! Polling until a command completes (R30, R269). -/

theorem coreRun_succ_of_next {M : Host.Core} {s u : M.State} (h : M.step s = .next u) (n : Nat) :
    M.run (n + 1) s = M.run n u := by
  rw [Host.Core.run, h]

theorem run_succ_of_next {s u : State} (h : step s = .next u) (n : Nat) :
    Sys2Proof.core.run (n + 1) s = Sys2Proof.core.run n u := coreRun_succ_of_next (M := Sys2Proof.core) h n

/-- A command that runs ends at the core's turn, or an operand byte was never written. -/
theorem coreTurn_ends {s : State} (hr : s.resetHeld = false) (hb : s.busy = true) :
    ∃ t, coreTurn s = .next t ∧ (Ended s t ∨ t.fault = some .uninitialisedOperand) := by
  rw [coreTurn_running hr hb, executeWord]
  split
  · rename_i i _
    obtain ⟨t, ht, hends⟩ := exec_endsByChecks i s
    refine ⟨t, ht, ?_⟩
    rcases hends with ⟨-, hend⟩ | ⟨-, ⟨-, hend⟩ | ⟨-, rfl⟩⟩
    · exact .inl hend
    · exact .inl hend
    · exact .inr rfl
  · exact ⟨_, rfl, .inl (ended_raise s _)⟩

/-- Settles O59: by induction on the number of polls, each of which leaves the command running. -/
theorem startedCommandsComplete : Obligations.StartedCommandsComplete := by
  intro s k
  induction k generalizing s with
  | zero =>
    intro hf hr hb hbus
    obtain ⟨t, ht, hend⟩ := coreTurn_ends hr hb
    refine ⟨fun j hj => absurd hj (Nat.not_lt_zero j), t, run_succ_of_next ((step_of_no_event hf hbus).trans ht) 0, ?_⟩
    exact hend.imp_left fun ⟨hfault, hbusy, hdone⟩ => ⟨hbusy, hdone, hfault.trans hf⟩
  | succ k ih =>
    intro hf hr hb hbus
    have hpoll := step_read_status hf hr hbus
    obtain ⟨hpolls, t, ht, hend⟩ := ih { popped s (List.replicate k (.read (s.params.coreBase + 0x004) 4)) with
      response := .data (statusWord s) } hf hr hb rfl
    refine ⟨fun j hj => ?_, t, (run_succ_of_next hpoll _).trans ht, hend⟩
    rw [run_succ_of_next hpoll]
    cases j with
    | zero => exact ⟨_, rfl, rfl, hb⟩
    | succ j => exact hpolls j (Nat.lt_of_succ_lt_succ hj)

end Sys2Proof.Machine
end

section
/-! PROOFS. The register window (20_memory.md R40 to R51): which accesses the bus refuses, what a read returns, how the 8-bit
and the 32-bit views of a buffer agree, and which accesses can be repeated. -/

namespace Sys2Proof.Machine

open Claims

/-! Reads of control registers (R46). -/

theorem hostRead_register {s : State} {addr n : Nat} {r : ControlReg} (ht : target s.params addr n = some (.reg r))
    (h : s.busy = false ∨ r = .status) : hostRead s addr n = { s with response := .data (s.readReg r) } := by
  rcases h with hb | rfl
  · simp [hostRead, ht, hb]
  · exact hostRead_status ht

/-- A read of a register returns its value, `STATUS` also while a command runs (R46). -/
theorem step_read_register {s : State} {rest : List BusEvent} (hf : s.FaultFree) (hr : s.resetHeld = false)
    (r : ControlReg) (h : s.busy = false ∨ r = .status) (hbus : s.bus = .read (s.params.coreBase + r.offset) 4 :: rest) :
    step s = .next { popped s rest with response := .data ((popped s rest).readReg r) } :=
  step_of_read hf hr hbus (hostRead_register (target_offset s.params r) h)

/-- Settles O20: each register by its offset; only the one at 0x004 is `STATUS`. -/
theorem registerReadsGiveValues : Obligations.RegisterReadsGiveValues := by
  intro s rest off v hf hr hmem hbusy hbus
  have hreg : ∃ r : ControlReg, off = r.offset ∧ v = (popped s rest).readReg r := by
    simp only [List.mem_cons, Prod.mk.injEq, List.not_mem_nil, or_false] at hmem
    rcases hmem with h | h | h | h | h | h | h | h | h
    · exact ⟨.cmd, h⟩
    · exact ⟨.status, h⟩
    · exact ⟨.keyLen, h⟩
    · exact ⟨.ivLen, h⟩
    · exact ⟨.dinLen, h⟩
    · exact ⟨.pwLen, h⟩
    · exact ⟨.workload, h⟩
    · exact ⟨.doutLen, h⟩
    · exact ⟨.cfg, h⟩
  obtain ⟨r, rfl, rfl⟩ := hreg
  refine step_read_register hf hr r (hbusy.imp_right fun hoff => ?_) hbus
  have hsame : regAt r.offset = regAt 0x004 := congrArg regAt hoff
  rw [regAt_offset] at hsame
  exact Option.some.inj hsame

/-! Values in lane order (R43). -/

theorem toNat_laneWord_cons_of_lt {x : List Byte} (hx : (laneWord x).toNat < 256 ^ 3) (b : Byte) :
    (laneWord (b :: x)).toNat = 256 * (laneWord x).toNat + b.toNat := by
  have hshift : (laneWord x <<< 8).toNat = (laneWord x).toNat <<< 8 := by
    rw [BitVec.toNat_shiftLeft, Nat.mod_eq_of_lt (by rw [Nat.shiftLeft_eq]; omega)]
  rw [laneWord, BitVec.toNat_or, hshift, BitVec.toNat_setWidth_of_le (by decide), ← Nat.shiftLeft_add_eq_or_of_lt b.isLt,
    Nat.shiftLeft_eq, Nat.mul_comm]

theorem toNat_laneWord_lt {x : List Byte} (hx : x.length ≤ 4) : (laneWord x).toNat < 256 ^ x.length := by
  induction x with
  | nil => decide
  | cons b x ih =>
    have hlen : x.length ≤ 3 := Nat.le_of_succ_le_succ hx
    have hlt := ih (Nat.le_succ_of_le hlen)
    rw [toNat_laneWord_cons_of_lt (hlt.trans_le (Nat.pow_le_pow_right (by decide) hlen)), List.length_cons, Nat.pow_succ]
    have := b.isLt
    omega

/-- The value of a string of up to four bytes, its first byte the least significant (R43). -/
theorem toNat_laneWord_cons {x : List Byte} (hx : x.length ≤ 3) (b : Byte) :
    (laneWord (b :: x)).toNat = 256 * (laneWord x).toNat + b.toNat :=
  toNat_laneWord_cons_of_lt
    ((toNat_laneWord_lt (Nat.le_succ_of_le hx)).trans_le (Nat.pow_le_pow_right (by decide) hx)) b

/-- Byte `i` of a string of up to four bytes stands in bits `[8i+7:8i]` of its value (R43). -/
theorem extract_laneWord {x : List Byte} (hx : x.length ≤ 4) {i : Nat} {y : Byte} (hy : x[i]? = some y) :
    (laneWord x).extractLsb' (8 * i) 8 = y := by
  induction x generalizing i with
  | nil => exact nomatch hy
  | cons b x ih =>
    have hlen : x.length ≤ 3 := Nat.le_of_succ_le_succ hx
    have hb := b.isLt
    apply BitVec.eq_of_toNat_eq
    rw [BitVec.extractLsb'_toNat, toNat_laneWord_cons hlen]
    cases i with
    | zero =>
      obtain rfl : b = y := Option.some.inj hy
      rw [Nat.mul_zero, Nat.shiftRight_zero]
      omega
    | succ i =>
      have hnext : (256 * (laneWord x).toNat + b.toNat) >>> 8 = (laneWord x).toNat := by
        rw [Nat.shiftRight_eq_div_pow]
        omega
      rw [← ih (Nat.le_succ_of_le hlen) hy, BitVec.extractLsb'_toNat, Nat.mul_succ, Nat.add_comm (8 * i),
        Nat.shiftRight_add, hnext]

theorem laneWord_one (y : Byte) : laneWord [y] = y.setWidth 32 := by simp [laneWord]

theorem laneWord_four (y0 y1 y2 y3 : Byte) : laneWord [y0, y1, y2, y3] = y3 ++ y2 ++ y1 ++ y0 := by
  apply BitVec.eq_of_toNat_eq
  rw [toNat_laneWord_cons (by simp), toNat_laneWord_cons (by simp), toNat_laneWord_cons (by simp), laneWord_one,
    toNat_append_eq_add, toNat_append_eq_add, toNat_append_eq_add, BitVec.toNat_setWidth_of_le (by decide)]
  omega

/-! Reads of buffers (R43, R46). -/

@[simp] theorem length_hostBytes (s : State) (b : Buffer) (k n : Nat) : (s.hostBytes b k n).length = n := by
  simp [State.hostBytes]

theorem hostBytes_getElem? (s : State) (b : Buffer) (k : Nat) {n i : Nat} (h : i < n) :
    (s.hostBytes b k n)[i]? = some (s.hostByte b (k + i) i) := by
  simp [State.hostBytes, h]

theorem hostByte_of_secret {b : Buffer} (hb : b = .key ∨ b = .pw) (s : State) (k i : Nat) : s.hostByte b k i = 0 := by
  rcases hb with rfl | rfl <;> rfl

/-- A stored byte of a readable buffer is what the host reads (R46). -/
theorem hostByte_of_stored {s : State} {b : Buffer} (hkey : b ≠ .key) (hpw : b ≠ .pw) {k : Nat} {y : Byte}
    (hy : s.mem.get (b.base + k) = some y) (i : Nat) : s.hostByte b k i = y := by
  cases b
  case key => exact absurd rfl hkey
  case pw => exact absurd rfl hpw
  all_goals simp [State.hostByte, hy]

/-- The state after a host read of `n` bytes of a buffer from byte `k` on. -/
def State.afterBufferRead (s : State) (b : Buffer) (k n : Nat) : State :=
  { s with response := .data (laneWord (s.hostBytes b k n)),
           draws := if s.readDraws b k n then s.draws + 1 else s.draws }

theorem hostRead_buffer {s : State} {addr n k : Nat} {b : Buffer} (ht : target s.params addr n = some (.bytes b k))
    (hb : s.busy = false) : hostRead s addr n = s.afterBufferRead b k n := by
  simp [hostRead, ht, hb, State.afterBufferRead]

theorem step_read_buffer {s : State} {rest : List BusEvent} {b : Buffer} {k n : Nat} (hf : s.FaultFree)
    (hr : s.resetHeld = false) (hb : s.busy = false) (hp : s.params.wf = true) (hn : n = 1 ∨ (n = 4 ∧ k % 4 = 0))
    (hk : k + n ≤ b.size s.params) (hbus : s.bus = .read (s.params.coreBase + (b.base + k)) n :: rest) :
    step s = .next ((popped s rest).afterBufferRead b k n) :=
  step_of_read hf hr hbus (hostRead_buffer (target_buffer hp hn hk) hb)

/-- Settles O19: the value read has each byte in its lane, and what each byte is depends on the buffer. -/
theorem bufferReadsGiveLanes : Obligations.BufferReadsGiveLanes := by
  intro s rest b k n hf hr hb hp hn hk hbus
  have hlen : ((popped s rest).hostBytes b k n).length = n := length_hostBytes _ b k n
  refine ⟨_, _, step_read_buffer hf hr hb hp hn hk hbus, hf, rfl, ?_, fun i hi => ?_⟩
  · have hlt := toNat_laneWord_lt (x := (popped s rest).hostBytes b k n) (by omega)
    rwa [hlen] at hlt
  · have hlane := extract_laneWord (by omega) (hostBytes_getElem? (popped s rest) b k hi)
    rw [hlane]
    exact ⟨fun hsecret => hostByte_of_secret hsecret _ _ _,
      fun hkey hpw y hy => hostByte_of_stored hkey hpw (Nat.add_assoc _ _ _ ▸ hy) i⟩

/-! Accesses of both widths to one buffer (R49). -/

/-- A read inside a string just stored returns its byte. -/
theorem Memory.get_setRange_inside {m : Memory} (hm : m.wf) (a : Nat) {x : List Byte} {i : Nat} (hi : i < x.length) :
    (m.setRange a x).get (a + i) = x[i]? := by
  rw [Memory.get_setRange hm, if_pos (by omega), Nat.add_sub_cancel_left]

/-- The host reads the string a readable buffer holds (R46). -/
theorem hostBytes_of_stored {s : State} {b : Buffer} (hkey : b ≠ .key) (hpw : b ≠ .pw) {k : Nat} {x : List Byte}
    (hx : ∀ i, i < x.length → s.mem.get (b.base + k + i) = x[i]?) : s.hostBytes b k x.length = x := by
  refine List.ext_getElem (length_hostBytes s b k _) fun i h h' => ?_
  have hget : s.mem.get (b.base + (k + i)) = some x[i] := by
    rw [← Nat.add_assoc, hx i h', List.getElem?_eq_getElem h']
  simpa [State.hostBytes] using hostByte_of_stored hkey hpw hget i

/-- The state after host writes of input buffers: the storage they leave, and the schedule still to come. -/
def State.stored (s : State) (rest : List BusEvent) (m : Memory) : State :=
  { s with bus := rest, mem := m, response := .written }

theorem step_write_buffer {s : State} {rest : List BusEvent} {b : Buffer} {k n : Nat} {v : Word} (hf : s.FaultFree)
    (hr : s.resetHeld = false) (hb : s.busy = false) (hp : s.params.wf = true) (hd : b ≠ .dout)
    (hn : n = 1 ∨ (n = 4 ∧ k % 4 = 0)) (hk : k + n ≤ b.size s.params)
    (hbus : s.bus = .write (s.params.coreBase + (b.base + k)) n v :: rest) :
    step s = .next (s.stored rest (s.mem.setRange (b.base + k) (laneBytes n v))) :=
  step_of_write hf hr hbus (hostWrite_buffer (target_buffer hp hn hk) hd hb)

theorem step_stored_write {s : State} {b : Buffer} {k n : Nat} {v : Word} (hf : s.FaultFree) (hr : s.resetHeld = false)
    (hb : s.busy = false) (hp : s.params.wf = true) (hd : b ≠ .dout) (hn : n = 1 ∨ (n = 4 ∧ k % 4 = 0))
    (hk : k + n ≤ b.size s.params) (rest : List BusEvent) (m : Memory) :
    step (s.stored (.write (s.params.coreBase + (b.base + k)) n v :: rest) m) =
      .next (s.stored rest (m.setRange (b.base + k) (laneBytes n v))) :=
  step_write_buffer (s := s.stored _ m) hf hr hb hp hd hn hk rfl

theorem step_stored_read {s : State} {b : Buffer} {k n : Nat} (hf : s.FaultFree) (hr : s.resetHeld = false)
    (hb : s.busy = false) (hp : s.params.wf = true) (hn : n = 1 ∨ (n = 4 ∧ k % 4 = 0)) (hk : k + n ≤ b.size s.params)
    (rest : List BusEvent) (m : Memory) :
    step (s.stored (.read (s.params.coreBase + (b.base + k)) n :: rest) m) =
      .next ((s.stored rest m).afterBufferRead b k n) :=
  step_read_buffer (s := s.stored _ m) hf hr hb hp hn hk rfl

/-- Host writes of one byte each, at rising addresses. -/
def byteWrites (a : Nat) : List Word → List BusEvent
  | [] => []
  | y :: ys => .write a 1 y :: byteWrites (a + 1) ys

/-- 8-bit writes at rising addresses store the string of their low bytes (R43, R44). -/
theorem run_byteWrites {s : State} {b : Buffer} {k : Nat} (hf : s.FaultFree) (hr : s.resetHeld = false)
    (hb : s.busy = false) (hp : s.params.wf = true) (hd : b ≠ .dout) (ys : List Word) (hk : k + ys.length ≤ b.size s.params)
    (rest : List BusEvent) (m : Memory) (n : Nat) :
    Sys2Proof.core.run (n + ys.length) (s.stored (byteWrites (s.params.coreBase + (b.base + k)) ys ++ rest) m) =
      Sys2Proof.core.run n (s.stored rest (m.setRange (b.base + k) (ys.map fun y => y.extractLsb' 0 8))) := by
  induction ys generalizing k m with
  | nil => rfl
  | cons y ys ih =>
    rw [List.length_cons] at hk
    exact (run_succ_of_next (step_stored_write hf hr hb hp hd (.inl rfl) (by omega) _ m) _).trans
      (ih (k := k + 1) (by omega) _)

section Views

variable {s : State} {b : Buffer} {k : Nat} (hf : s.FaultFree) (hr : s.resetHeld = false) (hb : s.busy = false)
  (hp : s.params.wf = true) (hm : s.MemoryLegal) (hiv : b = .iv ∨ b = .din) (h4 : k % 4 = 0)
  (hk : k + 4 ≤ b.size s.params)
include hf hr hb hp hm hiv h4 hk

/-- Four 8-bit writes store the string that one 32-bit read returns. -/
theorem run_byte_writes_then_word_read {y0 y1 y2 y3 : Word}
    (hbus : s.bus = byteWrites (s.params.coreBase + (b.base + k)) [y0, y1, y2, y3] ++
      [.read (s.params.coreBase + (b.base + k)) 4]) :
    ∃ t, Sys2Proof.core.run 5 s = .next t ∧ t.fault = none ∧
      t.response = .data (y3.extractLsb' 0 8 ++ y2.extractLsb' 0 8 ++ y1.extractLsb' 0 8 ++ y0.extractLsb' 0 8) := by
  obtain ⟨hkey, hpw, hd⟩ : b ≠ .key ∧ b ≠ .pw ∧ b ≠ .dout := by rcases hiv with rfl | rfl <;> decide
  have hwrite := step_write_buffer hf hr hb hp hd (.inl rfl) (by omega) hbus
  have hwrites := run_byteWrites (k := k + 1) hf hr hb hp hd [y1, y2, y3] (by simp; omega)
  have hread := step_stored_read hf hr hb hp (.inr ⟨rfl, h4⟩) hk
  refine ⟨_, (run_succ_of_next hwrite 4).trans <| (hwrites _ _ 1).trans <| run_succ_of_next (hread _ _) 0, hf, ?_⟩
  rw [← laneWord_four]
  exact congrArg (fun x => Response.data (laneWord x)) <|
    hostBytes_of_stored (x := [_, _, _, _]) hkey hpw fun i hi => Memory.get_setRange_inside hm (b.base + k) hi

/-- A 32-bit write stores the four bytes that 8-bit reads return. -/
theorem run_word_write_then_byte_read {v : Word} {i : Nat} (hi : i < 4)
    (hbus : s.bus = [.write (s.params.coreBase + (b.base + k)) 4 v, .read (s.params.coreBase + (b.base + (k + i))) 1]) :
    ∃ t, Sys2Proof.core.run 2 s = .next t ∧ t.fault = none ∧
      t.response = .data ((v.extractLsb' (8 * i) 8).setWidth 32) := by
  obtain ⟨hkey, hpw, hd⟩ : b ≠ .key ∧ b ≠ .pw ∧ b ≠ .dout := by rcases hiv with rfl | rfl <;> decide
  have hwrite := step_write_buffer hf hr hb hp hd (.inr ⟨rfl, h4⟩) hk hbus
  have hk' : k + i + 1 ≤ b.size s.params := by omega
  refine ⟨_, (run_succ_of_next hwrite 1).trans
    (run_succ_of_next (step_stored_read hf hr hb hp (.inl rfl) hk' _ _) 0), hf, ?_⟩
  have hlane := (Memory.get_setRange_inside hm (b.base + k) (by simpa using hi)).trans (laneBytes_getElem? hi v)
  rw [← laneWord_one]
  refine congrArg (fun x => Response.data (laneWord x)) (hostBytes_of_stored (x := [_]) hkey hpw fun j hj => ?_)
  obtain rfl : j = 0 := Nat.lt_one_iff.mp hj
  rw [Nat.add_zero, ← Nat.add_assoc]
  exact hlane

end Views

/-! Refused accesses (R40, R42, R45). -/

theorem exists_offset_of_target {p : Params} {addr n : Nat} {t : Target} (h : target p addr n = some t) :
    ∃ off, addr = p.coreBase + off ∧ targetAt p off n = some t := by
  unfold target windowOffset at h
  obtain ⟨off, hoff, ht⟩ := Option.bind_eq_some_iff.mp h
  split at hoff
  · injection hoff with hoff
    exact ⟨off, by omega, ht⟩
  · exact nomatch hoff

theorem offset_of_regAt {off : Nat} {r : ControlReg} (h : regAt off = some r) : off = r.offset := by
  unfold regAt at h
  split at h
  case h_10 => exact nomatch h
  all_goals
    injection h with h
    subst h
    rfl

theorem ControlReg.offset_aligned (r : ControlReg) : r.offset % 4 = 0 := by cases r <;> rfl

/-- What the bus accepts: a whole register, or an 8-bit or aligned 32-bit access of a buffer (R42). -/
theorem targetAt_cases {p : Params} {off n : Nat} {t : Target} (h : targetAt p off n = some t) :
    (∃ r, t = .reg r ∧ n = 4 ∧ off = r.offset) ∨ ∃ b k, t = .bytes b k ∧ (n = 1 ∨ (n = 4 ∧ off % 4 = 0)) := by
  unfold targetAt at h
  split at h
  · split at h
    · obtain ⟨r, hr, rfl⟩ := Option.map_eq_some_iff.mp h
      exact .inl ⟨r, rfl, ‹n = 4›, offset_of_regAt hr⟩
    · exact nomatch h
  · split at h
    · exact nomatch h
    · rename_i b _
      split at h
      · exact .inr ⟨b, _, (Option.some.inj h).symm, .inl ‹n = 1›⟩
      · split at h
        · rename_i hword
          obtain ⟨hn, halign, -⟩ := hword
          exact .inr ⟨b, _, (Option.some.inj h).symm, .inr ⟨hn, halign⟩⟩
        · exact nomatch h

/-- What the bus accepts is a legal access (R40, R42). -/
theorem legalAccess_of_targetAt {p : Params} {off n : Nat} {t : Target} (h : targetAt p off n = some t) :
    LegalAccess p off n := by
  rcases targetAt_cases h with ⟨r, -, rfl, rfl⟩ | ⟨b, k, rfl, hn⟩
  · exact .inl ⟨rfl, r.offset_aligned, r.offset_lt⟩
  · obtain ⟨rfl, hk⟩ := targetAt_bytes h
    exact .inr ⟨b, Nat.le_add_right _ _, hn, by omega⟩

/-- What the bus accepts at a read-only place is read only (R12, R24, R45). -/
theorem readOnly_of_targetAt {p : Params} (hp : p.wf = true) {off n : Nat} {t : Target} (h : targetAt p off n = some t)
    (hro : ReadOnlyAt p off) : t.readOnly = true := by
  rcases targetAt_cases h with ⟨r, rfl, -, rfl⟩ | ⟨b, k, rfl, hn⟩
  · cases r
    case status | doutLen | cfg => rfl
    all_goals simp [ReadOnlyAt, ControlReg.offset] at hro
  · obtain ⟨rfl, hk⟩ := targetAt_bytes h
    by_contra hw
    have hd : b ≠ .dout := fun hb => hw (hb ▸ rfl)
    have hend : b.base + b.size p ≤ 0x20000 := Buffer.end_le_dout hp hd
    have hbase := b.base_ge
    unfold ReadOnlyAt at hro
    omega

theorem hostRead_untargeted {s : State} {addr n : Nat} (ht : target s.params addr n = none) :
    hostRead s addr n = s.refuseAccess := by
  simp [hostRead, ht]

/-- A read that is not legal is refused (R45). -/
theorem hostRead_illegal {s : State} {addr n : Nat}
    (h : ¬ ∃ off, addr = s.params.coreBase + off ∧ LegalAccess s.params off n) : hostRead s addr n = s.refuseAccess := by
  cases ht : target s.params addr n with
  | none => exact hostRead_untargeted ht
  | some t =>
    obtain ⟨off, haddr, hoff⟩ := exists_offset_of_target ht
    exact absurd ⟨off, haddr, legalAccess_of_targetAt hoff⟩ h

/-- A write that is not legal, or to a read-only target, is refused (R45). -/
theorem hostWrite_refused {s : State} {addr n : Nat} (v : Word)
    (h : ∀ t, target s.params addr n = some t → t.readOnly = true) : hostWrite s addr n v = s.refuseAccess := by
  cases ht : target s.params addr n with
  | none => simp [hostWrite, ht]
  | some t => simp [hostWrite, ht, h t ht]

/-- An access that the bus did not refuse (R45). -/
def NotRefused (t : State) : Prop := t.fault ≠ some .busError ∧ t.response ≠ .busError

theorem notRefused_violateProtocol (s : State) : NotRefused s.violateProtocol := ⟨nofun, nofun⟩

theorem notRefused_of_faultFree {t : State} (hf : t.FaultFree) (hr : t.response ≠ .busError) : NotRefused t :=
  ⟨fun h => absurd (hf.symm.trans h) nofun, hr⟩

theorem hostRead_notRefused {s : State} {addr n : Nat} {t : Target} (hf : s.FaultFree)
    (ht : target s.params addr n = some t) : NotRefused (hostRead s addr n) := by
  by_cases hstatus : t = .reg .status
  · rw [hostRead_status (hstatus ▸ ht)]
    exact notRefused_of_faultFree hf nofun
  · cases hb : s.busy with
    | true =>
      rw [hostRead_busy ht hstatus hb]
      exact notRefused_violateProtocol s
    | false =>
      cases t with
      | reg r =>
        rw [hostRead_register ht (.inl hb)]
        exact notRefused_of_faultFree hf nofun
      | bytes b k =>
        rw [hostRead_buffer ht hb]
        exact notRefused_of_faultFree hf nofun

theorem writeReg_fault (s : State) (v : Word) (r : ControlReg) : (s.writeReg v r).fault = s.fault := by
  cases r <;> rfl

theorem hostWrite_notRefused {s : State} {addr n : Nat} {v : Word} {t : Target} (hf : s.FaultFree)
    (ht : target s.params addr n = some t) (hw : t.readOnly = false) : NotRefused (hostWrite s addr n v) := by
  cases hb : s.busy with
  | true =>
    rw [hostWrite_busy ht hw hb]
    exact notRefused_violateProtocol s
  | false =>
    cases t with
    | reg r =>
      rw [hostWrite_register ht hw hb]
      exact notRefused_of_faultFree ((writeReg_fault s v r).trans hf) nofun
    | bytes b k =>
      have hd : b ≠ .dout := by
        rintro rfl
        exact nomatch hw
      rw [hostWrite_buffer ht hd hb]
      exact notRefused_of_faultFree hf nofun

/-- Settles O22: the accesses the bus accepts are the legal ones, and a write is refused at a read-only place. -/
theorem refusedAccessesAreBusErrors : Obligations.RefusedAccessesAreBusErrors := by
  intro s rest addr n v hf hr hp
  refine ⟨fun hbus => ⟨fun hno => ?_, ?_⟩, fun hbus => ⟨fun hno => ?_, ?_⟩⟩
  · exact step_of_read hf hr hbus (hostRead_illegal (s := popped s rest) hno)
  · rintro ⟨off, rfl, hlegal⟩
    obtain ⟨t, ht, -⟩ := target_of_legalAccess hp hlegal
    exact ⟨_, step_of_read hf hr hbus rfl, hostRead_notRefused (s := popped s rest) hf ht⟩
  · refine step_of_write hf hr hbus (hostWrite_refused (s := popped s rest) v fun t ht => ?_)
    obtain ⟨off, haddr, hoff⟩ := exists_offset_of_target ht
    by_contra hw
    exact hno ⟨off, haddr, legalAccess_of_targetAt hoff, mt (readOnly_of_targetAt hp hoff) hw⟩
  · rintro ⟨off, rfl, hlegal, hnro⟩
    obtain ⟨t, ht, -, hro⟩ := target_of_legalAccess hp hlegal
    exact ⟨_, step_of_write hf hr hbus rfl,
      hostWrite_notRefused (s := popped s rest) hf ht (by simpa using mt hro hnro)⟩

theorem target_byte_of_register (p : Params) {off : Nat} (h : off < 0x24) : target p (p.coreBase + off) 1 = none := by
  refine Option.eq_none_iff_forall_ne_some.mpr fun t ht => ?_
  obtain ⟨off', haddr, hoff⟩ := exists_offset_of_target ht
  obtain rfl := Nat.add_left_cancel haddr
  rcases legalAccess_of_targetAt hoff with ⟨h4, -⟩ | ⟨b, hb, -⟩
  · exact nomatch h4
  · have := b.base_ge
    omega

/-- Settles O21: both views are of the bytes stored, and no legal access of one byte is to a register. -/
theorem mixedWidthViewsAgree : Obligations.MixedWidthViewsAgree := by
  refine ⟨fun s b k y0 y1 y2 y3 hf hr hb hp hm hiv h4 hk hbus => ?_,
    fun s b k i v hf hr hb hp hm hiv h4 hk hi hbus => ?_, fun s rest off v hf hr hoff hbus => ?_⟩
  · exact run_byte_writes_then_word_read hf hr hb hp hm hiv h4 hk hbus
  · rw [Nat.add_assoc, Nat.add_assoc] at hbus
    exact run_word_write_then_byte_read hf hr hb hp hm hiv h4 hk hi hbus
  · have ht : target (popped s rest).params (s.params.coreBase + off) 1 = none := target_byte_of_register s.params hoff
    rcases hbus with hbus | hbus
    · exact step_of_read hf hr hbus (hostRead_untargeted ht)
    · exact step_of_write hf hr hbus (hostWrite_refused v fun t h => by simp [ht] at h)

/-! Accesses made twice (R51). -/

theorem step_of_held_write {s : State} {rest : List BusEvent} {addr n : Nat} {v : Word} (hf : s.FaultFree)
    (hr : s.resetHeld = true) (hb : s.bus = .write addr n v :: rest) : step s = .next (popped s rest).unanswered := by
  rw [step_of_event hf hb]
  simp [runEvent, popped, hr]

theorem popped_of_bus {t : State} {rest : List BusEvent} (h : t.bus = rest) (l : List BusEvent) :
    popped { t with bus := l } rest = t := by
  subst h
  rfl

/-- A host read does not depend on the bus's last answer. -/
theorem hostRead_with_response (s : State) (addr n : Nat) (r : Response) :
    hostRead { s with response := r } addr n = hostRead s addr n := by
  have hreg : ∀ q, State.readReg { s with response := r } q = s.readReg q := fun q => by cases q <;> rfl
  unfold hostRead
  simp only [hreg]
  split
  · rfl
  · split
    · rfl
    · split <;> rfl

/-- A read answered without a fault changes the answer and the count of free values alone (R51). -/
theorem hostRead_of_accepted {s : State} {addr n : Nat} (hf : (hostRead s addr n).fault = none) :
    ∃ r d, hostRead s addr n = { s with response := r, draws := d } := by
  rcases hostRead_cases s addr n with h | h | h
  · exact nomatch (congrArg State.fault h).symm.trans hf
  · exact nomatch (congrArg State.fault h).symm.trans hf
  · exact h

/-- A read that is answered and takes no free value has the same answer when repeated (R51). -/
theorem hostRead_again {s : State} {addr n : Nat} (hf : (hostRead s addr n).fault = none)
    (hd : (hostRead s addr n).draws = s.draws) : hostRead (hostRead s addr n) addr n = hostRead s addr n := by
  obtain ⟨r, d, h⟩ := hostRead_of_accepted hf
  obtain rfl : d = s.draws := by rw [← hd, h]
  conv_lhs => rw [h]
  exact hostRead_with_response s addr n r

/-- Storing a string twice is storing it once. -/
theorem Memory.setRange_setRange {m : Memory} (hm : m.wf) (a : Nat) (x : List Byte) :
    (m.setRange a x).setRange a x = m.setRange a x := by
  have hm' := Memory.wf_setRange hm a x
  refine Memory.ext_get (Memory.wf_setRange hm' a x) hm' fun y => ?_
  rw [Memory.get_setRange hm', Memory.get_setRange hm]
  split <;> rfl

/-- An accepted write is not to a read-only place (R45). -/
theorem writable_of_accepted {s : State} {addr n : Nat} {v : Word} {t : Target} (ht : target s.params addr n = some t)
    (hf : (hostWrite s addr n v).fault = none) : t.readOnly = false := by
  by_contra hw
  have hrefused := hostWrite_refused (s := s) (addr := addr) (n := n) v fun t' ht' => by
    obtain rfl : t = t' := Option.some.inj (ht.symm.trans ht')
    simpa using hw
  rw [hrefused] at hf
  exact nomatch hf

theorem target_reg_addr {p : Params} {addr n : Nat} {r : ControlReg} (h : target p addr n = some (.reg r)) :
    addr = p.coreBase + r.offset := by
  obtain ⟨off, haddr, hoff⟩ := exists_offset_of_target h
  rcases targetAt_cases hoff with ⟨r', hr, -, rfl⟩ | ⟨b, k, hb, -⟩
  · injection hr with hr
    rw [hr, haddr]
  · exact nomatch hb

theorem writeReg_params (s : State) (v : Word) (r : ControlReg) : (s.writeReg v r).params = s.params := by
  cases r <;> rfl

/-- Only a write to `CMD` starts a command (R30). -/
theorem writeReg_busy (s : State) (v : Word) {r : ControlReg} (hr : r ≠ .cmd) : (s.writeReg v r).busy = s.busy := by
  cases r
  case cmd => exact absurd rfl hr
  all_goals rfl

theorem writeReg_writeReg (s : State) (v : Word) (r : ControlReg) :
    { State.writeReg { s.writeReg v r with response := .written } v r with response := .written } =
      { s.writeReg v r with response := .written } := by
  cases r <;> rfl

/-- An accepted write elsewhere than to `CMD` changes nothing more when repeated (R51). -/
theorem hostWrite_again {s : State} {addr n : Nat} {v : Word} (hm : s.MemoryLegal)
    (hf : (hostWrite s addr n v).fault = none) (haddr : addr ≠ s.params.coreBase) :
    hostWrite (hostWrite s addr n v) addr n v = hostWrite s addr n v := by
  rcases hostWrite_cases s addr n v with h | h | ⟨hb, r, ht, h⟩ | ⟨hb, b, k, hd, -, ht, h⟩
  · rw [h] at hf
    exact nomatch hf
  · rw [h] at hf
    exact nomatch hf
  · have hcmd : r ≠ .cmd := by
      rintro rfl
      exact haddr (target_reg_addr ht)
    rw [h]
    exact (hostWrite_register (s := { s.writeReg v r with response := .written }) ((writeReg_params s v r).symm ▸ ht)
      (writable_of_accepted ht hf) ((writeReg_busy s v hcmd).trans hb)).trans (writeReg_writeReg s v r)
  · rw [h]
    refine (hostWrite_buffer (s := { s with mem := s.mem.setRange _ _, response := .written }) ht hd hb).trans ?_
    simp only [Memory.setRange_setRange hm]

theorem hostRead_keeps_schedule (s : State) (addr n : Nat) :
    (hostRead s addr n).bus = s.bus ∧ (hostRead s addr n).resetHeld = s.resetHeld := by
  rcases hostRead_cases s addr n with h | h | ⟨r, d, h⟩ <;> rw [h] <;> exact ⟨rfl, rfl⟩

theorem hostWrite_keeps_schedule (s : State) (addr n : Nat) (v : Word) :
    (hostWrite s addr n v).bus = s.bus ∧ (hostWrite s addr n v).resetHeld = s.resetHeld := by
  rcases hostWrite_cases s addr n v with h | h | ⟨-, r, -, h⟩ | ⟨-, b, k, -, -, -, h⟩ <;> rw [h]
  case inr.inr.inl => cases r <;> exact ⟨rfl, rfl⟩
  all_goals exact ⟨rfl, rfl⟩

/-- Settles O24: a read writes the answer and the count of free values alone, and a write is to a register or a string. -/
theorem accessesAreIdempotent : Obligations.AccessesAreIdempotent := by
  refine ⟨fun s t rest addr n hbus hst hft => ?_, fun s t rest addr n v hp hm hbus hst hft haddr => ?_⟩
  · obtain ⟨hf, -⟩ := step_cases hst
    rcases Bool.eq_false_or_eq_true s.resetHeld with hr | hr
    · obtain rfl := Host.Outcome.next.inj ((step_of_held_read hf hr hbus).symm.trans hst)
      exact ⟨⟨_, _, rfl⟩, fun _ => step_of_held_read hf hr hbus⟩
    · obtain rfl := Host.Outcome.next.inj ((step_of_read hf hr hbus rfl).symm.trans hst)
      obtain ⟨hrest, hheld⟩ := hostRead_keeps_schedule (popped s rest) addr n
      refine ⟨hostRead_of_accepted hft, fun hd => step_of_read hft (hheld.trans hr) hbus ?_⟩
      rw [popped_of_bus (rest := rest) hrest]
      exact hostRead_again hft hd
  · obtain ⟨hf, -⟩ := step_cases hst
    rcases Bool.eq_false_or_eq_true s.resetHeld with hr | hr
    · obtain rfl := Host.Outcome.next.inj ((step_of_held_write hf hr hbus).symm.trans hst)
      exact step_of_held_write hf hr hbus
    · obtain rfl := Host.Outcome.next.inj ((step_of_write hf hr hbus rfl).symm.trans hst)
      obtain ⟨hrest, hheld⟩ := hostWrite_keeps_schedule (popped s rest) addr n v
      refine step_of_write hft (hheld.trans hr) hbus ?_
      rw [popped_of_bus (rest := rest) hrest]
      exact hostWrite_again hm hft haddr

end Sys2Proof.Machine
end

section
/-! PROOFS. What a command's result depends on (30_encoding.md R73; 10_state.md R57; 44_modes.md R180): two states that agree
on its operands run the same checks, read the same strings and end alike. -/

namespace Sys2Proof.Machine

open Claims

/-- Two ends show the host the same result: the fault, and where there is none `STATUS` without `KEY_VALID`, `DOUT_LEN` and
`DOUT`. -/
structure SameResult (t t' : State) : Prop where
  fault : t'.fault = t.fault
  result : t.fault = none →
    t'.busy = t.busy ∧ t'.done = t.done ∧ t'.err = t.err ∧ t'.errcode = t.errcode ∧ t'.doutLen = t.doutLen ∧
      ∀ k, t'.mem.get (Buffer.dout.base + k) = t.mem.get (Buffer.dout.base + k)

section Ends

variable {s s' : State} (hf : s'.fault = s.fault)

theorem sameResult_recordFault (s s' : State) (f : Fault) : SameResult (s.recordFault f) (s'.recordFault f) :=
  ⟨rfl, nofun⟩

include hf

theorem sameResult_complete (out : List Byte) : SameResult (s.complete out) (s'.complete out) :=
  ⟨hf, fun _ => ⟨rfl, rfl, rfl, rfl, rfl, fun k =>
    (Memory.get_setOutput_dout s'.mem out k).trans (Memory.get_setOutput_dout s.mem out k).symm⟩⟩

theorem sameResult_raise (e : ErrorCode) : SameResult (s.raise e) (s'.raise e) :=
  ⟨hf, fun _ => ⟨rfl, rfl, rfl, rfl, rfl, fun k =>
    (Memory.get_setOutput_dout s'.mem [] k).trans (Memory.get_setOutput_dout s.mem [] k).symm⟩⟩

theorem sameResult_finish (r : Except ErrorCode (List Byte)) : SameResult (s.finish r) (s'.finish r) := by
  cases r with
  | ok out => exact sameResult_complete hf out
  | error e => exact sameResult_raise hf e

theorem sameResult_afterChecks {checks checks' : List Check} {body body' : State} (hc : checks' = checks)
    (hb : SameResult body body') : SameResult (afterChecks checks s body) (afterChecks checks' s' body') := by
  subst hc
  unfold afterChecks
  split
  · exact sameResult_raise hf _
  · exact hb

omit hf

theorem sameResult_withOperand {b : Buffer} {n n' : Nat} {body body' : List Byte → State} (hn : n' = n)
    (hx : operand s' b n = operand s b n) (hb : ∀ x, SameResult (body x) (body' x)) :
    SameResult (withOperand s b n body) (withOperand s' b n' body') := by
  subst hn
  unfold withOperand
  rw [hx]
  split
  · exact hb _
  · exact sameResult_recordFault s s' _

end Ends

/-! The parts of `ReadsAgree`, as the commands use them. -/

theorem operand_agree {i : Instr} {s s' : State} (h : ReadsAgree i s s') {b : Buffer} {n : Nat}
    (hp : (b, n) ∈ operandsOf i s) : operand s' b n = operand s b n := by
  obtain ⟨-, hops, -⟩ := h
  exact Memory.getRange_congr (hops (b, n) hp)

section Agreement

variable {s s' : State} (hs : SameSchedule s s') (hp : s'.params = s.params) (hiv : s'.ivLen = s.ivLen)
  (hdin : s'.dinLen = s.dinLen)

include hs in
/-- The same schedule is the same forward transform (R128, R149). -/
theorem forward_agree : s'.forward = s.forward := by
  obtain ⟨-, hnr, hrk⟩ := hs
  exact cipher_congr hnr hrk

include hs in
/-- The same schedule is the same inverse transform (R128, R150). -/
theorem inverse_agree : s'.inverse = s.inverse := by
  obtain ⟨-, hnr, hrk⟩ := hs
  exact invCipher_congr hnr hrk

include hs in
theorem noKeyCheck_agree : noKeyCheck s' = noKeyCheck s := by
  obtain ⟨hkv, -⟩ := hs
  rw [noKeyCheck, hkv, noKeyCheck]

include hs hp hiv hdin

theorem modeChecks_agree : modeChecks s' = modeChecks s := by
  simp only [modeChecks, noKeyCheck_agree hs, ivLenCheck, dinCapacityCheck, hp, hiv, hdin]

theorem alignedModeChecks_agree : alignedModeChecks s' = alignedModeChecks s := by
  simp only [alignedModeChecks, noKeyCheck_agree hs, ivLenCheck, alignedCheck, dinCapacityCheck, hp, hiv, hdin]

end Agreement

/-! Each kind of command. -/

section Commands

variable {i : Instr} {s s' : State} (hf : s'.fault = s.fault) (h : ReadsAgree i s s')
include hf h

theorem sameResult_blockCommand (hi : operandsOf i s = [(.din, 16)]) (hs : SameSchedule s s')
    (hdin : s'.dinLen = s.dinLen) {f f' : BlockFn} (hm : f' = f) : SameResult (blockCommand s f) (blockCommand s' f') := by
  subst hm
  exact sameResult_afterChecks hf (by simp only [noKeyCheck_agree hs, oneBlockCheck, hdin]) <|
    sameResult_withOperand rfl (operand_agree h (by simp [hi])) fun _ => sameResult_complete hf _

theorem sameResult_modeCommand (hi : operandsOf i s = [(.iv, 16), (.din, s.dinLen.toNat)])
    (hdin : s'.dinLen = s.dinLen) {checks checks' : List Check} (hc : checks' = checks)
    {mode mode' : List Byte → List Byte → Except ErrorCode (List Byte)} (hm : mode' = mode) :
    SameResult (modeCommand checks s mode) (modeCommand checks' s' mode') := by
  subst hm
  exact sameResult_afterChecks hf hc <|
    sameResult_withOperand rfl (operand_agree h (by simp [hi])) fun _ =>
      sameResult_withOperand (congrArg _ hdin) (operand_agree h (by simp [hi])) fun _ => sameResult_finish hf _

theorem sameResult_dinCommand (hi : operandsOf i s = [(.din, s.dinLen.toNat)]) (hdin : s'.dinLen = s.dinLen)
    {body body' : List Byte → State} (hb : ∀ x, SameResult (body x) (body' x)) :
    SameResult (afterChecks [dinCapacityCheck s] s (withOperand s .din s.dinLen.toNat body))
      (afterChecks [dinCapacityCheck s'] s' (withOperand s' .din s'.dinLen.toNat body')) := by
  obtain ⟨hp, -⟩ := id h
  exact sameResult_afterChecks hf (by simp only [dinCapacityCheck, hp, hdin]) <|
    sameResult_withOperand (congrArg _ hdin) (operand_agree h (by simp [hi])) hb

theorem sameResult_envelopeCommand (hi : operandsOf i s = [(.pw, s.pwLen.toNat), (.din, s.dinLen.toNat)])
    (hdin : s'.dinLen = s.dinLen) (hpw : s'.pwLen = s.pwLen) {checks checks' : List Check} (hc : checks' = checks)
    {body body' : List Byte → List Byte → State} (hb : ∀ pw x, SameResult (body pw x) (body' pw x)) :
    SameResult (envelopeCommand checks s body) (envelopeCommand checks' s' body') :=
  sameResult_afterChecks hf hc <|
    sameResult_withOperand (congrArg _ hpw) (operand_agree h (by simp [hi])) fun pw =>
      sameResult_withOperand (congrArg _ hdin) (operand_agree h (by simp [hi])) fun x => hb pw x

end Commands

/-- EVERY COMMAND gives two states that agree on its operands the same result (R73). -/
theorem exec_sameResult {i : Instr} {s s' : State} (hf : s'.fault = s.fault) (h : ReadsAgree i s s') :
    ∃ t t', exec i s = .next t ∧ exec i s' = .next t' ∧ SameResult t t' := by
  obtain ⟨hp, -, hregs⟩ := id h
  cases i
  case keyexp =>
    have hlen : s'.keyLen = s.keyLen := hregs
    refine ⟨_, _, rfl, rfl, ?_⟩
    rw [hlen]
    split
    · exact sameResult_raise hf _
    · exact sameResult_withOperand rfl (operand_agree h List.mem_cons_self) fun key =>
        sameResult_complete (s := s.loadInstance key _ _) (s' := s'.loadInstance key _ _) hf []
  case encBlk =>
    obtain ⟨hs, hdin⟩ := hregs
    exact ⟨_, _, rfl, rfl, sameResult_blockCommand hf h rfl hs hdin (forward_agree hs)⟩
  case decBlk =>
    obtain ⟨hs, hdin⟩ := hregs
    exact ⟨_, _, rfl, rfl, sameResult_blockCommand hf h rfl hs hdin (inverse_agree hs)⟩
  case encCbc | encPcbc | encCfb | decCfb | encOfb | decOfb | encCtr | decCtr =>
    obtain ⟨hs, hiv, hdin⟩ := hregs
    exact ⟨_, _, rfl, rfl, sameResult_modeCommand hf h rfl hdin (modeChecks_agree hs hp hiv hdin)
      (by simp only [forward_agree hs, hp])⟩
  case decCbc | decPcbc =>
    obtain ⟨hs, hiv, hdin⟩ := hregs
    exact ⟨_, _, rfl, rfl, sameResult_modeCommand hf h rfl hdin (alignedModeChecks_agree hs hp hiv hdin)
      (by simp only [inverse_agree hs])⟩
  case pad => exact ⟨_, _, rfl, rfl, sameResult_dinCommand hf h rfl hregs fun _ => sameResult_complete hf _⟩
  case unpad => exact ⟨_, _, rfl, rfl, sameResult_dinCommand hf h rfl hregs fun _ => sameResult_finish hf _⟩
  case envEnc =>
    obtain ⟨hdin, hpw, hw, hrandom⟩ := hregs
    refine ⟨_, _, rfl, rfl, sameResult_envelopeCommand hf h rfl hdin hpw ?_ fun pw x => ?_⟩
    · simp only [envelopeCapacityCheck, workloadCheck, hp, hdin, hpw, hw]
    · rw [hrandom, hp, hw]
      exact sameResult_complete (s := s.drawn 32) (s' := s'.drawn 32) hf _
  case envDec =>
    obtain ⟨hdin, hpw, hw⟩ := hregs
    refine ⟨_, _, rfl, rfl, sameResult_envelopeCommand hf h rfl hdin hpw ?_ fun pw x => ?_⟩
    · simp only [envelopeCapacityCheck, workloadCheck, prefixCheck, hp, hdin, hpw, hw]
    · rw [hp, hw]
      exact sameResult_finish hf _

/-! The schedule that `KEYEXP` loads (R20, R127). -/

/-- A `KEYEXP` that succeeds has loaded the schedule of the key it read. -/
theorem ending_keyexp_success {s t : State} (he : Ending .keyexp s t) (hf : t.fault = none) (herr : t.err = false) :
    ∃ key nk nr, keySize s.keyLen.toNat = some (nk, nr) ∧ operand s .key s.keyLen.toNat = some key ∧
      t = (s.loadInstance key nk nr).complete [] := by
  cases he with
  | error => exact nomatch herr
  | unread => exact nomatch hf
  | output _ hi => exact absurd rfl hi
  | loaded key nk nr _ hs hk => exact ⟨key, nk, nr, hs, hk, rfl⟩
  | sealed _ hi => exact nomatch hi

/-- Loading one key into two states loads one schedule, whatever the free entries beyond it (R20). -/
theorem sameSchedule_loaded (s s' : State) (key : List Byte) {n nk nr : Nat} (hn : keySize n = some (nk, nr)) :
    SameSchedule ((s.loadInstance key nk nr).complete []) ((s'.loadInstance key nk nr).complete []) := by
  have hsize := keySize_sizes hn
  exact ⟨rfl, rfl, fun r hr => storeSchedule_agree (ks := expandKey key nk nr) hr
    (show nr < 15 by omega) s'.draws s.draws⟩

/-- Settles O60: the two ends show the same result, and two `KEYEXP` that succeed have read one key. -/
theorem operandsDetermineTheResult : Obligations.OperandsDetermineTheResult := by
  intro i s s' t t' hf hf' h ht ht'
  have hsame : SameResult t t' := by
    obtain ⟨u, u', hu, hu', hsame⟩ := exec_sameResult (hf'.trans hf.symm) h
    obtain rfl := Host.Outcome.next.inj (hu.symm.trans ht)
    obtain rfl := Host.Outcome.next.inj (hu'.symm.trans ht')
    exact hsame
  refine ⟨hsame.fault, fun hft => ?_⟩
  obtain ⟨hbusy, hdone, herr, hcode, hdoutLen, hdout⟩ := hsame.result hft
  refine ⟨hbusy, hdone, herr, hcode, hdoutLen, hdout, ?_⟩
  rintro rfl hok
  obtain ⟨key, nk, nr, hsize, hkey, rfl⟩ := ending_keyexp_success (ending_of_exec ht) hft hok
  obtain ⟨key', nk', nr', hsize', hkey', rfl⟩ :=
    ending_keyexp_success (ending_of_exec ht') (hsame.fault.trans hft) (herr.trans hok)
  obtain ⟨-, -, hlen⟩ := id h
  rw [show s'.keyLen = s.keyLen from hlen] at hsize' hkey'
  obtain ⟨rfl, rfl⟩ : nk = nk' ∧ nr = nr' := by simpa using hsize.symm.trans hsize'
  obtain rfl : key = key' :=
    Option.some.inj (hkey.symm.trans ((operand_agree h List.mem_cons_self).symm.trans hkey'))
  exact ⟨rfl, sameSchedule_loaded s s' key hsize⟩

end Sys2Proof.Machine
end

section
/-! PROOFS. The command word (30_encoding.md R70 to R75): what each group accepts and rejects, first by the fields and then by
the word, and the statements about decoding and encoding. -/

namespace Sys2Proof.Machine

open Claims

/-! The fields of a word as numbers (R70), and the word of given fields. -/

theorem fieldsOf_rsvd_toNat (v : Word) : (fieldsOf v).rsvd.toNat = v.toNat / 256 := by
  show (v.extractLsb' 8 24).toNat = _
  rw [BitVec.extractLsb'_toNat, Nat.shiftRight_eq_div_pow]
  omega

theorem fieldsOf_group_toNat (v : Word) : (fieldsOf v).group.toNat = v.toNat / 16 % 16 := by
  show (v.extractLsb' 4 4).toNat = _
  rw [BitVec.extractLsb'_toNat, Nat.shiftRight_eq_div_pow]

theorem fieldsOf_dir_toNat (v : Word) : (fieldsOf v).dir.toNat = v.toNat / 8 % 2 := by
  show (v.extractLsb' 3 1).toNat = _
  rw [BitVec.extractLsb'_toNat, Nat.shiftRight_eq_div_pow]

theorem fieldsOf_sel_toNat (v : Word) : (fieldsOf v).sel.toNat = v.toNat % 8 := by
  show (v.extractLsb' 0 3).toNat = _
  rw [BitVec.extractLsb'_toNat, Nat.shiftRight_zero]

/-- The four fields are all of the word (R70). -/
theorem toWord_fieldsOf (v : Word) : (fieldsOf v).toWord = v := by
  apply BitVec.eq_of_toNat_eq
  simp only [CommandFields.toWord, toNat_append_eq_add, fieldsOf_rsvd_toNat, fieldsOf_group_toNat, fieldsOf_dir_toNat,
    fieldsOf_sel_toNat]
  omega

/-! What decoding accepts (R71): every command it answers has the very fields it was answered for. -/

/-- `DIR` picks one of the two commands of a pair, `s` being the pair's `SEL` (R71). -/
theorem fields_of_pair {a b i : Instr} {g : BitVec 4} {d : BitVec 1} {s k : BitVec 3} (ha : a.fields = ⟨0, g, 0, k⟩)
    (hb : b.fields = ⟨0, g, 1, k⟩) (hs : s.toNat = k.toNat)
    (h : (Except.ok (if d.toNat = 0 then a else b) : Except DecodeError Instr) = .ok i) : i.fields = ⟨0, g, d, s⟩ := by
  obtain rfl := Except.ok.inj h
  obtain rfl := BitVec.eq_of_toNat_eq hs
  rcases BitVec.eq_zero_or_eq_one d with rfl | rfl
  · exact ha
  · exact hb

theorem fields_of_decodeKeyGroup {d : BitVec 1} {s : BitVec 3} {i : Instr}
    (h : decodeKeyGroup d.toNat s.toNat = .ok i) : i.fields = ⟨0, 0, d, s⟩ := by
  unfold decodeKeyGroup at h
  split at h
  case h_1 hd hs =>
    obtain rfl := Except.ok.inj h
    obtain rfl : d = 0 := BitVec.eq_of_toNat_eq hd
    obtain rfl : s = 1 := BitVec.eq_of_toNat_eq hs
    rfl
  case h_2 => exact nomatch h

theorem fields_of_decodeCipherGroup {d : BitVec 1} {s : BitVec 3} {i : Instr}
    (h : decodeCipherGroup d.toNat s.toNat = .ok i) : i.fields = ⟨0, 1, d, s⟩ := by
  unfold decodeCipherGroup at h
  split at h
  case h_1 hs => exact fields_of_pair (k := 0) rfl rfl hs h
  case h_2 hs => exact fields_of_pair (k := 1) rfl rfl hs h
  case h_3 hs => exact fields_of_pair (k := 2) rfl rfl hs h
  case h_4 hs => exact fields_of_pair (k := 3) rfl rfl hs h
  case h_5 hs => exact fields_of_pair (k := 4) rfl rfl hs h
  case h_6 hs => exact fields_of_pair (k := 5) rfl rfl hs h
  case h_7 => exact nomatch h

theorem fields_of_decodePaddingGroup {d : BitVec 1} {s : BitVec 3} {i : Instr}
    (h : decodePaddingGroup d.toNat s.toNat = .ok i) : i.fields = ⟨0, 2, d, s⟩ := by
  unfold decodePaddingGroup at h
  split at h
  next hs => exact fields_of_pair (k := 0) rfl rfl hs h
  next => exact nomatch h

theorem fields_of_decodeEnvelopeGroup {d : BitVec 1} {s : BitVec 3} {i : Instr}
    (h : decodeEnvelopeGroup d.toNat s.toNat = .ok i) : i.fields = ⟨0, 3, d, s⟩ := by
  unfold decodeEnvelopeGroup at h
  split at h
  next hs => exact fields_of_pair (k := 0) rfl rfl hs h
  next => exact nomatch h

theorem fields_of_decodeFields {f : CommandFields} {i : Instr} (h : decodeFields f = .ok i) : i.fields = f := by
  obtain ⟨r, g, d, s⟩ := f
  unfold decodeFields at h
  split at h
  next => exact nomatch h
  next hr =>
    obtain rfl : r = 0 := BitVec.eq_of_toNat_eq (not_not.mp hr)
    split at h
    case h_1 hg => obtain rfl : g = 0 := BitVec.eq_of_toNat_eq hg; exact fields_of_decodeKeyGroup h
    case h_2 hg => obtain rfl : g = 1 := BitVec.eq_of_toNat_eq hg; exact fields_of_decodeCipherGroup h
    case h_3 hg => obtain rfl : g = 2 := BitVec.eq_of_toNat_eq hg; exact fields_of_decodePaddingGroup h
    case h_4 hg => obtain rfl : g = 3 := BitVec.eq_of_toNat_eq hg; exact fields_of_decodeEnvelopeGroup h
    case h_5 => exact nomatch h

/-- A legal word is the word of the command it decodes to, and no other (R72). -/
theorem decode_eq_ok_iff {v : Word} {i : Instr} : decode v = .ok i ↔ v = encode i := by
  constructor
  · intro h
    rw [encode, fields_of_decodeFields h, toWord_fieldsOf]
  · rintro rfl
    exact decode_encode i

/-! What decoding rejects (R74). -/

theorem decodeKeyGroup_error_iff {d s : Nat} : (∃ e, decodeKeyGroup d s = .error e) ↔ ¬(d = 0 ∧ s = 1) := by
  unfold decodeKeyGroup
  split
  case h_1 => simp
  case h_2 h => simpa using h

theorem decodeCipherGroup_error_iff {d s : Nat} : (∃ e, decodeCipherGroup d s = .error e) ↔ 6 ≤ s := by
  unfold decodeCipherGroup
  split
  case h_7 h0 h1 h2 h3 h4 h5 =>
    simp only [imp_false] at h0 h1 h2 h3 h4 h5
    exact iff_of_true ⟨_, rfl⟩ (by omega)
  all_goals simp

theorem decodePaddingGroup_error_iff {d s : Nat} : (∃ e, decodePaddingGroup d s = .error e) ↔ s ≠ 0 := by
  unfold decodePaddingGroup
  split <;> simp [*]

theorem decodeEnvelopeGroup_error_iff {d s : Nat} : (∃ e, decodeEnvelopeGroup d s = .error e) ↔ s ≠ 0 := by
  unfold decodeEnvelopeGroup
  split <;> simp [*]

/-- The reserved fields, by group (R74). -/
theorem decodeFields_error_iff {f : CommandFields} : (∃ e, decodeFields f = .error e) ↔
    (f.rsvd.toNat ≠ 0 ∨ (f.group.toNat = 0 ∧ ¬(f.dir.toNat = 0 ∧ f.sel.toNat = 1)) ∨
      (f.group.toNat = 1 ∧ 6 ≤ f.sel.toNat) ∨
      ((f.group.toNat = 2 ∨ f.group.toNat = 3) ∧ f.sel.toNat ≠ 0) ∨ 4 ≤ f.group.toNat) := by
  unfold decodeFields
  split
  next hr => exact iff_of_true ⟨_, rfl⟩ (.inl hr)
  next hr =>
    split
    case h_1 hg => rw [decodeKeyGroup_error_iff]; omega
    case h_2 hg => rw [decodeCipherGroup_error_iff]; omega
    case h_3 hg => rw [decodePaddingGroup_error_iff]; omega
    case h_4 hg => rw [decodeEnvelopeGroup_error_iff]; omega
    case h_5 h0 h1 h2 h3 =>
      simp only [imp_false] at h0 h1 h2 h3
      exact iff_of_true ⟨_, rfl⟩ (by omega)

/-- An illegal word ends with `IllegalCommand` (R32). -/
theorem executeWord_of_error {v : Word} {e : DecodeError} (h : decode v = .error e) (s : State) :
    executeWord v s = .next (s.raise .illegalCommand) := by
  unfold executeWord
  rw [h]

/-! The statements about the word. -/

/-- Settles O3: the fields are those of the word, and what an illegal word does is `raise E(IllegalCommand)`. -/
theorem illegalWordsFail : Obligations.IllegalWordsFail := by
  constructor
  · intro v
    rw [decode, decodeFields_error_iff, fieldsOf_rsvd_toNat, fieldsOf_group_toNat, fieldsOf_dir_toNat, fieldsOf_sel_toNat]
    omega
  · rintro v s ⟨e, he⟩
    exact ⟨_, executeWord_of_error he s, fails_raise s .illegalCommand⟩

/-- Settles O2: each row of the table is the word of its command. -/
theorem legalWordsAreTheTable : Obligations.LegalWordsAreTheTable := by
  intro v i
  rw [decode_eq_ok_iff]
  cases i <;>
    simp only [List.mem_cons, List.not_mem_nil, Prod.mk.injEq, reduceCtorEq, and_true, and_false, false_or, or_false] <;>
    rfl

/-- A table row of 32 bits is decoded as its word (R75). -/
theorem decodeTableWord_toNat (v : Word) : decodeTableWord 32 v.toNat = (decode v).toOption := by
  unfold decodeTableWord
  rw [Nat.mod_eq_of_lt v.isLt, if_pos v.isLt, BitVec.ofNat_toNat, BitVec.setWidth_eq]

/-- Settles O1: a command decodes from its own word, by either decoder. -/
theorem decodeInvertsEncode : Obligations.DecodeInvertsEncode := by
  intro i _
  have h := decode_encode i
  exact ⟨h, by rw [decodeTableWord_toNat, h]; rfl⟩

/-- Settles O4: the legal words are words of commands, and the reserved field of each of the others is found by evaluation. -/
theorem sampleWordsDecode : Obligations.SampleWordsDecode :=
  ⟨decode_encode .keyexp, decode_encode .decCbc, decode_encode .encCtr, decode_encode .unpad, decode_encode .envEnc,
    by decide, by decide, by decide⟩

end Sys2Proof.Machine
end

section
/-! PROOFS. The field and the tables of 40_gf_tables.md: the laws of multiplication, the inverse, and the tables as their
algebra gives them. -/

namespace Sys2Proof.Machine

/-! The laws of multiplication (R102, R103). -/

/-- Bit 7 of a byte is its highest. -/
theorem getLsbD_seven (a : Byte) : a.getLsbD 7 = decide (128 ≤ a.toNat) := BitVec.msb_eq_decide a

/-- Doubling reduces modulo 0x11B (R102): bit 8 of `2·a`, where it is 1, is the one that 0x11B takes away. -/
theorem toNat_xtime (a : Byte) :
    (xtime a).toNat = if a.toNat < 128 then 2 * a.toNat else (2 * a.toNat) ^^^ 0x11B := by
  have hlt := a.isLt
  have hshift : (a <<< 1).toNat = 2 * a.toNat % 2 ^ 8 := by
    rw [BitVec.toNat_shiftLeft, Nat.shiftLeft_eq, Nat.mul_comm, pow_one]
  unfold xtime
  rw [BitVec.toNat_xor, hshift, getLsbD_seven]
  by_cases h : a.toNat < 128
  · rw [if_pos h, decide_eq_false (Nat.not_le.2 h)]
    exact (Nat.xor_zero _).trans (Nat.mod_eq_of_lt (by omega))
  · have hhigh : (2 * a.toNat ^^^ 0x11B) / 2 ^ 8 = 0 := by
      rw [Nat.xor_div_two_pow, show 2 * a.toNat / 2 ^ 8 = 1 by omega]; rfl
    have hlow : (2 * a.toNat ^^^ 0x11B) % 2 ^ 8 = 2 * a.toNat % 2 ^ 8 ^^^ 0x1B := Nat.xor_mod_two_pow
    rw [if_neg h, decide_eq_true (Nat.not_lt.1 h)]
    exact hlow.symm.trans (Nat.mod_eq_of_lt (by omega))

theorem gmul_zero_right (a : Byte) : gmul a 0x00 = 0x00 := by simp [gmul_bits, pick]

theorem gmul_one_right (a : Byte) : gmul a 0x01 = a := by simp [gmul_bits, pick]

theorem gmul_two_right (a : Byte) : gmul a 0x02 = xtime a := by simp [gmul_bits, pick]

/-- A byte is the sum of the powers of `x` that its bits pick (R100). -/
theorem eq_sum_pick : ∀ a : Byte, a =
    pick (a.getLsbD 0) (.twoPow 8 0) ^^^ pick (a.getLsbD 1) (.twoPow 8 1) ^^^ pick (a.getLsbD 2) (.twoPow 8 2) ^^^
      pick (a.getLsbD 3) (.twoPow 8 3) ^^^ pick (a.getLsbD 4) (.twoPow 8 4) ^^^ pick (a.getLsbD 5) (.twoPow 8 5) ^^^
      pick (a.getLsbD 6) (.twoPow 8 6) ^^^ pick (a.getLsbD 7) (.twoPow 8 7) := by
  decide +kernel

theorem gmul_one_left (a : Byte) : gmul 0x01 a = a := (gmul_bits 0x01 a).trans (eq_sum_pick a).symm

/-- Multiplications by two bytes commute: each is a sum of doublings, and doublings are linear. -/
theorem gmul_right_comm (a b c : Byte) : gmul (gmul a b) c = gmul (gmul a c) b := by
  rw [gmul_bits a b, gmul_bits (gmul a c) b]
  simp only [gmul_xor_left, gmul_pick_left, gmul_xtime_left]

theorem gmul_comm (a b : Byte) : gmul a b = gmul b a := by
  have h := gmul_right_comm 0x01 a b
  rwa [gmul_one_left, gmul_one_left] at h

theorem gmul_assoc (a b c : Byte) : gmul (gmul a b) c = gmul a (gmul b c) := by
  rw [gmul_comm a b, gmul_right_comm, gmul_comm]

/-! The inverse (R104). Squaring is linear, so eight squarings, which keep each power of `x` up to 7, keep every byte. As
`a · (a · ginv a)` is eight squarings of `a`, it is `a`. So `a · ginv a` is its own square, hence 0x00 or 0x01; and it is
not 0x00 where `a` is not. -/

/-- The square of a byte. -/
def gsq (a : Byte) : Byte := gmul a a

theorem gsq_xor (a b : Byte) : gsq (a ^^^ b) = gsq a ^^^ gsq b := by
  simp only [gsq, gmul_xor_left, gmul_xor_right, gmul_comm b a, BitVec.xor_assoc]
  rw [← BitVec.xor_assoc (gmul a b) (gmul a b), BitVec.xor_self, BitVec.zero_xor]

theorem gsq_pick (c : Bool) (a : Byte) : gsq (pick c a) = pick c (gsq a) := by
  cases c
  · exact gmul_zero_right 0x00
  · rfl

/-- A linear map that keeps each power of `x` up to 7 keeps every byte. -/
theorem eq_self_of_linear {f : Byte → Byte} (hxor : ∀ a b, f (a ^^^ b) = f a ^^^ f b)
    (hpick : ∀ c a, f (pick c a) = pick c (f a)) (hpow : ∀ i < 8, f (.twoPow 8 i) = .twoPow 8 i) (a : Byte) :
    f a = a := by
  rw [eq_sum_pick a]
  simp only [hxor, hpick, hpow, Nat.reduceLT]

theorem gsq_iterate_eight : ∀ a : Byte, gsq^[8] a = a :=
  eq_self_of_linear (fun a b => by simp only [Function.iterate_succ_apply, Function.iterate_zero_apply, gsq_xor])
    (fun c a => by simp only [Function.iterate_succ_apply, Function.iterate_zero_apply, gsq_pick]) (by decide +kernel)

/-- `ginv` is the product of the squares of `a` (log 17). -/
theorem ginv_eq (a : Byte) : ginv a =
    gmul (gmul (gmul (gmul (gmul (gmul (gsq a) (gsq^[2] a)) (gsq^[3] a)) (gsq^[4] a)) (gsq^[5] a)) (gsq^[6] a))
      (gsq^[7] a) := by
  have h : ginv a =
    gmul (gmul (gmul (gmul (gmul (gmul (gmul 0x01 (gsq a)) (gsq^[2] a)) (gsq^[3] a)) (gsq^[4] a)) (gsq^[5] a)) (gsq^[6] a))
      (gsq^[7] a) := rfl
  rw [h, gmul_one_left]

/-- The squares telescope: `a · a` times the squares from the second power on is eight squarings of `a`. -/
theorem gmul_gmul_ginv (a : Byte) : gmul a (gmul a (ginv a)) = a := by
  rw [ginv_eq]
  simp only [← gmul_assoc]
  exact gsq_iterate_eight a

theorem eq_zero_or_one_of_idempotent : ∀ e : Byte, gmul e e = e → e = 0x00 ∨ e = 0x01 := by decide +kernel

theorem gmul_ginv {a : Byte} (h : a ≠ 0x00) : gmul a (ginv a) = 0x01 := by
  have hkeeps := gmul_gmul_ginv a
  have hidem : gmul (gmul a (ginv a)) (gmul a (ginv a)) = gmul a (ginv a) := by
    rw [← gmul_assoc, gmul_comm (gmul a (ginv a)), hkeeps]
  refine (eq_zero_or_one_of_idempotent _ hidem).resolve_left fun h0 => h ?_
  rw [← hkeeps, h0, gmul_zero_right]

/-- A nonzero byte has one inverse: by associativity any other is `ginv`. -/
theorem gmul_eq_one_iff {a b : Byte} (h : a ≠ 0x00) : gmul a b = 0x01 ↔ b = ginv a := by
  constructor
  · intro hb
    calc b = gmul (gmul a (ginv a)) b := by rw [gmul_ginv h, gmul_one_left]
      _ = gmul (gmul a b) (ginv a) := gmul_right_comm _ _ _
      _ = ginv a := by rw [hb, gmul_one_left]
  · rintro rfl
    exact gmul_ginv h

theorem ginv_zero : ginv 0x00 = 0x00 := by rw [ginv_eq]; exact gmul_zero_right _

theorem ginv_ginv (a : Byte) : ginv (ginv a) = a := by
  by_cases h : a = 0x00
  · rw [h, ginv_zero, ginv_zero]
  · have hinv := gmul_ginv h
    have hne : ginv a ≠ 0x00 := by
      intro h0
      rw [h0, gmul_zero_right] at hinv
      exact absurd hinv (by decide)
    exact ((gmul_eq_one_iff hne).1 ((gmul_comm _ _).trans hinv)).symm

/-- Settles O31: the laws above, with the examples of R103 and R104 by evaluation. -/
theorem fieldLaws : Obligations.FieldLaws :=
  ⟨fun a => ⟨gmul_two_right a, toNat_xtime a⟩,
    fun a b c => ⟨gmul_comm a b, gmul_assoc a b c, gmul_xor_right a b c, gmul_one_right a, gmul_zero_right a⟩,
    by decide +kernel, by decide +kernel, fun _ _ h => gmul_eq_one_iff h, ginv_zero, by decide +kernel⟩

/-! The tables (R105 to R108). -/

theorem getLsbD_affine (a : Byte) {i : Nat} (h : i < 8) : (affine a).getLsbD i = affineBit a i := by
  have hlist := BitVec.getLsbD_ofBoolListLE (bs := (List.range 8).map (affineBit a)) (i := i)
  exact hlist.trans (by simp [h])

theorem invSbox_sbox : ∀ a : Byte, invSbox (sbox a) = a := by decide +kernel

/-- A left inverse on a finite type is a right inverse. -/
theorem sbox_invSbox (a : Byte) : sbox (invSbox a) = a := by
  have h : Function.LeftInverse invSbox sbox := invSbox_sbox
  exact h.rightInverse_of_surjective (Finite.surjective_of_injective h.injective) a

/-- The tables' own inverse of a byte, `INV_SBOX[affine(b)]`, is an inverse in the field. -/
theorem gmul_invSbox_affine : ∀ b : Byte, b ≠ 0x00 → gmul b (invSbox (affine b)) = 0x01 := by decide +kernel

theorem invSbox_affine (b : Byte) : invSbox (affine b) = ginv b := by
  by_cases h : b = 0x00
  · rw [h, ginv_zero]; decide +kernel
  · exact (gmul_eq_one_iff h).1 (gmul_invSbox_affine b h)

theorem sbox_eq_affine_ginv (a : Byte) : sbox a = affine (ginv a) := by
  rw [← sbox_invSbox (affine (ginv a)), invSbox_affine, ginv_ginv]

theorem sbox_ne : ∀ a : Byte, sbox a ≠ a ∧ sbox a ≠ a ^^^ 0xFF := by decide +kernel

theorem rcon_eq_xtime {j : Nat} (h : 2 ≤ j) (h' : j ≤ 10) : rcon j = xtime (rcon (j - 1)) := by
  interval_cases j <;> rfl

/-- Settles O32: the S-box is the affine image of `ginv`, as `INV_SBOX` after the affine map is the one inverse. -/
theorem tablesMatchTheirAlgebra : Obligations.TablesMatchTheirAlgebra :=
  ⟨fun a i => getLsbD_affine a i.isLt,
    fun a => ⟨sbox_eq_affine_ginv a, invSbox_sbox a, sbox_invSbox a, sbox_ne a⟩, rfl, fun _ => rcon_eq_xtime⟩

end Sys2Proof.Machine
end

section
/-! PROOFS. The key schedule (41_key_schedule.md R120 to R127): the expansion loop word by word, the round keys made of its
words, and the two ways `KEYEXP` ends on a readable key. -/

namespace Sys2Proof.Machine

open Claims

/-! The expansion loop by index (R121, R125). -/

/-- `W[0], W[1], ...` oldest first, after `m` turns of the loop of R125. -/
def wordsAfter (key : List Byte) (nk m : Nat) : List Column :=
  ((List.range' nk m).foldl (expandStep nk) (keyWords key nk).reverse).reverse

theorem scheduleWords_eq_wordsAfter (key : List Byte) (nk nr : Nat) :
    scheduleWords key nk nr = wordsAfter key nk (4 * (nr + 1) - nk) := rfl

/-- One turn appends a word made of the word `Nk` back and the last one; the loop holds its words newest first. -/
theorem expandStep_reverse {nk : Nat} {ws : List Column} (hnk : 0 < nk) (hlen : nk ≤ ws.length) (i : Nat) :
    (expandStep nk ws.reverse i).reverse = ws ++ [(ws.getD (ws.length - nk) default).xor
      (scheduleCore nk i (ws.getD (ws.length - 1) default))] := by
  have hold : ws.length - 1 - (nk - 1) = ws.length - nk := by omega
  simp only [expandStep, List.reverse_cons, List.reverse_reverse, List.getD_reverse _ (show nk - 1 < ws.length by omega),
    List.getD_reverse _ (show 0 < ws.length by omega), hold, Nat.sub_zero]

theorem wordsAfter_zero (key : List Byte) (nk : Nat) : wordsAfter key nk 0 = keyWords key nk :=
  List.reverse_reverse _

theorem wordsAfter_succ_eq_expandStep (key : List Byte) (nk m : Nat) :
    wordsAfter key nk (m + 1) = (expandStep nk (wordsAfter key nk m).reverse (nk + m)).reverse := by
  simp [wordsAfter, List.range'_1_concat]

@[simp] theorem length_wordsAfter (key : List Byte) (nk m : Nat) : (wordsAfter key nk m).length = nk + m := by
  induction m with
  | zero => simp [wordsAfter_zero, keyWords]
  | succ m ih => simp [wordsAfter_succ_eq_expandStep, expandStep, ih, Nat.add_assoc]

section Loop

variable {nk : Nat} (hnk : 0 < nk) (key : List Byte) (m : Nat)
include hnk

/-- Turn `m` of the loop makes `W[Nk+m]` of `W[m]` and `W[Nk+m-1]` (R125). -/
theorem wordsAfter_succ :
    wordsAfter key nk (m + 1) = wordsAfter key nk m ++ [((wordsAfter key nk m).getD m default).xor
      (scheduleCore nk (nk + m) ((wordsAfter key nk m).getD (nk + m - 1) default))] := by
  have hturn := expandStep_reverse hnk (show nk ≤ (wordsAfter key nk m).length by simp) (nk + m)
  rwa [length_wordsAfter, Nat.add_sub_cancel_left, ← wordsAfter_succ_eq_expandStep] at hturn

/-- A turn leaves the words made before it. -/
theorem wordsAfter_succ_getD {i : Nat} (hi : i < nk + m) :
    (wordsAfter key nk (m + 1)).getD i default = (wordsAfter key nk m).getD i default := by
  rw [wordsAfter_succ hnk, List.getD_append _ _ _ _ (by rwa [length_wordsAfter])]

/-- The first `Nk` words are the key (R121). -/
theorem wordsAfter_getD_of_lt {i : Nat} (hi : i < nk) : (wordsAfter key nk m).getD i default = loadColumn key i := by
  induction m with
  | zero => simp [wordsAfter_zero, keyWords, List.getD_eq_getElem?_getD, hi]
  | succ m ih => rw [wordsAfter_succ_getD hnk key m (by omega), ih]

/-- The recurrence of R125, for every word the loop has made. -/
theorem wordsAfter_getD_of_ge {i : Nat} (hge : nk ≤ i) (hi : i < nk + m) :
    (wordsAfter key nk m).getD i default = ((wordsAfter key nk m).getD (i - nk) default).xor
      (scheduleCore nk i ((wordsAfter key nk m).getD (i - 1) default)) := by
  induction m with
  | zero => omega
  | succ m ih =>
    rw [wordsAfter_succ_getD hnk key m (show i - nk < nk + m by omega),
      wordsAfter_succ_getD hnk key m (show i - 1 < nk + m by omega)]
    obtain hold | rfl : i < nk + m ∨ i = nk + m := by omega
    · rw [wordsAfter_succ_getD hnk key m hold, ih hold]
    · have hlen := length_wordsAfter key nk m
      rw [wordsAfter_succ hnk, List.getD_append_right _ _ _ _ hlen.le, hlen]
      simp

end Loop

/-- The word of one turn, byte by byte: `RotWord`, `SubWord` and `Rcon` written out (R122 to R125). -/
theorem xor_scheduleCore (nk i : Nat) (old temp : Column) :
    old.xor (scheduleCore nk i temp) =
      if i % nk = 0 then
        ⟨old.a0 ^^^ sbox temp.a1 ^^^ rcon (i / nk), old.a1 ^^^ sbox temp.a2, old.a2 ^^^ sbox temp.a3, old.a3 ^^^ sbox temp.a0⟩
      else if 6 < nk ∧ i % nk = 4 then
        ⟨old.a0 ^^^ sbox temp.a0, old.a1 ^^^ sbox temp.a1, old.a2 ^^^ sbox temp.a2, old.a3 ^^^ sbox temp.a3⟩
      else ⟨old.a0 ^^^ temp.a0, old.a1 ^^^ temp.a1, old.a2 ^^^ temp.a2, old.a3 ^^^ temp.a3⟩ := by
  unfold scheduleCore
  split_ifs
  · simp [Column.xor, subWord, rotWord, rconWord, BitVec.xor_assoc]
  · rfl
  · rfl

/-! The round keys (R126). -/

theorem expandKey_key {nr r : Nat} (hr : r ≤ nr) (key : List Byte) (nk : Nat) :
    (expandKey key nk nr).key r = roundKey (scheduleWords key nk nr) r := by
  simp [expandKey, Schedule.key, List.getD_eq_getElem?_getD, Nat.lt_succ_of_le hr]

/-- `expandKey` is `KeyExpansion` for all sizes that have a key word and no more key words than schedule words. -/
theorem expandsTo_expandKey {nk nr : Nat} (hnk : 0 < nk) (hle : nk ≤ 4 * (nr + 1)) (key : List Byte) :
    ExpandsTo key nk nr (expandKey key nk nr).key := by
  refine ⟨fun i => (scheduleWords key nk nr).getD i default, fun i hi => wordsAfter_getD_of_lt hnk key _ hi,
    fun i hge hi => ?_, fun r hr => expandKey_key hr key nk⟩
  have hrec := wordsAfter_getD_of_ge hnk key (4 * (nr + 1) - nk) hge (by omega)
  exact hrec.trans (xor_scheduleCore nk i _ _)

/-! How `KEYEXP` ends (R120, R127). -/

theorem keySize_of_mem_keySizes {n nk nr : Nat} (h : (n, nk, nr) ∈ keySizes) : keySize n = some (nk, nr) := by
  simp only [keySizes, List.mem_cons, List.not_mem_nil, or_false, Prod.mk.injEq] at h
  obtain ⟨rfl, rfl, rfl⟩ | ⟨rfl, rfl, rfl⟩ | ⟨rfl, rfl, rfl⟩ := h <;> rfl

theorem exec_keyexp_of_some {s : State} {key : List Byte} {nk nr : Nat} (hsize : keySize s.keyLen.toNat = some (nk, nr))
    (hkey : operand s .key s.keyLen.toNat = some key) :
    exec .keyexp s = .next ((s.loadInstance key nk nr).complete []) := by
  show execKeyexp s = _
  rw [execKeyexp, hsize]
  exact congrArg _ (withOperand_of_some hkey _)

theorem exec_keyexp_of_none {s : State} (hsize : keySize s.keyLen.toNat = none) :
    exec .keyexp s = .next (s.raise .invalidKeyLength) := by
  show execKeyexp s = _
  rw [execKeyexp, hsize]

/-- The loaded instance reads as the expansion of the key up to `RK[NR]` (R20, R127). -/
theorem roundKeyOf_loadInstance (s : State) (key : List Byte) {nk nr r : Nat} (hr : r ≤ nr) (h15 : nr < 15) :
    roundKeyOf (s.loadInstance key nk nr) r = (expandKey key nk nr).key r :=
  storeSchedule_getD (ks := expandKey key nk nr) hr h15 s.draws

/-- Settles O26: `expandKey` satisfies the loop of R125 by index, and a length without a size is the one error. -/
theorem keyexpLoadsTheSchedule : Obligations.KeyexpLoadsTheSchedule := by
  refine ⟨fun s key nk nr hmem hlen hholds => ?_, fun s h16 h24 h32 => ?_⟩
  · have hsize : keySize s.keyLen.toNat = some (nk, nr) := hlen ▸ keySize_of_mem_keySizes hmem
    have hbounds := keySize_sizes hsize
    exact ⟨_, _, exec_keyexp_of_some hsize (operand_eq_some.mpr ⟨hlen.symm, hholds⟩),
      expandsTo_expandKey (by omega) (by omega) key,
      fun r hr => roundKeyOf_loadInstance s key hr (by omega), rfl, rfl, rfl,
      hostStateKept_trans (hostStateKept_loadInstance s key nk nr) (hostStateKept_complete _ []),
      ⟨rfl, rfl, rfl, rfl⟩, output_complete _ (by simp), rfl⟩
  · exact ⟨_, exec_keyexp_of_none (keySize_eq_none.mpr (by simp [h16, h24, h32])), fails_raise s .invalidKeyLength⟩

end Sys2Proof.Machine
end

section
/-! PROOFS. The block core (42_block_core.md R140 to R153): the transforms entry by entry, the inverse of each, the rounds of
the two ciphers by index, and the two ways a block command ends. -/

namespace Sys2Proof.Machine

open Claims

/-! Loading and storing (R140, R141). -/

theorem loadColumn_get (x : List Byte) (c : Nat) (r : Fin 4) : (loadColumn x c).get r = x.getD (r.val + 4 * c) 0 := by
  rw [Nat.add_comm]
  match r with
  | 0 | 1 | 2 | 3 => rfl

theorem load_get (x : List Byte) (r c : Fin 4) : (load x).get r c = x.getD (r.val + 4 * c.val) 0 := by
  match c with
  | 0 | 1 | 2 | 3 => exact loadColumn_get x _ r

/-- Storing is the inverse of loading, so its layout is that of loading. -/
theorem store_getD (s : Block) (r c : Fin 4) : (store s).getD (r.val + 4 * c.val) 0 = s.get r c := by
  rw [← load_get, load_store]

/-! The byte substitutions and the row shifts (R142 to R145). -/

@[simp] theorem subBytes_get (s : Block) (r c : Fin 4) : (subBytes s).get r c = sbox (s.get r c) := Block.get_ofFn _ r c

@[simp] theorem invSubBytes_get (s : Block) (r c : Fin 4) : (invSubBytes s).get r c = invSbox (s.get r c) :=
  Block.get_ofFn _ r c

@[simp] theorem shiftRows_get (s : Block) (r c : Fin 4) : (shiftRows s).get r c = s.get r (c + r) := Block.get_ofFn _ r c

@[simp] theorem invShiftRows_get (s : Block) (r c : Fin 4) : (invShiftRows s).get r c = s.get r (c - r) :=
  Block.get_ofFn _ r c

@[simp] theorem invSubBytes_subBytes (s : Block) : invSubBytes (subBytes s) = s :=
  Block.ext_get fun r c => by simp [invSbox_sbox]

@[simp] theorem subBytes_invSubBytes (s : Block) : subBytes (invSubBytes s) = s :=
  Block.ext_get fun r c => by simp [sbox_invSbox]

@[simp] theorem invShiftRows_shiftRows (s : Block) : invShiftRows (shiftRows s) = s :=
  Block.ext_get fun r c => by simp

@[simp] theorem shiftRows_invShiftRows (s : Block) : shiftRows (invShiftRows s) = s :=
  Block.ext_get fun r c => by simp

@[simp] theorem addRoundKey_addRoundKey (s k : Block) : addRoundKey (addRoundKey s k) k = s := Block.xor_xor_cancel s k

/-! The column matrices (R146, R147): multiplying columns by one matrix and then by another is multiplying them by the
product of the two, and `M⁻¹` is the inverse of `M` on both sides. -/

/-- A row times a column over GF(2⁸). -/
def dot (a b : Fin 4 → Byte) : Byte := gmul (a 0) (b 0) ^^^ gmul (a 1) (b 1) ^^^ gmul (a 2) (b 2) ^^^ gmul (a 3) (b 3)

theorem mixWith_get (rows : List (List Byte)) (s : Block) (r c : Fin 4) :
    (mixWith rows s).get r c = dot (matrixEntry rows r) fun k => s.get k c := Block.get_ofFn _ r c

/-- A row times a matrix and then a column is the row times the product. -/
theorem dot_dot (a : Fin 4 → Byte) (m : Fin 4 → Fin 4 → Byte) (b : Fin 4 → Byte) :
    dot a (fun k => dot (m k) b) = dot (fun j => dot a fun k => m k j) b := by
  simp only [dot, gmul_xor_left, gmul_xor_right, gmul_assoc]
  ac_rfl

/-- A row of the identity matrix picks one entry of the column. -/
theorem dot_identity (r : Fin 4) (b : Fin 4 → Byte) : dot (fun j => pick (r == j) 0x01) b = b r := by
  simp only [dot, gmul_pick_left, gmul_one_left]
  match r with
  | 0 | 1 | 2 | 3 => simp [pick]

/-- Multiplying by a matrix is undone by multiplying by its left inverse. -/
theorem mixWith_mixWith {n m : List (List Byte)}
    (hinv : ∀ r j, (dot (matrixEntry n r) fun k => matrixEntry m k j) = pick (r == j) 0x01) (s : Block) :
    mixWith n (mixWith m s) = s := by
  refine Block.ext_get fun r c => ?_
  simp only [mixWith_get, dot_dot, hinv, dot_identity]

@[simp] theorem invMixColumns_mixColumns (s : Block) : invMixColumns (mixColumns s) = s :=
  mixWith_mixWith (by decide +kernel) s

@[simp] theorem mixColumns_invMixColumns (s : Block) : mixColumns (invMixColumns s) = s :=
  mixWith_mixWith (by decide +kernel) s

theorem gmul_two_left (a : Byte) : gmul 0x02 a = xtime a := (gmul_comm _ _).trans (gmul_two_right a)

theorem gmul_three_left (a : Byte) : gmul 0x03 a = xtime a ^^^ a := by
  rw [show (0x03 : Byte) = 0x02 ^^^ 0x01 from rfl, gmul_xor_left, gmul_two_left, gmul_one_left]

/-- Settles O30: each transform is read at an entry, and the products by 0x01, 0x02 and 0x03 are doublings and sums. -/
theorem roundTransformsByEntry : Obligations.RoundTransformsByEntry := by
  refine ⟨load_get, fun s r c => ⟨length_store s, store_getD s r c⟩, fun s k r c => ?_, fun s c => ?_,
    invMixColumns_mixColumns⟩
  · refine ⟨subBytes_get s r c, invSubBytes_get s r c, fun c' hc' => ?_, Block.get_xor s k r c, Block.get_xor s k r c⟩
    obtain rfl : c' = c + r := Fin.ext hc'
    exact ⟨shiftRows_get s r c, by simp⟩
  · intro a0 a1 a2 a3
    have h0 : (mixColumns s).get 0 c = gmul 0x02 a0 ^^^ gmul 0x03 a1 ^^^ gmul 0x01 a2 ^^^ gmul 0x01 a3 :=
      mixWith_get mixMatrix s 0 c
    have h1 : (mixColumns s).get 1 c = gmul 0x01 a0 ^^^ gmul 0x02 a1 ^^^ gmul 0x03 a2 ^^^ gmul 0x01 a3 :=
      mixWith_get mixMatrix s 1 c
    have h2 : (mixColumns s).get 2 c = gmul 0x01 a0 ^^^ gmul 0x01 a1 ^^^ gmul 0x02 a2 ^^^ gmul 0x03 a3 :=
      mixWith_get mixMatrix s 2 c
    have h3 : (mixColumns s).get 3 c = gmul 0x03 a0 ^^^ gmul 0x01 a1 ^^^ gmul 0x01 a2 ^^^ gmul 0x02 a3 :=
      mixWith_get mixMatrix s 3 c
    simp only [gmul_one_left, gmul_two_left, gmul_three_left] at h0 h1 h2 h3
    have hinv := mixWith_get invMixMatrix s
    exact ⟨h0, h1, h2, h3, hinv 0 c, hinv 1 c, hinv 2 c, hinv 3 c⟩

/-! The inverse law (R151). -/

/-- Loops of steps in opposite orders undo one another across a map `h`, when one step does. -/
theorem foldl_reverse_undoes {α β ι : Type} {f : α → ι → α} {g : β → ι → β} {h : α → β}
    (hstep : ∀ x r, g (h (f x r)) r = h x) (l : List ι) (x : α) : l.reverse.foldl g (h (l.foldl f x)) = h x := by
  induction l generalizing x with
  | nil => rfl
  | cons r l ih => simp only [List.reverse_cons, List.foldl_append, List.foldl_cons, List.foldl_nil, ih, hstep]

/-- An inner round of `InvCipher` undoes one of `Cipher`, seen after the row shift and substitution that follow it. -/
theorem invCipherRound_cipherRound (ks : Schedule) (s : Block) (r : Nat) :
    invCipherRound ks (shiftRows (subBytes (cipherRound ks s r))) r = shiftRows (subBytes s) := by
  simp [invCipherRound, cipherRound]

/-- And the converse, seen after the inverse row shift and substitution. -/
theorem cipherRound_invCipherRound (ks : Schedule) (s : Block) (r : Nat) :
    cipherRound ks (invSubBytes (invShiftRows (invCipherRound ks s r))) r = invSubBytes (invShiftRows s) := by
  simp [invCipherRound, cipherRound]

theorem invCipher_cipher (ks : Schedule) (x : Block) : invCipher ks (cipher ks x) = x := by
  have hrounds := foldl_reverse_undoes (h := fun s => shiftRows (subBytes s)) (invCipherRound_cipherRound ks)
    (List.range' 1 (ks.nr - 1)) (addRoundKey x (ks.key 0))
  simp only [invCipher, cipher, addRoundKey_addRoundKey, hrounds, invShiftRows_shiftRows, invSubBytes_subBytes]

theorem cipher_invCipher (ks : Schedule) (x : Block) : cipher ks (invCipher ks x) = x := by
  have hrounds := foldl_reverse_undoes (h := fun s => invSubBytes (invShiftRows s)) (cipherRound_invCipherRound ks)
    (List.range' 1 (ks.nr - 1)).reverse (addRoundKey x (ks.key ks.nr))
  rw [List.reverse_reverse] at hrounds
  simp only [invCipher, cipher, addRoundKey_addRoundKey, hrounds, subBytes_invSubBytes, shiftRows_invShiftRows]

/-- Settles O33: each transform of a round is undone, so each round is, and so the loop of rounds. -/
theorem inverseCipherUndoesCipher : Obligations.InverseCipherUndoesCipher :=
  fun ks x => ⟨invCipher_cipher ks x, cipher_invCipher ks x⟩

/-! The rounds by index (R149, R150). -/

/-- The State of `Cipher` after round `r` (R149). -/
def cipherState (ks : Schedule) (x : Block) (r : Nat) : Block :=
  (List.range' 1 r).foldl (cipherRound ks) (addRoundKey x (ks.key 0))

theorem cipherState_succ (ks : Schedule) (x : Block) (r : Nat) :
    cipherState ks x (r + 1) = cipherRound ks (cipherState ks x r) (r + 1) := by
  simp [cipherState, List.range'_1_concat, Nat.add_comm]

theorem cipher_eq_last_round (ks : Schedule) (x : Block) :
    cipher ks x = addRoundKey (shiftRows (subBytes (cipherState ks x (ks.nr - 1)))) (ks.key ks.nr) := rfl

/-- The State of `InvCipher` after the rounds from `Nr - 1` down to `r` (R150). -/
def invCipherState (ks : Schedule) (x : Block) (r : Nat) : Block :=
  (List.range' r (ks.nr - r)).reverse.foldl (invCipherRound ks) (addRoundKey x (ks.key ks.nr))

theorem invCipherState_nr (ks : Schedule) (x : Block) :
    invCipherState ks x ks.nr = addRoundKey x (ks.key ks.nr) := by
  simp [invCipherState]

theorem invCipherState_of_lt {ks : Schedule} {r : Nat} (hr : r < ks.nr) (x : Block) :
    invCipherState ks x r = invCipherRound ks (invCipherState ks x (r + 1)) r := by
  have hlen : ks.nr - r = ks.nr - (r + 1) + 1 := by omega
  simp [invCipherState, hlen, List.range'_succ]

theorem invCipher_eq_last_round (ks : Schedule) (x : Block) :
    invCipher ks x = addRoundKey (invSubBytes (invShiftRows (invCipherState ks x 1))) (ks.key 0) := rfl

/-! How a block command ends (R152, R153, R231). -/

/-- With a schedule and one written block, a block command completes with the transform of the block. -/
theorem blockCommand_completes {s : State} {x : List Byte} (hkey : s.keyValid = true) (hdin : s.dinLen.toNat = 16)
    (hlen : x.length = 16) (hholds : Holds s .din x) (f : BlockFn) :
    CompletesWith (.next (blockCommand s f)) s (store (f (load x))) := by
  have hread : operand s .din 16 = some x := operand_eq_some.2 ⟨hlen, hholds⟩
  rw [blockCommand, afterChecks_of_none ((blockChecks_pass s).2 ⟨hkey, hdin⟩), withOperand_of_some hread]
  exact ⟨_, rfl, completes_complete s (by simp)⟩

theorem blockCommand_of_noKey {s : State} (hkey : s.keyValid = false) (f : BlockFn) :
    blockCommand s f = s.raise .noKey :=
  afterChecks_of_some (by simp [firstFailure_cons, noKeyCheck, hkey]) s _

theorem blockCommand_of_length {s : State} (hkey : s.keyValid = true) (hdin : s.dinLen.toNat ≠ 16) (f : BlockFn) :
    blockCommand s f = s.raise .invalidBlockLength :=
  afterChecks_of_some (by simp [firstFailure_cons, noKeyCheck, oneBlockCheck, hkey, hdin]) s _

/-- A block command's meaning is `blockCommand` with its transform. -/
theorem exec_block {i : Instr} (hi : i = .encBlk ∨ i = .decBlk) (s : State) :
    ∃ f, exec i s = .next (blockCommand s f) := by
  obtain rfl | rfl := hi
  · exact ⟨s.forward, rfl⟩
  · exact ⟨s.inverse, rfl⟩

/-- Settles O27: the State after each round is the loop of `Cipher` cut at that round. -/
theorem encBlkRunsTheRounds : Obligations.EncBlkRunsTheRounds := by
  intro s p _ hkey hdin hlen hholds
  refine ⟨cipherState s.schedule (load p), rfl, fun r hr _ => ?_, ?_⟩
  · obtain ⟨r, rfl⟩ := Nat.exists_eq_add_of_le' hr
    exact cipherState_succ s.schedule (load p) r
  · have hend : CompletesWith (exec .encBlk s) s (store (cipher s.schedule (load p))) :=
      blockCommand_completes hkey hdin hlen hholds s.forward
    rwa [cipher_eq_last_round] at hend

/-- Settles O28: the State after each round is the loop of `InvCipher` cut at that round. -/
theorem decBlkRunsTheInverseRounds : Obligations.DecBlkRunsTheInverseRounds := by
  intro s c _ hkey hdin hlen hholds
  refine ⟨invCipherState s.schedule (load c), invCipherState_nr s.schedule (load c),
    fun r _ hr => invCipherState_of_lt (ks := s.schedule) hr (load c), ?_⟩
  have hend : CompletesWith (exec .decBlk s) s (store (invCipher s.schedule (load c))) :=
    blockCommand_completes hkey hdin hlen hholds s.inverse
  rwa [invCipher_eq_last_round] at hend

/-- Settles O29: the first check that fails names the error. -/
theorem blockCommandChecks : Obligations.BlockCommandChecks := by
  intro i s hi
  obtain ⟨f, hf⟩ := exec_block hi s
  rw [hf]
  refine ⟨fun hkey => ?_, fun hkey hdin => ?_⟩
  · exact ⟨_, congrArg _ (blockCommand_of_noKey hkey f), fails_raise s .noKey⟩
  · exact ⟨_, congrArg _ (blockCommand_of_length hkey hdin f), fails_raise s .invalidBlockLength⟩

end Sys2Proof.Machine
end

section
/-! PROOFS. Padding (43_padding.md R170 to R175): what `unpad` answers on every string, and how the two padding commands end. -/

namespace Sys2Proof.Machine

open Claims

/-! The strings that end in padding (R170, R171). -/

theorem pkcsPad_eq_appended (x : List Byte) : pkcsPad x = appended x (padCount x.length) := rfl

@[simp] theorem length_appended (x : List Byte) (b : Nat) : (appended x b).length = x.length + b := by simp [appended]

theorem getLast?_appended (x : List Byte) {b : Nat} (hb : 1 ≤ b) : (appended x b).getLast? = some (BitVec.ofNat 8 b) := by
  simp [appended, List.getLast?_append, List.getLast?_replicate, Nat.ne_of_gt hb]

/-- The last byte of a padding holds its number (R170). -/
theorem toNat_padByte {b : Nat} (hb : b ≤ 16) : (BitVec.ofNat 8 b).toNat = b := by
  rw [BitVec.toNat_ofNat, Nat.mod_eq_of_lt (by omega)]

/-- `unpad` strips any padding of 1 to 16 bytes, of the canonical length or not (R171). -/
theorem pkcsUnpad_appended (x : List Byte) {b : Nat} (h1 : 1 ≤ b) (h16 : b ≤ 16) : pkcsUnpad (appended x b) = .ok x := by
  have hdrop : (appended x b).drop x.length = List.replicate b (BitVec.ofNat 8 b) := List.drop_left
  have htake : (appended x b).take x.length = x := List.take_left
  have hpos : b ≠ 0 := by omega
  simp [pkcsUnpad, getLast?_appended x h1, toNat_padByte h16, hpos, h16, hdrop, htake]

/-- `unpad` answers `InvalidPadding`, or its string ends in a padding of 1 to 16 bytes and it answers the rest (R171, R173). -/
theorem pkcsUnpad_cases (d : List Byte) : pkcsUnpad d = .error .invalidPadding ∨
    ∃ x b, 1 ≤ b ∧ b ≤ 16 ∧ d = appended x b ∧ pkcsUnpad d = .ok x := by
  unfold pkcsUnpad
  split
  · exact .inl rfl
  next last _ =>
    dsimp only
    split_ifs with hrange hlong hbytes
    · exact .inl rfl
    · exact .inl rfl
    · exact .inl rfl
    · refine .inr ⟨_, last.toNat, by omega, by omega, ?_, rfl⟩
      have hdrop := not_not.mp hbytes
      rw [appended, BitVec.ofNat_toNat, BitVec.setWidth_eq, ← hdrop, List.take_append_drop]

theorem pkcsUnpad_of_no_padding {d : List Byte} (h : ∀ x b, 1 ≤ b → b ≤ 16 → d ≠ appended x b) :
    pkcsUnpad d = .error .invalidPadding := by
  rcases pkcsUnpad_cases d with herr | ⟨x, b, h1, h16, hd, -⟩
  · exact herr
  · exact absurd hd (h x b h1 h16)

/-- Finishing with what `unpad` gives is how a command that unpads ends (R171, R175). -/
theorem endsByUnpadding_finish (s : State) {d : List Byte} (hd : d.length < 2 ^ 32) :
    EndsByUnpadding (.next (s.finish (pkcsUnpad d))) s d := by
  refine ⟨fun x b h1 h16 he => ?_, fun hnone => ?_⟩
  · rw [he, length_appended] at hd
    rw [he, pkcsUnpad_appended x h1 h16]
    exact ⟨_, rfl, completes_complete s (by omega)⟩
  · rw [pkcsUnpad_of_no_padding hnone]
    exact ⟨_, rfl, fails_raise s .invalidPadding⟩

theorem pkcsUnpad_pkcsPad (m : List Byte) : pkcsUnpad (pkcsPad m) = .ok m := by
  have ⟨h1, h16⟩ := padCount_bounds m.length
  rw [pkcsPad_eq_appended, pkcsUnpad_appended m h1 h16]

/-- A padded string ends in a byte that holds the number of bytes appended (R170). -/
theorem getLast?_pkcsPad (m : List Byte) : (pkcsPad m).getLast? = some (BitVec.ofNat 8 (padCount m.length)) := by
  rw [pkcsPad_eq_appended, getLast?_appended m (padCount_bounds m.length).1]

/-- Settles O48: `pad` appends a padding that `unpad` strips; two bytes 0x01 end in one too but are no whole block. -/
theorem paddingLaws : Obligations.PaddingLaws := by
  refine ⟨fun m => ?_, pkcsUnpad_appended [0x01] (b := 1) (by decide) (by decide), fun m he => ?_⟩
  · have ⟨h1, h16⟩ := padCount_bounds m.length
    have hbyte := toNat_padByte h16
    refine ⟨pkcsUnpad_pkcsPad m, ?_, ?_, _, getLast?_pkcsPad m, by omega, by omega⟩ <;> rw [length_pkcsPad] <;> omega
  · have hlen := congrArg List.length he
    rw [length_pkcsPad, List.length_cons, List.length_singleton] at hlen
    omega

/-! How the padding commands end (R174, R175): their one check is the capacity of their input. -/

section DinCommand

variable {s : State} (body : List Byte → State)

/-- A ready input passes the check and is what the command reads. -/
theorem dinCommand_ready {x : List Byte} (h : InputReady s x) :
    afterChecks [dinCapacityCheck s] s (withOperand s .din s.dinLen.toNat body) = body x := by
  rw [afterChecks_of_none ((dinCapacityCheck_pass s).mpr (h.length ▸ h.fits)),
    withOperand_of_some (operand_eq_some.mpr ⟨h.length.symm, h.bytes⟩)]

theorem dinCommand_of_capacity (h : s.params.dinMax < s.dinLen.toNat) :
    FailsWith (.next (afterChecks [dinCapacityCheck s] s (withOperand s .din s.dinLen.toNat body))) s 0x13 := by
  rw [afterChecks_of_some (e := .capacityExceeded) (by simp [firstFailure_cons, dinCapacityCheck, h])]
  exact ⟨_, rfl, fails_raise s .capacityExceeded⟩

end DinCommand

theorem exec_pad_ready {s : State} {x : List Byte} (h : InputReady s x) : exec .pad s = .next (s.complete (pkcsPad x)) :=
  congrArg _ (dinCommand_ready _ h)

theorem exec_unpad_ready {s : State} {d : List Byte} (h : InputReady s d) :
    exec .unpad s = .next (s.finish (pkcsUnpad d)) :=
  congrArg _ (dinCommand_ready _ h)

theorem length_lt_of_inputReady {s : State} {x : List Byte} (h : InputReady s x) : x.length < 2 ^ 32 :=
  h.length ▸ s.dinLen.isLt

/-- Settles O47: an input read is finished with what `unpad` gives; one beyond the buffer fails the only check. -/
theorem unpadStripsPadding : Obligations.UnpadStripsPadding := by
  refine ⟨fun s d h => ?_, fun s h => ?_⟩
  · rw [exec_unpad_ready h]
    exact endsByUnpadding_finish s (length_lt_of_inputReady h)
  · exact dinCommand_of_capacity _ h

/-- Settles O46: `pkcsPad` is the string named, and no check looks at the cipher instance. -/
theorem padAppendsPadding : Obligations.PadAppendsPadding := by
  refine ⟨fun s x h => ?_, fun s h => ?_⟩
  · have hmax := Params.bounds_of_wf h.params
    have hfits := h.fits
    exact ⟨_, exec_pad_ready h, completes_complete s (by rw [length_pkcsPad]; omega)⟩
  · exact dinCommand_of_capacity _ h

end Sys2Proof.Machine
end

section
/-! PROOFS. The loops of the five modes (44_modes.md R180 to R192): how a string is its first block and the rest, and what any
loop over blocks gives block by block, how another undoes it, when it XORs a keystream, and what the counter counts. -/

namespace Sys2Proof.Machine

open Claims

/-! A string as its first block and the rest (R180). -/

/-- `y` is the first block of the string `y ‖ r`: 16 bytes, or the whole of a shorter string. -/
def FirstBlock (y r : List Byte) : Prop := y.length = 16 ∨ (0 < y.length ∧ y.length < 16 ∧ r = [])

section FirstBlock

variable {y r : List Byte}

theorem FirstBlock.length_le (h : FirstBlock y r) : y.length ≤ 16 := by
  rcases h with h | ⟨-, h, -⟩ <;> omega

theorem FirstBlock.length_pos (h : FirstBlock y r) : 0 < y.length := by
  rcases h with h | ⟨h, -, -⟩ <;> omega

/-- Another string splits at the same place, when it is as long block by block. -/
theorem FirstBlock.of_length (h : FirstBlock y r) {y' r' : List Byte} (hy : y'.length = y.length)
    (hr : r = [] → r' = []) : FirstBlock y' r' := by
  rcases h with h | ⟨hpos, hlt, hnil⟩
  · exact .inl (hy.trans h)
  · exact .inr ⟨hy ▸ hpos, hy ▸ hlt, hr hnil⟩

theorem FirstBlock.take (h : FirstBlock y r) : (y ++ r).take 16 = y := by
  rcases h with h | ⟨-, hlt, rfl⟩
  · exact List.take_left' h
  · rw [List.append_nil, List.take_of_length_le (by omega)]

theorem FirstBlock.drop (h : FirstBlock y r) : (y ++ r).drop 16 = r := by
  rcases h with h | ⟨-, hlt, rfl⟩
  · exact List.drop_left' h
  · rw [List.append_nil, List.drop_of_length_le (by omega)]

theorem FirstBlock.blocksOf (h : FirstBlock y r) : blocksOf (y ++ r) = y :: blocksOf r := by
  have hne : y ++ r ≠ [] := by simp [List.ne_nil_of_length_pos h.length_pos]
  rw [blocksOf_of_ne_nil hne, h.take, h.drop]

theorem FirstBlock.chunk_zero (h : FirstBlock y r) : chunk (y ++ r) 0 = y := h.take

theorem FirstBlock.chunk_succ (h : FirstBlock y r) (i : Nat) : chunk (y ++ r) (i + 1) = chunk r i := by
  rw [← chunk_drop, h.drop]

end FirstBlock

theorem chunk_nil (i : Nat) : chunk [] i = [] := by simp [chunk]

theorem length_chunk_le (x : List Byte) (i : Nat) : (chunk x i).length ≤ 16 := List.length_take_le _ _

/-- Byte `k` of a string is byte `k % 16` of its block `k / 16`. -/
theorem getD_chunk (x : List Byte) (k : Nat) : (chunk x (k / 16)).getD (k % 16) 0 = x.getD k 0 := by
  have hlt : k % 16 < 16 := Nat.mod_lt _ (by decide)
  rw [chunk, List.getD_eq_getElem?_getD, List.getD_eq_getElem?_getD, List.getElem?_take_of_lt hlt, List.getElem?_drop,
    Nat.div_add_mod]

theorem mod_lt_length_chunk {x : List Byte} {k : Nat} (hk : k < x.length) : k % 16 < (chunk x (k / 16)).length := by
  rw [chunk, List.length_take, List.length_drop]
  omega

/-- A string has its first block taken off until nothing is left (R180). -/
theorem blocks_induction {p : List Byte → Prop} (nil : p []) (cons : ∀ y r, FirstBlock y r → p r → p (y ++ r))
    (x : List Byte) : p x := by
  induction hn : x.length using Nat.strong_induction_on generalizing x with
  | _ n ih =>
    by_cases hx : x.length = 0
    · rwa [List.length_eq_zero_iff.mp hx]
    · have hfirst : FirstBlock (x.take 16) (x.drop 16) := by
        by_cases h16 : 16 ≤ x.length
        · exact .inl (by rw [List.length_take]; omega)
        · exact .inr ⟨by rw [List.length_take]; omega, by rw [List.length_take]; omega,
            List.drop_of_length_le (by omega)⟩
      have hrest := ih _ (by rw [List.length_drop]; omega) (x.drop 16) rfl
      rw [← List.take_append_drop 16 x]
      exact cons _ _ hfirst hrest

/-! Loops over blocks. -/

/-- A loop that makes of a chaining value `v` and a block `y` the output `emit v y` and the next chaining value `next v y`. -/
structure BlockLoop {σ : Type} (emit : σ → List Byte → List Byte) (next : σ → List Byte → σ)
    (loop : σ → List (List Byte) → List Byte) : Prop where
  nil : ∀ v, loop v [] = []
  cons : ∀ v y ys, loop v (y :: ys) = emit v y ++ loop (next v y) ys

/-- The chaining value before block `i` of a sequence of blocks. -/
def chainingValue {σ : Type} (next : σ → List Byte → σ) (v : σ) (X : Nat → List Byte) : Nat → σ
  | 0 => v
  | i + 1 => next (chainingValue next v X i) (X i)

theorem chainingValue_succ {σ : Type} (next : σ → List Byte → σ) (v : σ) (X : Nat → List Byte) (i : Nat) :
    chainingValue next v X (i + 1) = chainingValue next (next v (X 0)) (fun j => X (j + 1)) i := by
  induction i with
  | zero => rfl
  | succ i ih => rw [chainingValue, ih, chainingValue]

section Loops

variable {σ : Type} {emit emit' : σ → List Byte → List Byte} {next next' : σ → List Byte → σ}
  {loop loop' : σ → List (List Byte) → List Byte}

/-- The output of a loop over the first `n` blocks of a sequence, block by block. -/
theorem BlockLoop.loop_range (h : BlockLoop emit next loop) (n : Nat) (v : σ) (X : Nat → List Byte) :
    loop v ((List.range n).map X) = (List.range n).flatMap fun i => emit (chainingValue next v X i) (X i) := by
  induction n generalizing v X with
  | zero => exact h.nil v
  | succ n ih =>
    rw [List.range_succ_eq_map, List.map_cons, List.map_map, h.cons, List.flatMap_cons, List.flatMap_map]
    simp only [chainingValue_succ]
    exact congrArg _ (ih (next v (X 0)) fun i => X (i + 1))

/-- Over a string, a first block at a time. -/
theorem BlockLoop.loop_firstBlock (h : BlockLoop emit next loop) {y r : List Byte} (hy : FirstBlock y r) (v : σ) :
    loop v (blocksOf (y ++ r)) = emit v y ++ loop (next v y) (blocksOf r) := by
  rw [hy.blocksOf, h.cons]

/-- Where each block gives as many bytes, the output splits where the input does. -/
theorem BlockLoop.firstBlock_output (h : BlockLoop emit next loop) {y r : List Byte} (hy : FirstBlock y r) {v : σ}
    (hl : (emit v y).length = y.length) : FirstBlock (emit v y) (loop (next v y) (blocksOf r)) :=
  hy.of_length hl fun hr => by rw [hr, blocksOf_nil, h.nil]

/-- Block `i` of the output is made from block `i` of the input. -/
theorem BlockLoop.chunk_loop (h : BlockLoop emit next loop)
    (hl : ∀ v y, y.length ≤ 16 → (emit v y).length = y.length) (v : σ) (x : List Byte) (i : Nat) :
    chunk (loop v (blocksOf x)) i = emit (chainingValue next v (chunk x) i) (chunk x i) := by
  induction x using blocks_induction generalizing v i with
  | nil =>
    have hempty : ∀ w, emit w [] = [] := fun w => List.length_eq_zero_iff.mp (hl w [] (by simp))
    rw [blocksOf_nil, h.nil, chunk_nil, hempty]
  | cons y r hy ih =>
    have hout := h.firstBlock_output hy (hl v y hy.length_le)
    rw [h.loop_firstBlock hy]
    cases i with
    | zero => rw [hout.chunk_zero, chainingValue, hy.chunk_zero]
    | succ i =>
      simp only [hout.chunk_succ, ih, chainingValue_succ, hy.chunk_zero, hy.chunk_succ]

/-- A loop that gets each block back, and goes on from the same chaining value, undoes the other. -/
theorem BlockLoop.undoes (h : BlockLoop emit next loop) (h' : BlockLoop emit' next' loop') {ok : List Byte → Prop}
    (hl : ∀ v y, ok y → (emit v y).length = y.length) (hemit : ∀ v y, ok y → emit' v (emit v y) = y)
    (hnext : ∀ v y, ok y → next' v (emit v y) = next v y) (v : σ) {x : List Byte} (hx : ∀ y ∈ blocksOf x, ok y) :
    loop' v (blocksOf (loop v (blocksOf x))) = x := by
  induction x using blocks_induction generalizing v with
  | nil => rw [blocksOf_nil, h.nil, blocksOf_nil, h'.nil]
  | cons y r hy ih =>
    rw [hy.blocksOf, List.forall_mem_cons] at hx
    obtain ⟨hok, hrest⟩ := hx
    rw [h.loop_firstBlock hy, h'.loop_firstBlock (h.firstBlock_output hy (hl v y hok)), hemit v y hok, hnext v y hok,
      ih _ hrest]

/-- Two loops with equal outputs have made equal blocks of their first block. -/
theorem BlockLoop.emit_eq (h : BlockLoop emit next loop) {v w : σ} {y : List Byte} {ys : List (List Byte)}
    (he : loop v (y :: ys) = loop w (y :: ys)) (hl : (emit v y).length = (emit w y).length) : emit v y = emit w y := by
  rw [h.cons, h.cons] at he
  exact List.append_inj_left he hl

end Loops

/-! The block modes, CBC and PCBC (R183 to R186): each loop stores one block for each block. -/

theorem blocksOf_eq_chunks (x : List Byte) : blocksOf x = (List.range ((x.length + 15) / 16)).map (chunk x) :=
  splitBlocks_eq_chunks _ x

/-- A loop that stores a block for each block of a string of `n` blocks gives `n` blocks, by index. -/
theorem BlockLoop.eq_joined {σ : Type} {out : σ → Block → Block} {next : σ → List Byte → σ}
    {loop : σ → List (List Byte) → List Byte} (h : BlockLoop (fun v y => store (out v (load y))) next loop) (v : σ)
    {x : List Byte} {n : Nat} (hn : x.length = 16 * n) :
    loop v (blocksOf x) = joined n fun i => out (chainingValue next v (chunk x) i) (load (chunk x i)) := by
  rw [blocksOf_eq_chunks, show (x.length + 15) / 16 = n by omega]
  exact h.loop_range n v (chunk x)

theorem cbcEncLoop_blockLoop (E : BlockFn) :
    BlockLoop (fun v p => store (E ((load p).xor v))) (fun v p => E ((load p).xor v)) (cbcEncLoop E) :=
  ⟨fun _ => rfl, fun _ _ _ => rfl⟩

theorem cbcDecLoop_blockLoop (D : BlockFn) :
    BlockLoop (fun v c => store ((D (load c)).xor v)) (fun _ c => load c) (cbcDecLoop D) :=
  ⟨fun _ => rfl, fun _ _ _ => rfl⟩

theorem pcbcEncLoop_blockLoop (E : BlockFn) :
    BlockLoop (fun v p => store (E ((load p).xor v))) (fun v p => (load p).xor (E ((load p).xor v))) (pcbcEncLoop E) :=
  ⟨fun _ => rfl, fun _ _ _ => rfl⟩

theorem pcbcDecLoop_blockLoop (D : BlockFn) :
    BlockLoop (fun v c => store ((D (load c)).xor v)) (fun v c => ((D (load c)).xor v).xor (load c)) (pcbcDecLoop D) :=
  ⟨fun _ => rfl, fun _ _ _ => rfl⟩

/-- CBC encryption by index (R183). -/
theorem cbcEncrypt_chains (E : BlockFn) (iv m : List Byte) :
    ∃ C, CbcChain E (load iv) (fun i => load (chunk (padded m) i)) C ∧
      cbcEncrypt E iv m = joined (m.length / 16 + 1) C :=
  ⟨_, ⟨rfl, fun _ => rfl⟩,
    (cbcEncLoop_blockLoop E).eq_joined (out := fun v p => E (p.xor v)) (load iv) (length_pkcsPad m)⟩

/-- PCBC encryption by index (R185). -/
theorem pcbcEncrypt_chains (E : BlockFn) (iv m : List Byte) :
    ∃ C, PcbcChain E (load iv) (fun i => load (chunk (padded m) i)) C ∧
      pcbcEncrypt E iv m = joined (m.length / 16 + 1) C :=
  ⟨_, ⟨rfl, fun _ => rfl⟩,
    (pcbcEncLoop_blockLoop E).eq_joined (out := fun v p => E (p.xor v)) (load iv) (length_pkcsPad m)⟩

section Unchaining

variable (D : BlockFn) (iv : List Byte) {c : List Byte} (hc : c.length % 16 = 0)
include hc

/-- What CBC decryption unpads, by index (R184). -/
theorem cbcDecLoop_unchains : ∃ P, CbcUnchain D (load iv) (fun i => load (chunk c i)) P ∧
    cbcDecLoop D (load iv) (blocksOf c) = joined (c.length / 16) P :=
  ⟨_, ⟨rfl, fun _ => rfl⟩,
    (cbcDecLoop_blockLoop D).eq_joined (out := fun v c => (D c).xor v) (load iv) (by omega)⟩

/-- What PCBC decryption unpads, by index (R186). -/
theorem pcbcDecLoop_unchains : ∃ P, PcbcUnchain D (load iv) (fun i => load (chunk c i)) P ∧
    pcbcDecLoop D (load iv) (blocksOf c) = joined (c.length / 16) P :=
  ⟨_, ⟨rfl, fun _ => rfl⟩,
    (pcbcDecLoop_blockLoop D).eq_joined (out := fun v c => (D c).xor v) (load iv) (by omega)⟩

end Unchaining

/-! The stream modes, CFB, OFB and CTR (R182, R187 to R192): each loop XORs the next keystream block into each block. -/

theorem truncXor_getD {x : List Byte} (hx : x.length ≤ 16) (k : Block) {j : Nat} (hj : j < x.length) :
    (truncXor x k).getD j 0 = x.getD j 0 ^^^ (store k).getD j 0 := by
  have hs : j < (store k).length := by rw [length_store]; omega
  simp [truncXor, List.getD_eq_getElem?_getD, List.getElem?_zipWith, hj, List.getElem?_eq_getElem hs]

theorem truncXor_truncXor {x : List Byte} (hx : x.length ≤ 16) (k : Block) : truncXor (truncXor x k) k = x := by
  refine List.ext_getElem (by rw [length_truncXor (by rwa [length_truncXor hx]), length_truncXor hx]) fun j _ _ => ?_
  simp [truncXor]

section Streams

variable {σ : Type} {key : σ → Block} {next : σ → List Byte → σ} {loop : σ → List (List Byte) → List Byte}

/-- A loop that XORs a block made from the chaining value into each block of a string XORs those blocks as a keystream. -/
theorem BlockLoop.keystreamed (h : BlockLoop (fun v y => truncXor y (key v)) next loop) (v : σ) {x : List Byte}
    (hlen : (loop v (blocksOf x)).length = x.length) :
    Keystreamed x (fun i => key (chainingValue next v (chunk x) i)) (loop v (blocksOf x)) := by
  refine ⟨hlen, fun k hk => ?_⟩
  rw [← getD_chunk, h.chunk_loop fun v y hy => length_truncXor hy (key v),
    truncXor_getD (length_chunk_le x _) _ (mod_lt_length_chunk hk), getD_chunk]

/-- XORing the same keystream block into a block twice gives it back: a loop that goes on from the same chaining value
undoes the other. -/
theorem BlockLoop.stream_undoes (h : BlockLoop (fun v y => truncXor y (key v)) next loop) {next' : σ → List Byte → σ}
    {loop' : σ → List (List Byte) → List Byte} (h' : BlockLoop (fun v y => truncXor y (key v)) next' loop')
    (hnext : ∀ v y, next' v (truncXor y (key v)) = next v y) (v : σ) (x : List Byte) :
    loop' v (blocksOf (loop v (blocksOf x))) = x :=
  h.undoes h' (ok := fun y => y.length ≤ 16) (fun v _ hy => length_truncXor hy (key v))
    (fun v _ hy => truncXor_truncXor hy (key v)) (fun v y _ => hnext v y) v fun _ => length_le_of_mem_blocksOf

end Streams

theorem cfbEncLoop_blockLoop (E : BlockFn) :
    BlockLoop (fun v p => truncXor p (E v)) (fun v p => load (truncXor p (E v))) (cfbEncLoop E) :=
  ⟨fun _ => rfl, fun _ _ _ => rfl⟩

theorem cfbDecLoop_blockLoop (E : BlockFn) :
    BlockLoop (fun v c => truncXor c (E v)) (fun _ c => load c) (cfbDecLoop E) :=
  ⟨fun _ => rfl, fun _ _ _ => rfl⟩

theorem ofbLoop_blockLoop (E : BlockFn) : BlockLoop (fun v x => truncXor x (E v)) (fun v _ => E v) (ofbLoop E) :=
  ⟨fun _ => rfl, fun _ _ _ => rfl⟩

theorem ctrLoop_blockLoop (E : BlockFn) (e : Endian) (iv : List Byte) :
    BlockLoop (fun i x => truncXor x (E (load (counterBlock e iv i)))) (fun i _ => i + 1) (ctrLoop E e iv) :=
  ⟨fun _ => rfl, fun _ _ _ => rfl⟩

/-- CFB encryption by its keystream, from the ciphertext it makes (R187). -/
theorem cfbEncrypt_keystreamed (E : BlockFn) (iv m : List Byte) :
    ∃ K, CfbKeystream E (load iv) (cfbEncrypt E iv m) K ∧ Keystreamed m K (cfbEncrypt E iv m) := by
  have hloop := cfbEncLoop_blockLoop E
  refine ⟨_, ⟨rfl, fun i => ?_⟩, hloop.keystreamed (key := E) (load iv) (length_cfbEncrypt E iv m)⟩
  rw [cfbEncrypt, hloop.chunk_loop fun v y hy => length_truncXor hy (E v)]
  rfl

/-- CFB decryption by its keystream, from the ciphertext it reads (R188). -/
theorem cfbDecrypt_keystreamed (E : BlockFn) (iv c : List Byte) :
    ∃ K, CfbKeystream E (load iv) c K ∧ Keystreamed c K (cfbDecrypt E iv c) :=
  ⟨_, ⟨rfl, fun _ => rfl⟩, (cfbDecLoop_blockLoop E).keystreamed (key := E) (load iv) (length_cfbDecrypt E iv c)⟩

/-- OFB by its keystream (R189, R190). -/
theorem ofbCrypt_keystreamed (E : BlockFn) (iv x : List Byte) :
    ∃ K, OfbKeystream E (load iv) K ∧ Keystreamed x K (ofbCrypt E iv x) :=
  ⟨_, ⟨rfl, fun _ => rfl⟩, (ofbLoop_blockLoop E).keystreamed (key := E) (load iv) (length_ofbCrypt E iv x)⟩

theorem chainingValue_count (X : Nat → List Byte) (i : Nat) : chainingValue (fun i _ => i + 1) 0 X i = i := by
  induction i with
  | zero => rfl
  | succ i ih => rw [chainingValue, ih]

/-- CTR by its keystream (R191, R192). -/
theorem ctrCrypt_keystreamed (E : BlockFn) (e : Endian) (iv x : List Byte) :
    Keystreamed x (fun i => E (load (counterBlock e iv i))) (ctrCrypt E e iv x) := by
  have h := (ctrLoop_blockLoop E e iv).keystreamed (key := fun i => E (load (counterBlock e iv i))) 0
    (length_ctrCrypt E e iv x)
  simp only [chainingValue_count] at h
  exact h

/-! Each mode's decryption undoes its encryption (R193). -/

/-- Every block of a padded message is whole. -/
theorem length_of_mem_blocksOf_pkcsPad {m y : List Byte} (hy : y ∈ blocksOf (pkcsPad m)) : y.length = 16 := by
  rw [blocksOf_eq_chunks, List.mem_map] at hy
  obtain ⟨i, hi, rfl⟩ := hy
  rw [List.mem_range, length_pkcsPad] at hi
  rw [chunk, List.length_take, List.length_drop, length_pkcsPad]
  omega

section RoundTrip

variable {E D : BlockFn} (hDE : ∀ b, D (E b) = b) (iv m : List Byte)
include hDE

/-- Deciphering a block and taking the chaining value off again gives the block back. -/
theorem store_unchain {p : List Byte} (hp : p.length = 16) (v : Block) :
    store ((D (load (store (E ((load p).xor v))))).xor v) = p := by
  rw [load_store, hDE, Block.xor_xor_cancel, store_load hp]

theorem cbcDecrypt_cbcEncrypt : cbcDecrypt D iv (cbcEncrypt E iv m) = .ok m := by
  have hloop : cbcDecLoop D (load iv) (blocksOf (cbcEncrypt E iv m)) = pkcsPad m :=
    (cbcEncLoop_blockLoop E).undoes (cbcDecLoop_blockLoop D) (ok := fun y => y.length = 16) (fun _ _ hy => hy.symm)
      (fun v _ hy => store_unchain hDE hy v) (fun _ _ _ => load_store _) _ fun _ => length_of_mem_blocksOf_pkcsPad
  rw [cbcDecrypt, hloop, pkcsUnpad_pkcsPad]

theorem pcbcDecrypt_pcbcEncrypt : pcbcDecrypt D iv (pcbcEncrypt E iv m) = .ok m := by
  have hloop : pcbcDecLoop D (load iv) (blocksOf (pcbcEncrypt E iv m)) = pkcsPad m :=
    (pcbcEncLoop_blockLoop E).undoes (pcbcDecLoop_blockLoop D) (ok := fun y => y.length = 16) (fun _ _ hy => hy.symm)
      (fun v _ hy => store_unchain hDE hy v) (fun v y _ => by rw [load_store, hDE, Block.xor_xor_cancel]) _
      fun _ => length_of_mem_blocksOf_pkcsPad
  rw [pcbcDecrypt, hloop, pkcsUnpad_pkcsPad]

end RoundTrip

theorem cfbDecrypt_cfbEncrypt (E : BlockFn) (iv m : List Byte) : cfbDecrypt E iv (cfbEncrypt E iv m) = m :=
  (cfbEncLoop_blockLoop E).stream_undoes (key := E) (cfbDecLoop_blockLoop E) (fun _ _ => rfl) (load iv) m

theorem ofbCrypt_ofbCrypt (E : BlockFn) (iv m : List Byte) : ofbCrypt E iv (ofbCrypt E iv m) = m :=
  (ofbLoop_blockLoop E).stream_undoes (key := E) (ofbLoop_blockLoop E) (fun _ _ => rfl) (load iv) m

theorem ctrCrypt_ctrCrypt (E : BlockFn) (e : Endian) (iv m : List Byte) : ctrCrypt E e iv (ctrCrypt E e iv m) = m :=
  (ctrLoop_blockLoop E e iv).stream_undoes (key := fun i => E (load (counterBlock e iv i))) (ctrLoop_blockLoop E e iv)
    (fun _ _ => rfl) 0 m

/-! The IV is told by a chained output (R194). -/

section Distinct

variable {E D : BlockFn} (hDE : ∀ b, D (E b) = b) {iv iv' m : List Byte} (hiv : iv.length = 16) (hiv' : iv'.length = 16)
include hDE hiv hiv'

/-- A loop whose first block is `E(P[0] XOR v)` makes equal outputs from equal IVs only. -/
theorem iv_eq_of_loop_eq {next : Block → List Byte → Block} {loop : Block → List (List Byte) → List Byte}
    (h : BlockLoop (fun v p => store (E ((load p).xor v))) next loop)
    (he : loop (load iv) (blocksOf (pkcsPad m)) = loop (load iv') (blocksOf (pkcsPad m))) : iv = iv' := by
  have hne : pkcsPad m ≠ [] := List.ne_nil_of_length_pos (by rw [length_pkcsPad]; omega)
  rw [blocksOf_of_ne_nil hne] at he
  have hload : load iv = load iv' := by
    have hx := congrArg D (congrArg load (h.emit_eq he rfl))
    rw [load_store, load_store, hDE, hDE, Block.xor_comm, Block.xor_comm _ (load iv')] at hx
    rw [← Block.xor_xor_cancel (load iv), hx, Block.xor_xor_cancel]
  rw [← store_load hiv, hload, store_load hiv']

theorem iv_eq_of_cbcEncrypt_eq (he : cbcEncrypt E iv m = cbcEncrypt E iv' m) : iv = iv' :=
  iv_eq_of_loop_eq hDE hiv hiv' (cbcEncLoop_blockLoop E) he

theorem iv_eq_of_pcbcEncrypt_eq (he : pcbcEncrypt E iv m = pcbcEncrypt E iv' m) : iv = iv' :=
  iv_eq_of_loop_eq hDE hiv hiv' (pcbcEncLoop_blockLoop E) he

end Distinct

/-! The counter (R7, R181). -/

@[simp] theorem intBE_concat (x : List Byte) (b : Byte) : intBE (x ++ [b]) = 256 * intBE x + b.toNat := by
  simp [intBE, List.foldl_append]

/-- A string of a given length is told by its number (R7). -/
theorem eq_of_intBE_eq {x y : List Byte} (hl : x.length = y.length) (h : intBE x = intBE y) : x = y := by
  induction x using List.reverseRecOn generalizing y with
  | nil => exact (List.length_eq_zero_iff.mp hl.symm).symm
  | append_singleton x a ih =>
    cases y using List.reverseRecOn with
    | nil => simp at hl
    | append_singleton y b =>
      rw [intBE_concat, intBE_concat] at h
      have ha := a.isLt
      have hb := b.isLt
      have hxy : x = y := ih (by simpa using hl) (by omega)
      have hab : a = b := BitVec.eq_of_toNat_eq (by omega)
      rw [hxy, hab]

/-- The last `k` bytes of the big-endian representation of a number (R7). -/
def bytesBE (k n : Nat) : List Byte := (List.range k).map fun j => BitVec.ofNat 8 (n / 256 ^ (k - 1 - j))

theorem bytesBE16_eq (n : Nat) : bytesBE16 n = bytesBE 16 n := rfl

theorem bytesBE_succ (k n : Nat) : bytesBE (k + 1) n = bytesBE k (n / 256) ++ [BitVec.ofNat 8 n] := by
  rw [bytesBE, List.range_succ, List.map_append, List.map_singleton, bytesBE]
  congr 1
  · refine List.map_congr_left fun j hj => ?_
    rw [List.mem_range] at hj
    rw [Nat.div_div_eq_div_mul, ← Nat.pow_succ', show k + 1 - 1 - j = (k - 1 - j).succ by omega]
  · simp

theorem intBE_bytesBE (k n : Nat) : intBE (bytesBE k n) = n % 256 ^ k := by
  induction k generalizing n with
  | zero => simp [bytesBE, intBE, Nat.mod_one]
  | succ k ih =>
    rw [bytesBE_succ, intBE_concat, ih, BitVec.toNat_ofNat, Nat.pow_succ' (m := 256), Nat.mod_mul]
    exact Nat.add_comm _ _

theorem intBE_bytesBE16 (n : Nat) : intBE (bytesBE16 n) = n % 2 ^ 128 := intBE_bytesBE 16 n

@[simp] theorem length_bytesBE16 (n : Nat) : (bytesBE16 n).length = 16 := by simp [bytesBE16]

/-- Settles O42: the count is one number of 16 bytes, and a string of 16 bytes is told by its number. -/
theorem counterBlockCountsModulo : Obligations.CounterBlockCountsModulo := by
  refine ⟨fun iv i => ⟨length_bytesBE16 _, ?_⟩, fun iv i => ⟨?_, ?_⟩, fun x y => eq_of_intBE_eq, by decide +kernel⟩
  · rw [counterBlock, intBE_bytesBE16, Nat.mod_mod]
  · rw [counterBlock, List.length_reverse, length_bytesBE16]
  · rw [counterBlock, List.reverse_reverse, intBE_bytesBE16, Nat.mod_mod]

end Sys2Proof.Machine
end

section
/-! PROOFS. The ten mode commands (44_modes.md R180 to R194): the check that ends one, and what it completes with when its
operands are ready. -/

namespace Sys2Proof.Machine

open Claims

/-! The register checks (R180, R231). -/

/-- The checks of a mode command in their order: the alignment is asked by the two commands that unchain. -/
def modeChecksOf (i : Instr) (s : State) : List Check :=
  noKeyCheck s :: ivLenCheck s :: ((if i = .decCbc ∨ i = .decPcbc then [alignedCheck s] else []) ++ [dinCapacityCheck s])

/-- A mode command's meaning is `modeCommand` with its checks and its mode. -/
theorem exec_mode {i : Instr} (hi : i ∈ modeCommands) (s : State) :
    ∃ mode, exec i s = .next (modeCommand (modeChecksOf i s) s mode) := by
  simp only [modeCommands, List.mem_cons, List.not_mem_nil, or_false] at hi
  rcases hi with rfl | rfl | rfl | rfl | rfl | rfl | rfl | rfl | rfl | rfl <;> exact ⟨_, rfl⟩

theorem exec_mode_fails {i : Instr} (hi : i ∈ modeCommands) {s : State} {e : ErrorCode}
    (he : firstFailure (modeChecksOf i s) = some e) : FailsWith (exec i s) s e.code := by
  obtain ⟨mode, hm⟩ := exec_mode hi s
  rw [hm, modeCommand, afterChecks_of_some he]
  exact ⟨_, rfl, fails_raise s e⟩

/-- Settles O43: the first check that fails names the error. -/
theorem modeCommandChecks : Obligations.ModeCommandChecks := by
  intro i s hi
  refine ⟨fun hkey => exec_mode_fails hi (e := .noKey) ?_, fun hkey hiv => exec_mode_fails hi (e := .invalidIVLength) ?_,
    fun hkey hiv hdec hlen => exec_mode_fails hi (e := .invalidBlockLength) ?_,
    fun hkey hiv hlen hmax => exec_mode_fails hi (e := .capacityExceeded) ?_⟩
  · simp [modeChecksOf, firstFailure_cons, noKeyCheck, hkey]
  · simp [modeChecksOf, firstFailure_cons, noKeyCheck, hkey, ivLenCheck, hiv]
  · simp [modeChecksOf, firstFailure_cons, noKeyCheck, hkey, ivLenCheck, hiv, hdec, alignedCheck, hlen]
  · by_cases hdec : i = .decCbc ∨ i = .decPcbc
    · simp [modeChecksOf, firstFailure_cons, noKeyCheck, hkey, ivLenCheck, hiv, hdec, alignedCheck, hlen hdec,
        dinCapacityCheck, hmax]
    · simp [modeChecksOf, firstFailure_cons, noKeyCheck, hkey, ivLenCheck, hiv, hdec, dinCapacityCheck, hmax]

/-! How a mode command ends when its operands are ready (R30, R180). -/

section Ready

variable {s : State} {iv x : List Byte} (h : ModeReady s iv x)
include h

theorem modeChecks_of_ready : firstFailure (modeChecks s) = none :=
  (modeChecks_pass s).mpr ⟨h.keyValid, h.ivLen, h.input.length ▸ h.input.fits⟩

theorem alignedModeChecks_of_ready (hx : x.length % 16 = 0) : firstFailure (alignedModeChecks s) = none :=
  (alignedModeChecks_pass s).mpr ⟨h.keyValid, h.ivLen, h.input.length ▸ hx, h.input.length ▸ h.input.fits⟩

/-- Past its checks, a mode command is finished with what its mode gives for the IV and the input. -/
theorem modeCommand_finishes {checks : List Check} (hc : firstFailure checks = none)
    (mode : List Byte → List Byte → Except ErrorCode (List Byte)) :
    modeCommand checks s mode = s.finish (mode iv x) := by
  rw [modeCommand, afterChecks_of_none hc, withOperand_of_some (operand_eq_some.mpr h.iv),
    withOperand_of_some (operand_eq_some.mpr ⟨h.input.length.symm, h.input.bytes⟩)]

theorem modeCommand_completes {checks : List Check} (hc : firstFailure checks = none)
    {mode : List Byte → List Byte → Except ErrorCode (List Byte)} {out : List Byte} (hm : mode iv x = .ok out)
    (hl : out.length ≤ x.length + 16) : CompletesWith (.next (modeCommand checks s mode)) s out := by
  have hmax := Params.bounds_of_wf h.input.params
  have hfits := h.input.fits
  rw [modeCommand_finishes h hc, hm]
  exact ⟨_, rfl, completes_complete s (by omega)⟩

/-- A mode that pads completes with whole blocks (R183, R185). -/
theorem chained_completes {f : List Byte → List Byte → List Byte} (hl : (f iv x).length = 16 * (x.length / 16 + 1)) :
    CompletesWith (.next (modeCommand (modeChecks s) s fun iv m => .ok (f iv m))) s (f iv x) :=
  modeCommand_completes h (modeChecks_of_ready h) rfl (by omega)

/-- A stream mode completes with as many bytes as it reads (R182). -/
theorem stream_completes {f : List Byte → List Byte → List Byte} (hl : (f iv x).length = x.length) :
    CompletesWith (.next (modeCommand (modeChecks s) s fun iv m => .ok (f iv m))) s (f iv x) :=
  modeCommand_completes h (modeChecks_of_ready h) rfl (by omega)

/-- A mode that unchains a whole number of blocks ends by unpadding what the loop gives (R184, R186). -/
theorem unchained_ends (hx : x.length % 16 = 0) {f : List Byte → List Byte → List Byte}
    (hl : (f iv x).length = 16 * ((x.length + 15) / 16)) :
    EndsByUnpadding (.next (modeCommand (alignedModeChecks s) s fun iv c => pkcsUnpad (f iv c))) s (f iv x) := by
  have hlt := length_lt_of_inputReady h.input
  rw [modeCommand_finishes h (alignedModeChecks_of_ready h hx)]
  exact endsByUnpadding_finish s (by omega)

end Ready

/-! The block modes (R183 to R186). -/

/-- Settles O34: the loop over the padded message, by index. -/
theorem encCbcChains : Obligations.EncCbcChains := by
  intro s iv m h
  obtain ⟨C, hchain, hout⟩ := cbcEncrypt_chains s.forward iv m
  exact ⟨C, hchain, hout ▸ chained_completes h (length_cbcEncrypt s.forward iv m)⟩

/-- Settles O36: the loop over the padded message, by index. -/
theorem encPcbcChains : Obligations.EncPcbcChains := by
  intro s iv m h
  obtain ⟨C, hchain, hout⟩ := pcbcEncrypt_chains s.forward iv m
  exact ⟨C, hchain, hout ▸ chained_completes h (length_pcbcEncrypt s.forward iv m)⟩

/-- Settles O35: the loop over the ciphertext, by index, is what is unpadded. -/
theorem decCbcUnchains : Obligations.DecCbcUnchains := by
  intro s iv c h hc
  obtain ⟨P, hchain, hout⟩ := cbcDecLoop_unchains s.inverse iv hc
  exact ⟨P, hchain, hout ▸ unchained_ends h hc (f := fun iv c => cbcDecLoop s.inverse (load iv) (blocksOf c)) (by simp)⟩

/-- Settles O37: the loop over the ciphertext, by index, is what is unpadded. -/
theorem decPcbcUnchains : Obligations.DecPcbcUnchains := by
  intro s iv c h hc
  obtain ⟨P, hchain, hout⟩ := pcbcDecLoop_unchains s.inverse iv hc
  exact ⟨P, hchain, hout ▸ unchained_ends h hc (f := fun iv c => pcbcDecLoop s.inverse (load iv) (blocksOf c)) (by simp)⟩

/-! The stream modes (R187 to R192). -/

/-- Settles O38: the loop's chaining value is each ciphertext block it makes. -/
theorem encCfbFeedsBackCiphertext : Obligations.EncCfbFeedsBackCiphertext := by
  intro s iv m h
  obtain ⟨K, hkey, hout⟩ := cfbEncrypt_keystreamed s.forward iv m
  exact ⟨K, _, hkey, hout, stream_completes h (length_cfbEncrypt s.forward iv m)⟩

/-- Settles O39: the loop's chaining value is each ciphertext block it reads. -/
theorem decCfbFeedsBackCiphertext : Obligations.DecCfbFeedsBackCiphertext := by
  intro s iv c h
  obtain ⟨K, hkey, hout⟩ := cfbDecrypt_keystreamed s.forward iv c
  exact ⟨K, _, hkey, hout, stream_completes h (length_cfbDecrypt s.forward iv c)⟩

/-- Settles O40: both commands run one loop, whose chaining value is its keystream. -/
theorem ofbXorsItsKeystream : Obligations.OfbXorsItsKeystream := by
  intro s iv x h
  obtain ⟨K, hkey, hout⟩ := ofbCrypt_keystreamed s.forward iv x
  have hend := stream_completes h (length_ofbCrypt s.forward iv x)
  exact ⟨K, _, hkey, hout, hend, hend⟩

/-- Settles O41: both commands run one loop, whose chaining value is the block index. -/
theorem ctrXorsItsKeystream : Obligations.CtrXorsItsKeystream := by
  intro s iv x h
  have hend := stream_completes h (length_ctrCrypt s.forward s.params.ctrEndian iv x)
  exact ⟨_, ctrCrypt_keystreamed s.forward s.params.ctrEndian iv x, hend, hend⟩

/-! Round trips and distinct IVs (R193, R194). -/

/-- A command has one output. -/
theorem output_eq_of_completesWith {r : Result} {s t : State} {c c' : List Byte} (hr : r = .next t) (ho : Output t c)
    (hend : CompletesWith r s c') : c = c' := by
  obtain ⟨t', ht', hdone⟩ := hend
  obtain rfl := Host.Outcome.next.inj (hr.symm.trans ht')
  exact ho.unique hdone.output

/-- The loaded schedule's inverse transform undoes its forward transform (R151). -/
theorem inverse_forward (s : State) (b : Block) : s.inverse (s.forward b) = b := invCipher_cipher s.schedule b

section ChainedOutput

variable {s t : State} {iv m c : List Byte} (h : ModeReady s iv m) (ho : Output t c)
include h ho

theorem output_of_encCbc (ht : exec .encCbc s = .next t) : c = cbcEncrypt s.forward iv m :=
  output_eq_of_completesWith ht ho (chained_completes h (length_cbcEncrypt s.forward iv m))

theorem output_of_encPcbc (ht : exec .encPcbc s = .next t) : c = pcbcEncrypt s.forward iv m :=
  output_eq_of_completesWith ht ho (chained_completes h (length_pcbcEncrypt s.forward iv m))

end ChainedOutput

/-- Settles O44: each pair's decryption undoes its encryption, under the transforms of the schedule both states have. -/
theorem modesRoundTrip : Obligations.ModesRoundTrip := by
  intro enc dec s u t iv m c hpair h ht ho
  simp only [List.mem_cons, List.not_mem_nil, or_false, Prod.mk.injEq] at hpair
  rcases hpair with ⟨rfl, rfl⟩ | ⟨rfl, rfl⟩ | ⟨rfl, rfl⟩ | ⟨rfl, rfl⟩ | ⟨rfl, rfl⟩
  · obtain rfl := output_of_encCbc h ho ht
    refine ⟨by simp; omega, fun _ hs hu => modeCommand_completes hu (alignedModeChecks_of_ready hu (by simp)) ?_ ?_⟩
    · rw [inverse_agree hs, cbcDecrypt_cbcEncrypt (inverse_forward s)]
    · simp; omega
  · obtain rfl := output_of_encPcbc h ho ht
    refine ⟨by simp; omega, fun _ hs hu => modeCommand_completes hu (alignedModeChecks_of_ready hu (by simp)) ?_ ?_⟩
    · rw [inverse_agree hs, pcbcDecrypt_pcbcEncrypt (inverse_forward s)]
    · simp; omega
  · obtain rfl := output_eq_of_completesWith ht ho (stream_completes h (length_cfbEncrypt s.forward iv m))
    refine ⟨by simp, fun _ hs hu => modeCommand_completes hu (modeChecks_of_ready hu) ?_ (by simp)⟩
    rw [forward_agree hs, cfbDecrypt_cfbEncrypt]
  · obtain rfl := output_eq_of_completesWith ht ho (stream_completes h (length_ofbCrypt s.forward iv m))
    refine ⟨by simp, fun _ hs hu => modeCommand_completes hu (modeChecks_of_ready hu) ?_ (by simp)⟩
    rw [forward_agree hs, ofbCrypt_ofbCrypt]
  · obtain rfl := output_eq_of_completesWith ht ho
      (stream_completes h (length_ctrCrypt s.forward s.params.ctrEndian iv m))
    refine ⟨by simp, fun hp hs hu => modeCommand_completes hu (modeChecks_of_ready hu) ?_ (by simp)⟩
    rw [forward_agree hs, hp, ctrCrypt_ctrCrypt]

/-- Settles O45: the first block of a chained output tells the IV, and a stream of no bytes is empty. -/
theorem distinctIvsDistinctChainedOutputs : Obligations.DistinctIvsDistinctChainedOutputs := by
  refine ⟨fun i s s' t t' iv iv' m c c' hi h h' hs hne ht ht' ho ho' hcc => hne ?_, fun i s iv hi h => ?_⟩
  · obtain ⟨hlen, -⟩ := h.iv
    obtain ⟨hlen', -⟩ := h'.iv
    rcases hi with rfl | rfl
    · rw [output_of_encCbc h ho ht, output_of_encCbc h' ho' ht', forward_agree hs] at hcc
      exact iv_eq_of_cbcEncrypt_eq (inverse_forward s) hlen hlen' hcc
    · rw [output_of_encPcbc h ho ht, output_of_encPcbc h' ho' ht', forward_agree hs] at hcc
      exact iv_eq_of_pcbcEncrypt_eq (inverse_forward s) hlen hlen' hcc
  · rcases hi with rfl | rfl | rfl
    · exact stream_completes h (length_cfbEncrypt s.forward iv [])
    · exact stream_completes h (length_ofbCrypt s.forward iv [])
    · exact stream_completes h (length_ctrCrypt s.forward s.params.ctrEndian iv [])

end Sys2Proof.Machine
end

section
/-! PROOFS. The envelope (45_envelope.md R210 to R221): the schedule of the derived key, an envelope taken apart, the checks of
the two commands, and how each ends when its operands are ready. -/

namespace Sys2Proof.Machine

open Claims

/-! The schedule of the derived key (R210, R218). -/

/-- A key of a legal size has the schedule of its expansion (R214, R215). -/
theorem privateSchedule_expands {kA : List Byte} (h : kA.length = 16 ∨ kA.length = 24 ∨ kA.length = 32) :
    PrivateSchedule kA (privateSchedule kA) := by
  obtain ⟨⟨nk, nr⟩, hsize⟩ := Option.ne_none_iff_exists'.mp fun hnone => keySize_eq_none.mp hnone h
  have hks : privateSchedule kA = expandKey kA nk nr := by rw [privateSchedule, hsize]
  have hbounds := keySize_sizes hsize
  have hexpands : ExpandsTo kA nk nr (expandKey kA nk nr).key := expandsTo_expandKey (by omega) (by omega) kA
  rw [hks]
  refine ⟨nk, _, keySize_mem_keySizes hsize, hexpands, ?_⟩
  exact List.map_congr_left fun r hr => (expandKey_key (Nat.le_of_lt_succ (List.mem_range.mp hr)) kA nk).symm

/-- Under legal parameters the derived AES key has a schedule (R5, R210). -/
theorem privateSchedule_kdfAes {p : Params} (hp : p.wf = true) (x : List Byte) (w : Nat) :
    PrivateSchedule (kdfAes p x w) (privateSchedule (kdfAes p x w)) := by
  have hbounds := Params.bounds_of_wf hp
  exact privateSchedule_expands (by rw [length_kdfAes]; omega)

/-! Taking an envelope apart (R213, R215). -/

/-- The tag an envelope carries is the one its password and workload factor give (R215). -/
def TagMatches (p : Params) (pw env : List Byte) (w : Nat) : Prop :=
  macTag p (kdfMac p (pw ++ env.take 16) w) ((env.drop 16).take 16 ++ env.drop p.prefixLen) = (env.drop 32).take p.tagLen

section Opening

variable {p : Params} {pw env : List Byte} {w : Nat}

theorem openEnvelope_of_not_tagMatches (htag : ¬ TagMatches p pw env w) :
    openEnvelope p pw env w = .error .integrityError := if_pos htag

theorem openEnvelope_of_misaligned (htag : TagMatches p pw env w) (hlen : (env.drop p.prefixLen).length % 16 ≠ 0) :
    openEnvelope p pw env w = .error .invalidBlockLength := (if_neg (not_not.mpr htag)).trans (if_pos hlen)

theorem openEnvelope_of_aligned (htag : TagMatches p pw env w) (hlen : (env.drop p.prefixLen).length % 16 = 0) :
    openEnvelope p pw env w = cbcDecrypt (invCipher (privateSchedule (kdfAes p (pw ++ env.take 16) w)))
      ((env.drop 16).take 16) (env.drop p.prefixLen) :=
  (if_neg (not_not.mpr htag)).trans (if_neg (not_not.mpr hlen))

end Opening

section Layout

variable {salt iv tag : List Byte} (hsalt : salt.length = 16) (hiv : iv.length = 16) (c : List Byte)
include hsalt

theorem envelope_salt : (salt ++ iv ++ tag ++ c).take 16 = salt := by
  rw [List.append_assoc, List.append_assoc, List.take_left' hsalt]

include hiv

theorem envelope_iv : ((salt ++ iv ++ tag ++ c).drop 16).take 16 = iv := by
  rw [List.append_assoc, List.append_assoc, List.drop_left' hsalt, List.take_left' hiv]

theorem envelope_tag {n : Nat} (htag : tag.length = n) : ((salt ++ iv ++ tag ++ c).drop 32).take n = tag := by
  rw [List.append_assoc, List.drop_left' (by rw [List.length_append, hsalt, hiv]), List.take_left' htag]

theorem envelope_ciphertext {n : Nat} (htag : tag.length = n) : (salt ++ iv ++ tag ++ c).drop (32 + n) = c :=
  List.drop_left' (by rw [List.length_append, List.length_append, hsalt, hiv, htag])

/-- Opening a sealed envelope gives the message back (R221): its parts are found where they were put, its tag is the one
recomputed, and CBC decryption undoes encryption. -/
theorem openEnvelope_sealEnvelope (p : Params) (pw m : List Byte) (w : Nat) :
    openEnvelope p pw (sealEnvelope p pw m salt iv w) w = .ok m := by
  have htag : TagMatches p pw (sealEnvelope p pw m salt iv w) w := by
    simp only [TagMatches, sealEnvelope, Params.prefixLen, envelope_salt hsalt, envelope_iv hsalt hiv,
      envelope_tag hsalt hiv _ (length_macTag _ _ _), envelope_ciphertext hsalt hiv _ (length_macTag _ _ _)]
  have hc : (sealEnvelope p pw m salt iv w).drop p.prefixLen =
      cbcEncrypt (cipher (privateSchedule (kdfAes p (pw ++ salt) w))) iv m :=
    envelope_ciphertext hsalt hiv _ (length_macTag _ _ _)
  rw [openEnvelope_of_aligned htag (by rw [hc, length_cbcEncrypt]; omega), hc, sealEnvelope, envelope_salt hsalt,
    envelope_iv hsalt hiv, cbcDecrypt_cbcEncrypt (invCipher_cipher _)]

end Layout

/-! The draw (R212). -/

@[simp] theorem length_randomBytes (s : State) (n : Nat) : (randomBytes s n).length = n := by simp [randomBytes]

/-- Bytes standing at the port are drawn first (log 4). -/
theorem randomBytes_getD_of_port {s : State} {n k : Nat} (hk : k < n) (hport : k < s.rngPort.length) :
    (randomBytes s n).getD k 0 = s.rngPort.getD k 0 := by
  simp [randomBytes, randomByte, List.getD_eq_getElem?_getD, hk, hport]

/-- The salt an envelope is made with, the first half of the draw. -/
def drawnSalt (s : State) : List Byte := (randomBytes s 32).take 16

/-- The IV an envelope is made with, the other half. -/
def drawnIv (s : State) : List Byte := (randomBytes s 32).drop 16

@[simp] theorem length_drawnSalt (s : State) : (drawnSalt s).length = 16 := by simp [drawnSalt]

@[simp] theorem length_drawnIv (s : State) : (drawnIv s).length = 16 := by simp [drawnIv]

theorem drawnSalt_append_drawnIv (s : State) : drawnSalt s ++ drawnIv s = randomBytes s 32 := List.take_append_drop _ _

/-- What `ENV_ENC` makes of a password and a message (R214). -/
def sealedEnvelope (s : State) (pw m : List Byte) : List Byte :=
  sealEnvelope s.params pw m (drawnSalt s) (drawnIv s) s.workload.toNat

@[simp] theorem length_sealedEnvelope (s : State) (pw m : List Byte) :
    (sealedEnvelope s pw m).length = s.params.prefixLen + 16 * (m.length / 16 + 1) := by
  simp [sealedEnvelope, length_sealEnvelope, Params.prefixLen]

/-- An envelope begins with its draw (R213). -/
theorem sealedEnvelope_take (s : State) (pw m : List Byte) : (sealedEnvelope s pw m).take 32 = randomBytes s 32 := by
  rw [sealedEnvelope, sealEnvelope, drawnSalt_append_drawnIv, List.append_assoc, List.take_left' (length_randomBytes s 32)]

/-! The register checks (R214, R215, R231). -/

/-- The checks of an envelope command in their order: the shortest envelope is asked for by `ENV_DEC`. -/
def envelopeChecksOf (i : Instr) (s : State) : List Check :=
  envelopeCapacityCheck s :: workloadCheck s :: if i = .envDec then [prefixCheck s] else []

theorem exec_envelope_fails {i : Instr} (hi : i = .envEnc ∨ i = .envDec) {s : State} {e : ErrorCode}
    (he : firstFailure (envelopeChecksOf i s) = some e) : FailsWith (exec i s) s e.code := by
  have hexec : ∃ body, exec i s = .next (envelopeCommand (envelopeChecksOf i s) s body) := by
    rcases hi with rfl | rfl <;> exact ⟨_, rfl⟩
  obtain ⟨body, hbody⟩ := hexec
  rw [hbody, envelopeCommand, afterChecks_of_some he]
  exact ⟨_, rfl, fails_raise s e⟩

/-- Settles O51: the first check that fails names the error. -/
theorem envelopeCommandChecks : Obligations.EnvelopeCommandChecks := by
  intro i s hi
  refine ⟨fun hcap => exec_envelope_fails hi (e := .capacityExceeded) ?_, fun hdin hpw =>
    ⟨fun hw => exec_envelope_fails hi (e := .invalidWorkloadFactor) ?_,
      fun hw hdec hlen => exec_envelope_fails hi (e := .truncatedEnvelope) ?_⟩⟩
  · simp [envelopeChecksOf, firstFailure_cons, envelopeCapacityCheck, hcap]
  · simp [envelopeChecksOf, firstFailure_cons, envelopeCapacityCheck, Nat.not_lt.mpr hdin, Nat.not_lt.mpr hpw,
      workloadCheck, hw]
  · simp [envelopeChecksOf, firstFailure_cons, envelopeCapacityCheck, Nat.not_lt.mpr hdin, Nat.not_lt.mpr hpw,
      workloadCheck, hw, hdec, prefixCheck, Params.prefixLen, hlen]

/-! How an envelope command ends when its operands are ready (R214, R215). -/

section Ready

variable {s t : State} {pw x env : List Byte} (h : EnvelopeReady s pw x)
include h

/-- Past its checks, an envelope command runs its body on the password and the input. -/
theorem envelopeCommand_runs {checks : List Check} (hc : firstFailure checks = none)
    (body : List Byte → List Byte → State) : envelopeCommand checks s body = body pw x := by
  rw [envelopeCommand, afterChecks_of_none hc, withOperand_of_some (operand_eq_some.mpr ⟨h.pwLen.symm, h.pw⟩),
    withOperand_of_some (operand_eq_some.mpr ⟨h.input.length.symm, h.input.bytes⟩)]

theorem exec_envEnc_ready : exec .envEnc s = .next ((s.drawn 32).complete (sealedEnvelope s pw x)) :=
  congrArg _ (envelopeCommand_runs h ((envEncChecks_pass s).mpr
    ⟨h.input.length ▸ h.input.fits, h.pwLen ▸ h.pwFits, h.workload⟩) _)

theorem exec_envDec_ready (hx : s.params.prefixLen ≤ x.length) :
    exec .envDec s = .next (s.finish (openEnvelope s.params pw x s.workload.toNat)) :=
  congrArg _ (envelopeCommand_runs h ((envDecChecks_pass s).mpr
    ⟨h.input.length ▸ h.input.fits, h.pwLen ▸ h.pwFits, h.workload, h.input.length ▸ hx⟩) _)

theorem output_sealedEnvelope : Output ((s.drawn 32).complete (sealedEnvelope s pw x)) (sealedEnvelope s pw x) := by
  have hfits := h.input.fits
  exact output_complete _ (length_lt_of_output h.input.params (by rw [length_sealedEnvelope]; omega))

/-- The envelope `ENV_ENC` puts out is the sealed one. -/
theorem output_of_envEnc (ht : exec .envEnc s = .next t) (ho : Output t env) : env = sealedEnvelope s pw x := by
  obtain rfl := Host.Outcome.next.inj ((exec_envEnc_ready h).symm.trans ht)
  exact ho.unique (output_sealedEnvelope h)

end Ready

/-! The statements about the envelope. -/

/-- Settles O49: the salt and the IV are the halves of the draw, and the ciphertext is the CBC chain by index. -/
theorem envEncSealsTheMessage : Obligations.EnvEncSealsTheMessage := by
  intro s pw m h
  obtain ⟨C, hchain, hc⟩ := cbcEncrypt_chains
    (cipher (privateSchedule (kdfAes s.params (pw ++ drawnSalt s) s.workload.toNat))) (drawnIv s) m
  refine ⟨_, drawnSalt s, drawnIv s, _, C, length_drawnSalt s, length_drawnIv s, length_kdfAes _ _ _, length_kdfMac _ _ _,
    length_macTag _ _ _, fun k hk hport => ?_, privateSchedule_kdfAes h.input.params _ _, hchain, exec_envEnc_ready h,
    hostStateKept_trans (hostStateKept_drawn s 32) (hostStateKept_complete _ _), ⟨rfl, rfl, rfl, rfl⟩,
    ⟨rfl, rfl, rfl, rfl⟩, rfl, ?_⟩
  · rw [drawnSalt_append_drawnIv, randomBytes_getD_of_port hk hport]
  · rw [← hc]
    exact output_sealedEnvelope h

/-- Settles O50: one equation of `openEnvelope` for each case, and the plaintext is the CBC loop by index. -/
theorem envDecOpensTheEnvelope : Obligations.EnvDecOpensTheEnvelope := by
  intro s pw env h hlen
  rw [exec_envDec_ready h hlen]
  refine ⟨⟨length_macTag _ _ _, length_kdfAes _ _ _, length_kdfMac _ _ _⟩, fun htag => ?_, fun htag halign => ?_,
    fun htag halign => ?_⟩
  · rw [openEnvelope_of_not_tagMatches htag]
    exact ⟨_, rfl, fails_raise s .integrityError⟩
  · rw [openEnvelope_of_misaligned htag halign]
    exact ⟨_, rfl, fails_raise s .invalidBlockLength⟩
  · obtain ⟨P, hchain, hout⟩ := cbcDecLoop_unchains
      (invCipher (privateSchedule (kdfAes s.params (pw ++ env.take 16) s.workload.toNat))) ((env.drop 16).take 16) halign
    refine ⟨_, P, privateSchedule_kdfAes h.input.params _ _, hchain, ?_⟩
    have hlt := length_lt_of_inputReady h.input
    rw [openEnvelope_of_aligned htag halign, cbcDecrypt, ← hout]
    exact endsByUnpadding_finish s (by simp [Params.prefixLen]; omega)

/-- The error of the checks is the error of one of them (R231). -/
theorem exists_check_of_firstFailure {cs : List Check} {e : ErrorCode} (h : firstFailure cs = some e) :
    ∃ c ∈ cs, c.2 = e := by
  induction cs with
  | nil => exact nomatch h
  | cons c cs ih =>
    rw [firstFailure_cons] at h
    split at h
    · exact ⟨c, List.mem_cons_self, Option.some.inj h⟩
    · obtain ⟨c', hc', he⟩ := ih h
      exact ⟨c', List.mem_cons_of_mem _ hc', he⟩

/-- Settles O52: no register check has one of the two codes, and an envelope whose tag does not match has a third. -/
theorem verificationPrecedesDecryption : Obligations.VerificationPrecedesDecryption := by
  intro s t hbusy hexec hdone hcode
  obtain rfl := Host.Outcome.next.inj hexec
  rcases envelopeCommand_cases [envelopeCapacityCheck s, workloadCheck s, prefixCheck s] s _ with
    ⟨e, he, hend⟩ | ⟨-, hend⟩ | ⟨-, pw, env, hpw, henv, hend⟩
  · have hchecks := exists_check_of_firstFailure he
    simp only [List.mem_cons, List.not_mem_nil, or_false, exists_eq_or_imp, exists_eq_left, envelopeCapacityCheck,
      workloadCheck, prefixCheck] at hchecks
    rw [hend] at hcode
    change e.code = 0x02 ∨ e.code = 0x04 at hcode
    rcases hchecks with rfl | rfl | rfl <;> exact absurd hcode (by decide)
  · rw [hend] at hdone
    exact nomatch hbusy.symm.trans hdone
  · obtain ⟨hpwLen, hpwHolds⟩ := operand_eq_some.mp hpw
    obtain ⟨henvLen, henvHolds⟩ := operand_eq_some.mp henv
    refine ⟨pw, env, hpwLen, henvLen, hpwHolds, henvHolds, ?_⟩
    by_contra htag
    rw [hend, openEnvelope_of_not_tagMatches htag] at hcode
    change ErrorCode.integrityError.code = 0x02 ∨ ErrorCode.integrityError.code = 0x04 at hcode
    exact absurd hcode (by decide)

/-- Settles O53: the output is the sealed envelope, and opening it gives the message. -/
theorem envelopeRoundTrip : Obligations.EnvelopeRoundTrip := by
  intro s u t pw m env h ht ho hp hw hu
  obtain rfl := output_of_envEnc h ht ho
  have hlen := length_sealedEnvelope s pw m
  have hmax := length_lt_of_inputReady hu.input
  rw [exec_envDec_ready hu (by rw [hp]; omega), hp, hw, sealedEnvelope,
    openEnvelope_sealEnvelope (length_drawnSalt s) (length_drawnIv s)]
  exact ⟨_, rfl, completes_complete u (by omega)⟩

/-- Settles O54: an envelope begins with the bytes drawn for it. -/
theorem differentDrawsDifferentEnvelopes : Obligations.DifferentDrawsDifferentEnvelopes := by
  intro s s' t t' pw pw' m m' env env' h h' hdraw ht ht' ho ho' he
  rw [output_of_envEnc h ht ho, output_of_envEnc h' ht' ho'] at he
  exact hdraw (by rw [← sealedEnvelope_take s pw m, he, sealedEnvelope_take])

end Sys2Proof.Machine
end

section
/-! PROOFS. Errors and model faults (60_exceptions.md R231 to R236): a recorded fault is stuck, an error changes nothing but
`STATUS`, `DOUT_LEN` and `DOUT`, and a failed command started again on the state it left fails again. -/

namespace Sys2Proof.Machine

open Claims

/-! A recorded fault (R236, R261). -/

theorem coreRun_succ_of_fault {M : Host.Core} {s : M.State} {f : M.Fault} (h : M.step s = .fault f) (n : Nat) :
    M.run (n + 1) s = .fault f := by
  rw [Host.Core.run, h]

/-- Settles O6: the first step of every run answers the fault, and a reset keeps it. -/
theorem recordedFaultIsStuck : Obligations.RecordedFaultIsStuck :=
  fun _ _ hf => ⟨coreRun_succ_of_fault (M := Sys2Proof.core) (step_of_fault hf), hf⟩

/-! An error (R217, R232). -/

/-- A command that ends with `ERR = 1` has raised an error, or has recorded a fault and left `ERR` as it was. -/
theorem ending_of_err {i : Instr} {s t : State} (he : Ending i s t) (herr : t.err = true) :
    (∃ e, t = s.raise e) ∨ t = s.recordFault .uninitialisedOperand := by
  cases he with
  | error e => exact .inl ⟨e, rfl⟩
  | unread => exact .inr rfl
  | output | loaded | sealed => exact nomatch herr

/-- Settles O56: while a command runs `ERR = 0`, so the end that shows `ERR = 1` is a raised error. -/
theorem errorsArePrecise : Obligations.ErrorsArePrecise := by
  intro i s t hs hb hst herr
  obtain ⟨hrunning, -⟩ := hs
  obtain ⟨-, hnoErr, -⟩ := hrunning hb
  rcases ending_of_err (ending_of_exec hst) herr with ⟨e, rfl⟩ | rfl
  · exact ⟨e.code, e.code_mem_legal, e.code_ne_zero, fails_raise s e⟩
  · exact nomatch hnoErr.symm.trans herr

/-! A failed command started again (R234). The state it left has the registers, the loaded schedule and the input buffers that
the command read, so its checks, its operands and its body give the same error. -/

/-- The state that a command failing with `e` leaves, with a command word written to `CMD` (R30, R232, R234). -/
def State.restarted (s : State) (e : ErrorCode) (v : Word) : State := (s.raise e).start v

/-- How two runs of a command from `s` and `u` compare: both raise one error, or the first raises none, for it succeeds or
records a fault while `BUSY` stays 1. -/
inductive FailsAlike (s u : State) : State → State → Prop where
  | raised (e : ErrorCode) : FailsAlike s u (s.raise e) (u.raise e)
  | succeeded {t t' : State} (herr : t.err = false) : FailsAlike s u t t'
  | unread {t t' : State} (hbusy : t.busy = true) : FailsAlike s u t t'

section Shared

variable {s u : State}

/-- A run that has ended with `ERR = 1` has raised an error, which the other run raised too. -/
theorem FailsAlike.exists_error {t t' : State} (h : FailsAlike s u t t') (hbusy : t.busy = false) (herr : t.err = true) :
    ∃ e, t = s.raise e ∧ t' = u.raise e := by
  cases h with
  | raised e => exact ⟨e, rfl, rfl⟩
  | succeeded hok => exact nomatch hok.symm.trans herr
  | unread hrunning => exact nomatch hbusy.symm.trans hrunning

theorem failsAlike_finish (r : Except ErrorCode (List Byte)) : FailsAlike s u (s.finish r) (u.finish r) := by
  cases r with
  | ok out => exact .succeeded rfl
  | error e => exact .raised e

/-- Two commands with one list of checks fail alike if they do once the checks pass (R231). -/
theorem failsAlike_afterChecks {checks : List Check} {body body' : State}
    (hbody : firstFailure checks = none → FailsAlike s u body body') :
    FailsAlike s u (afterChecks checks s body) (afterChecks checks u body') := by
  unfold afterChecks
  split
  · exact .raised _
  · exact hbody ‹_›

/-- Two running commands that read one operand fail alike if they do on its bytes (R36). -/
theorem failsAlike_withOperand (hb : s.busy = true) {b : Buffer} {n : Nat} (hop : operand u b n = operand s b n)
    {body body' : List Byte → State} (hbody : ∀ x, FailsAlike s u (body x) (body' x)) :
    FailsAlike s u (withOperand s b n body) (withOperand u b n body') := by
  unfold withOperand
  rw [hop]
  split
  · exact hbody _
  · exact .unread hb

end Shared

section Restart

variable {s : State} (hp : s.params.wf = true) (hb : s.busy = true) (e : ErrorCode) (v : Word)
include hp

/-- An error rewrites no input buffer, so an operand inside one reads as before (R36, R232). -/
theorem operand_restarted {b : Buffer} (hd : b ≠ .dout) {n : Nat} (hn : n ≤ b.size s.params) :
    operand (s.restarted e v) b n = operand s b n := by
  have hend := Buffer.end_le_dout hp hd
  exact Memory.getRange_congr fun k hk => Memory.get_setOutput_low s.mem [] (by omega)

theorem operand_key_restarted {nk nr : Nat} (h : keySize s.keyLen.toNat = some (nk, nr)) :
    operand (s.restarted e v) .key s.keyLen.toNat = operand s .key s.keyLen.toNat := by
  refine operand_restarted hp e v (by decide) ?_
  have hlen : s.keyLen.toNat = 16 ∨ s.keyLen.toNat = 24 ∨ s.keyLen.toNat = 32 := by
    by_contra hn
    exact nomatch (keySize_eq_none.mpr hn).symm.trans h
  show s.keyLen.toNat ≤ 32
  omega

theorem operand_block_restarted : operand (s.restarted e v) .din 16 = operand s .din 16 := by
  obtain ⟨-, hmin, -⟩ := Params.bounds_of_wf hp
  exact operand_restarted hp e v (by decide) hmin

theorem operand_din_restarted (h : s.dinLen.toNat ≤ s.params.dinMax) :
    operand (s.restarted e v) .din s.dinLen.toNat = operand s .din s.dinLen.toNat :=
  operand_restarted hp e v (by decide) h

include hb

theorem failsAlike_blockCommand (f : BlockFn) :
    FailsAlike s (s.restarted e v) (blockCommand s f) (blockCommand (s.restarted e v) f) :=
  failsAlike_afterChecks fun _ => failsAlike_withOperand hb (operand_block_restarted hp e v) fun _ => .succeeded rfl

theorem failsAlike_modeCommand {checks : List Check}
    (hc : firstFailure checks = none → s.dinLen.toNat ≤ s.params.dinMax)
    (mode : List Byte → List Byte → Except ErrorCode (List Byte)) :
    FailsAlike s (s.restarted e v) (modeCommand checks s mode) (modeCommand checks (s.restarted e v) mode) :=
  failsAlike_afterChecks fun hpass =>
    failsAlike_withOperand hb (operand_restarted hp e v (b := .iv) (by decide) le_rfl) fun _ =>
      failsAlike_withOperand hb (operand_din_restarted hp e v (hc hpass)) fun _ => failsAlike_finish _

theorem failsAlike_dinCommand {body body' : List Byte → State}
    (hbody : ∀ x, FailsAlike s (s.restarted e v) (body x) (body' x)) :
    FailsAlike s (s.restarted e v) (afterChecks [dinCapacityCheck s] s (withOperand s .din s.dinLen.toNat body))
      (afterChecks [dinCapacityCheck s] (s.restarted e v) (withOperand (s.restarted e v) .din s.dinLen.toNat body')) :=
  failsAlike_afterChecks fun hpass =>
    failsAlike_withOperand hb (operand_din_restarted hp e v ((dinCapacityCheck_pass s).mp hpass)) hbody

theorem failsAlike_envelopeCommand {checks : List Check}
    (hc : firstFailure checks = none → s.dinLen.toNat ≤ s.params.dinMax ∧ s.pwLen.toNat ≤ s.params.pwMax)
    {body body' : List Byte → List Byte → State}
    (hbody : ∀ pw x, FailsAlike s (s.restarted e v) (body pw x) (body' pw x)) :
    FailsAlike s (s.restarted e v) (envelopeCommand checks s body) (envelopeCommand checks (s.restarted e v) body') :=
  failsAlike_afterChecks fun hpass => by
    obtain ⟨hdin, hpw⟩ := hc hpass
    exact failsAlike_withOperand hb (operand_restarted hp e v (b := .pw) (by decide) hpw) fun pw =>
      failsAlike_withOperand hb (operand_din_restarted hp e v hdin) fun x => hbody pw x

/-- EVERY COMMAND, started again on the state a failed command left, raises the error it raised before (R231, R234). -/
theorem exec_failsAlike (i : Instr) : ∃ t t', exec i s = .next t ∧ exec i (s.restarted e v) = .next t' ∧
    FailsAlike s (s.restarted e v) t t' := by
  cases i
  case keyexp =>
    have hlen : (s.restarted e v).keyLen = s.keyLen := rfl
    refine ⟨_, _, rfl, rfl, ?_⟩
    rw [hlen]
    split
    · exact .raised _
    · rename_i h
      exact failsAlike_withOperand hb (operand_key_restarted hp e v h) fun _ => .succeeded rfl
  case encBlk | decBlk => exact ⟨_, _, rfl, rfl, failsAlike_blockCommand hp hb e v _⟩
  case encCbc | encPcbc | encCfb | decCfb | encOfb | decOfb | encCtr | decCtr =>
    refine ⟨_, _, rfl, rfl, failsAlike_modeCommand hp hb e v (fun hpass => ?_) _⟩
    obtain ⟨-, -, hdin⟩ := (modeChecks_pass s).mp hpass
    exact hdin
  case decCbc | decPcbc =>
    refine ⟨_, _, rfl, rfl, failsAlike_modeCommand hp hb e v (fun hpass => ?_) _⟩
    obtain ⟨-, -, -, hdin⟩ := (alignedModeChecks_pass s).mp hpass
    exact hdin
  case pad => exact ⟨_, _, rfl, rfl, failsAlike_dinCommand hp hb e v fun _ => .succeeded rfl⟩
  case unpad => exact ⟨_, _, rfl, rfl, failsAlike_dinCommand hp hb e v fun _ => failsAlike_finish _⟩
  case envEnc =>
    refine ⟨_, _, rfl, rfl, failsAlike_envelopeCommand hp hb e v (fun hpass => ?_) fun _ _ => .succeeded rfl⟩
    obtain ⟨hdin, hpw, -⟩ := (envEncChecks_pass s).mp hpass
    exact ⟨hdin, hpw⟩
  case envDec =>
    refine ⟨_, _, rfl, rfl, failsAlike_envelopeCommand hp hb e v (fun hpass => ?_) fun _ _ => failsAlike_finish _⟩
    obtain ⟨hdin, hpw, -⟩ := (envDecChecks_pass s).mp hpass
    exact ⟨hdin, hpw⟩

end Restart

/-- Settles O57: a command that fails has raised an error, and started again it raises that error again. -/
theorem failedCommandsFailAgain : Obligations.FailedCommandsFailAgain := by
  intro i s t code v hp hb hst hfails
  obtain ⟨hbusy, -, herr, hcode⟩ := hfails.status
  rcases ending_of_err (ending_of_exec hst) herr with ⟨e, rfl⟩ | rfl
  · obtain ⟨t, t', ht, ht', halike⟩ := exec_failsAlike hp hb e v i
    obtain rfl := Host.Outcome.next.inj (ht.symm.trans hst)
    obtain ⟨e', he, rfl⟩ := halike.exists_error hbusy herr
    obtain rfl : e'.code = code := (congrArg State.errcode he).symm.trans hcode
    exact ⟨_, ht', fails_raise _ e'⟩
  · exact nomatch hbusy.symm.trans hb

end Sys2Proof.Machine
end

section
/-! PROOFS. The reset input (70_reset_and_hazards.md R260, R261): what asserting it, holding it and releasing it do to the
core. -/

namespace Sys2Proof.Machine

open Claims

variable {s : State} {rest : List BusEvent}

theorem step_of_assertReset (hf : s.FaultFree) (hb : s.bus = .assertReset :: rest) :
    step s = .next (popped s rest).assertReset := step_of_event hf hb

theorem step_of_releaseReset (hf : s.FaultFree) (hb : s.bus = .releaseReset :: rest) :
    step s = .next (popped s rest).releaseReset := step_of_event hf hb

theorem statusWord_resetInput (s : State) : statusWord s.resetInput = 0 := by
  simp only [statusWord, State.resetInput_busy, State.resetInput_done, State.resetInput_err, State.resetInput_errcode,
    State.resetInput_keyValid]
  decide

theorem cfgWord_resetInput (s : State) : cfgWord s.resetInput = 0 := by
  simp only [cfgWord, State.resetInput_nk, State.resetInput_nr]
  decide

theorem get_resetInput_input (s : State) {a : Nat} (h : a < Buffer.dout.base) : s.resetInput.mem.get a = none :=
  unlisted_lt h

theorem get_resetInput_output (s : State) (k : Nat) : s.resetInput.mem.get (Buffer.dout.base + k) = some 0 :=
  unlisted_ge (Nat.le_add_right _ k)

theorem releaseReset_fault (s : State) : s.releaseReset.fault = s.fault := by
  cases hr : s.resetHeld with
  | false => rw [s.releaseReset_of_not_held hr]
  | true => rw [s.releaseReset_of_held hr, State.resetInput_fault]

/-- Settles O15: the release of a held reset leaves `resetInput` of the state, each other event leaves a held core as it is
but for the bus's answer, and no operation of the reset input writes the recorded fault. -/
theorem resetClearsTheCore : Obligations.ResetClearsTheCore := by
  refine ⟨fun s rest hf hr hb => ⟨(popped s rest).resetInput, ?_, ?_⟩, fun s rest hf => ⟨fun hb => ?_, fun hb hr => ?_⟩,
    fun s rest hf hr => ⟨fun addr n hb => ?_, fun addr n v hb => ?_, fun hb => ?_, fun hb => ?_⟩,
    fun s => ⟨s.resetInput_fault, s.assertReset_fault, releaseReset_fault s⟩⟩
  · rw [step_of_releaseReset hf hb, (popped s rest).releaseReset_of_held hr]
  · exact ⟨rfl, rfl, rfl, rfl, rfl, rfl, rfl, rfl, rfl, rfl, rfl, rfl, rfl, rfl, rfl, statusWord_resetInput _,
      cfgWord_resetInput _, fun _ ha => get_resetInput_input _ ha, get_resetInput_output _, rfl, rfl⟩
  · exact step_of_assertReset hf hb
  · rw [step_of_releaseReset hf hb, (popped s rest).releaseReset_of_not_held hr]
  · exact step_of_held_read hf hr hb
  · exact step_of_held_write hf hr hb
  · rw [step_of_core hf hb, coreTurn_standing (s := popped s rest) (.inr hr)]
  · rw [step_of_no_event hf hb, coreTurn_standing (.inr hr)]

end Sys2Proof.Machine
end
